-- ==== Sys2Proof/Word.lean ====
section
/-! DEFINITION. The one word of the machine and its plainest arithmetic (00_scope.md R7, R10). -/

namespace Sys2Proof

/-- A program word, stack cell, heap word or register: 32 bits (R7). Read as a number it is two's complement (R10). -/
abbrev Word := BitVec 32

/-- A byte of a host bus transfer (20_memory.md R70). No instruction sees one (R69). -/
abbrev Byte := BitVec 8

/-- `wrap32 n` of R10: the one word congruent to `n` modulo 2^32. -/
def wrap32 (n : Int) : Word := BitVec.ofInt 32 n

/-- INT_MIN of R10, -2^31. -/
def intMin : Word := 0x80000000#32

/-- INT_MAX of R10, 2^31 - 1. -/
def intMax : Word := 0x7FFFFFFF#32

end Sys2Proof
end

