-- ==== Sys2Proof/Machine/Flags.lean ====
section
/-! DEFINITION. The machine has no status flags (10_state.md R34): a comparison pushes its result and a conditional
branch pops the value it tests. Here are those values, and the arithmetic results of 40_const_arith.md R106. -/

namespace Sys2Proof.Machine

/-- What a comparison pushes: 1 or 0 (R34). -/
def boolWord (b : Bool) : Word := if b then 1 else 0

/-- IADD (R109). -/
def addResult (a b : Word) : Word := wrap32 (a.toInt + b.toInt)

/-- ISUB (R110): top minus next. -/
def subResult (a b : Word) : Word := wrap32 (a.toInt - b.toInt)

/-- IMUL (R111). -/
def mulResult (a b : Word) : Word := wrap32 (a.toInt * b.toInt)

/-- IDIV (R112): top by next, toward zero, wrapped. -/
def divResult (a b : Word) : Word := wrap32 (a.toInt.tdiv b.toInt)

/-- ILT (R113): signed. -/
def ltResult (a b : Word) : Word := boolWord (decide (a.toInt < b.toInt))

/-- IEQ (R114): all 32 bits. -/
def eqResult (a b : Word) : Word := boolWord (a == b)

/-- LSHIFT (R115): `A[30:0] : 0`. -/
def lshiftResult (a : Word) : Word := (a.extractLsb' 0 31) ++ (0#1)

/-- RSHIFT (R116): `A[31] : A[31:1]`. -/
def rshiftResult (a : Word) : Word := (a.extractLsb' 31 1) ++ (a.extractLsb' 1 31)

/-- The test of BRT (R121): exactly 1. -/
def brtTaken (a : Word) : Bool := a == 1

/-- The test of BRF (R122): exactly 0. -/
def brfTaken (a : Word) : Bool := a == 0

end Sys2Proof.Machine
end

