-- ==== Sys2Proof/Syntax.lean ====
section
/-! DEFINITION. The instruction set as syntax: one constructor per row of spec/opcode_table.json. -/

namespace Sys2Proof

/-- CTRL.MODE (10_state.md R39): the two execution strategies of 00_scope.md R1. -/
inductive Mode where
  | seq
  | lane
  deriving DecidableEq, Repr

/-- The 28 instructions of 30_encoding.md R92, in the order of their opcode values. An operand is the whole
operand word (R87). -/
inductive Instr where
  | iadd
  | isub
  | imul
  | ilt
  | ieq
  | br (target : Word)
  | brt (target : Word)
  | brf (target : Word)
  | iconst (value : Word)
  | load (offset : Word)
  | gload (address : Word)
  | store (offset : Word)
  | gstore (address : Word)
  | print
  | pop
  | halt
  | call (target numArgs : Word)
  | ret
  | dup
  | idiv
  | lshift
  | rshift
  | iconst1
  | gloadIndexed (base : Word)
  | gstoreIndexed (base : Word)
  | threadId
  | parallelGloadIndexed (selector : Word)
  | parallelGstoreIndexed (selector : Word)
  deriving DecidableEq, Repr

end Sys2Proof
end

