-- ==== Sys2Proof/Config.lean ====
section
/-! DEFINITION. What an implementation fixes (the build-time parameters of 00_scope.md R8) and the values the
spec leaves free. -/

namespace Sys2Proof

/-- HOST_BYTE_ORDER (20_memory.md R70): which byte of a word lies at the lower bus address. The spec leaves it to the
platform (R8, D26, N10). DESIGN CHOICE (log 29), unsafe for a platform with another order: of the orders four bytes can
have, little and big alone are admitted. -/
inductive ByteOrder where
  | little
  | big
  deriving DecidableEq, Repr

/-- The build-time parameters of R8. They stand in the state, where no step changes them, so that a statement for
every state is a statement for every value of them ("a model takes each as an argument"). -/
structure Params where
  /-- NUM_HEAPS: number of heap slots. -/
  numHeaps : Nat
  /-- PROG_CAP: words of program memory. -/
  progCap : Nat
  /-- MAX_STACK_CAP: largest legal STACK_CAP. -/
  maxStackCap : Nat
  /-- MAX_HEAP_WORDS: largest legal HEAP_CAP[s]. -/
  maxHeapWords : Nat
  /-- MAX_LANES: number of lane slots. -/
  maxLanes : Nat
  /-- MAX_GROUP_SIZE: largest legal GROUP_SIZE. -/
  maxGroupSize : Nat
  /-- OUT_DEPTH: records the output port buffers. -/
  outDepth : Nat
  /-- GROUP_POLICY: the group size used when GROUP_SIZE = 0 (OPEN). -/
  groupPolicy : Nat
  /-- BLOCK_BASE: bus address of the register file (OPEN). -/
  blockBase : Nat
  /-- PROG_WINDOW_BASE: bus address of the program window (OPEN). -/
  progWindowBase : Nat
  /-- HEAP_WINDOW_BASE[s]: bus address of each heap window (OPEN). -/
  heapWindowBase : List Nat
  /-- HOST_BYTE_ORDER (OPEN). -/
  hostByteOrder : ByteOrder
  deriving DecidableEq, Repr

/-- The reference values of R8, which bind nothing. DESIGN CHOICE (log 3), unsafe for a claim that rests on one:
R8 gives no value for the OPEN parameters, and the last five here are the model's. -/
def Params.reference : Params where
  numHeaps := 3
  progCap := 4096
  maxStackCap := 256
  maxHeapWords := 65536
  maxLanes := 1024
  maxGroupSize := 256
  outDepth := 16
  groupPolicy := 32
  blockBase := 0
  progWindowBase := 0x10000
  heapWindowBase := [0x100000, 0x200000, 0x300000]
  hostByteOrder := .little

/-- A host read that the spec calls unspecified (10_state.md R48, R53; 93 I9, I10, I21) returns this free value of
the state's draw counter. Safe: nothing constrains it (log 11). -/
opaque Config.freeWord : Nat → Word

/-- Which of the words put at a raced heap word stands there (20_memory.md R73, R80; 93 I1, I2): a free choice of
the state's draw counter. Safe (log 9). -/
opaque Config.racePick : Nat → Nat

/-- How far the 64-bit CYCLES count moved since it was last looked at (10_state.md R49; 93 I12): a free value of the
state's draw counter. Safe (log 10). -/
opaque Config.freeCycles : Nat → BitVec 64

end Sys2Proof
end

