-- ==== Sys2Proof/WellFormed.lean ====
section
/-! DEFINITION. The well-formedness checks: which instructions a mode allows (30_encoding.md R94) and which
parameters a build may have (00_scope.md R8). Operand words have no illegal values (R96). -/

namespace Sys2Proof

/-- R94: the four heap instructions of SEQ are illegal in LANE, the lane extension is illegal in SEQ, every other
instruction is legal in both. -/
def Instr.legalIn (m : Mode) : Instr → Bool
  | .iadd => true
  | .isub => true
  | .imul => true
  | .ilt => true
  | .ieq => true
  | .br _ => true
  | .brt _ => true
  | .brf _ => true
  | .iconst _ => true
  | .load _ => true
  | .gload _ => m == .seq
  | .store _ => true
  | .gstore _ => m == .seq
  | .print => true
  | .pop => true
  | .halt => true
  | .call _ _ => true
  | .ret => true
  | .dup => true
  | .idiv => true
  | .lshift => true
  | .rshift => true
  | .iconst1 => true
  | .gloadIndexed _ => m == .seq
  | .gstoreIndexed _ => m == .seq
  | .threadId => m == .lane
  | .parallelGloadIndexed _ => m == .lane
  | .parallelGstoreIndexed _ => m == .lane

/-- An instruction is well formed when some mode allows it. Every instruction of R92 is, since every operand word is
well formed (R96). -/
def Instr.wf (i : Instr) : Bool := i.legalIn .seq || i.legalIn .lane

/-- The constraints of R8, and what R20 ("PROG_CAP is far below 2^31") and R44 (each parameter is an unsigned word)
add to them. DEDUCED (log 4). -/
def Params.wf (p : Params) : Bool :=
  1 ≤ p.numHeaps && p.numHeaps ≤ 16 &&
  1 ≤ p.progCap && p.progCap + 3 ≤ 2 ^ 31 &&
  1 ≤ p.maxStackCap && p.maxStackCap ≤ 2 ^ 31 - 1 &&
  1 ≤ p.maxHeapWords && p.maxHeapWords ≤ 2 ^ 31 - 1 &&
  1 ≤ p.maxLanes && p.maxLanes ≤ 2 ^ 31 - 1 &&
  1 ≤ p.maxGroupSize && p.maxGroupSize ≤ 2 ^ 32 - 1 &&
  2 ≤ p.outDepth && p.outDepth ≤ 2 ^ 32 - 1 &&
  1 ≤ p.groupPolicy && p.groupPolicy ≤ p.maxGroupSize &&
  p.heapWindowBase.length == p.numHeaps

end Sys2Proof
end

