-- ==== Sys2Proof/Decode.lean ====
section
/-! DEFINITION. The opcode map, the decoder and the encoder (30_encoding.md R85 to R103). -/

namespace Sys2Proof

/-- The three formats of R86, each with the instruction its operand words make. -/
inductive Shape where
  | f0 (i : Instr)
  | f1 (mk : Word → Instr)
  | f2 (mk : Word → Word → Instr)

/-- The opcode map of R92, over the whole of word 0 (R86). Every other value is illegal (R95). -/
def shapeOf (op : Word) : Option Shape :=
  match op.toNat with
  | 1 => some (.f0 .iadd)
  | 2 => some (.f0 .isub)
  | 3 => some (.f0 .imul)
  | 4 => some (.f0 .ilt)
  | 5 => some (.f0 .ieq)
  | 6 => some (.f1 .br)
  | 7 => some (.f1 .brt)
  | 8 => some (.f1 .brf)
  | 9 => some (.f1 .iconst)
  | 10 => some (.f1 .load)
  | 11 => some (.f1 .gload)
  | 12 => some (.f1 .store)
  | 13 => some (.f1 .gstore)
  | 14 => some (.f0 .print)
  | 15 => some (.f0 .pop)
  | 16 => some (.f0 .halt)
  | 17 => some (.f2 .call)
  | 18 => some (.f0 .ret)
  | 19 => some (.f0 .dup)
  | 20 => some (.f0 .idiv)
  | 21 => some (.f0 .lshift)
  | 22 => some (.f0 .rshift)
  | 23 => some (.f0 .iconst1)
  | 24 => some (.f1 .gloadIndexed)
  | 25 => some (.f1 .gstoreIndexed)
  | 26 => some (.f0 .threadId)
  | 27 => some (.f1 .parallelGloadIndexed)
  | 28 => some (.f1 .parallelGstoreIndexed)
  | _ => none

/-- How many inline operand words a format has (R86). -/
def Shape.count : Shape → Nat
  | .f0 _ => 0
  | .f1 _ => 1
  | .f2 _ => 2

/-- Whether the mode allows a format's instruction: legality depends on the opcode word alone (R94). -/
def Shape.legalIn (m : Mode) : Shape → Bool
  | .f0 i => i.legalIn m
  | .f1 mk => (mk 0).legalIn m
  | .f2 mk => (mk 0 0).legalIn m

/-- The instruction a format makes of its operand words, in their order (R87); none when there are too few. -/
def Shape.build : Shape → List Word → Option Instr
  | .f0 i, _ => some i
  | .f1 mk, a :: _ => some (mk a)
  | .f2 mk, a :: b :: _ => some (mk a b)
  | .f1 _, [] => none
  | .f2 _, [] => none
  | .f2 _, [_] => none

/-- `operandCount(op)` of R88 and R92; none for an illegal opcode word. -/
def operandCount (op : Word) : Option Nat := (shapeOf op).map Shape.count

/-- The opcodes R94 allows in a mode. -/
def opcodeLegal (m : Mode) (op : Word) : Bool :=
  match shapeOf op with
  | some sh => sh.legalIn m
  | none => false

/-- Why a list of words is no instruction: the decode failures of R98. -/
inductive DecodeError where
  /-- The opcode word is none of R92's (R95, UnknownOpcode). Safe. -/
  | unknownOpcode (op : Word)
  /-- The words end before the instruction does (R91, IpOutOfRange). Safe. -/
  | truncated
  deriving DecidableEq, Repr

/-- The total decoder of R98: the instruction at the head of the words, and the words after it (R89). -/
def decode : List Word → Except DecodeError (Instr × List Word)
  | [] => .error .truncated
  | op :: rest =>
    match shapeOf op with
    | none => .error (.unknownOpcode op)
    | some sh =>
      match sh.build rest with
      | some i => .ok (i, rest.drop sh.count)
      | none => .error .truncated

/-- The opcode word of an instruction (R92). -/
def Instr.opcode : Instr → Word
  | .iadd => 1
  | .isub => 2
  | .imul => 3
  | .ilt => 4
  | .ieq => 5
  | .br _ => 6
  | .brt _ => 7
  | .brf _ => 8
  | .iconst _ => 9
  | .load _ => 10
  | .gload _ => 11
  | .store _ => 12
  | .gstore _ => 13
  | .print => 14
  | .pop => 15
  | .halt => 16
  | .call _ _ => 17
  | .ret => 18
  | .dup => 19
  | .idiv => 20
  | .lshift => 21
  | .rshift => 22
  | .iconst1 => 23
  | .gloadIndexed _ => 24
  | .gstoreIndexed _ => 25
  | .threadId => 26
  | .parallelGloadIndexed _ => 27
  | .parallelGstoreIndexed _ => 28

/-- The inline operand words of an instruction, in the order of R87. -/
def Instr.operands : Instr → List Word
  | .iadd => []
  | .isub => []
  | .imul => []
  | .ilt => []
  | .ieq => []
  | .br target => [target]
  | .brt target => [target]
  | .brf target => [target]
  | .iconst value => [value]
  | .load offset => [offset]
  | .gload address => [address]
  | .store offset => [offset]
  | .gstore address => [address]
  | .print => []
  | .pop => []
  | .halt => []
  | .call target numArgs => [target, numArgs]
  | .ret => []
  | .dup => []
  | .idiv => []
  | .lshift => []
  | .rshift => []
  | .iconst1 => []
  | .gloadIndexed base => [base]
  | .gstoreIndexed base => [base]
  | .threadId => []
  | .parallelGloadIndexed selector => [selector]
  | .parallelGstoreIndexed selector => [selector]

/-- The words of an instruction: the opcode word, then its operand words (R101). -/
def encode (i : Instr) : List Word := i.opcode :: i.operands

/-- The length of an instruction in words, `1 + operandCount(op)` (R89). -/
def Instr.length (i : Instr) : Nat := 1 + i.operands.length

/-- The source's mnemonic (R92). -/
def Instr.mnemonic : Instr → String
  | .iadd => "IADD"
  | .isub => "ISUB"
  | .imul => "IMUL"
  | .ilt => "ILT"
  | .ieq => "IEQ"
  | .br _ => "BR"
  | .brt _ => "BRT"
  | .brf _ => "BRF"
  | .iconst _ => "ICONST"
  | .load _ => "LOAD"
  | .gload _ => "GLOAD"
  | .store _ => "STORE"
  | .gstore _ => "GSTORE"
  | .print => "PRINT"
  | .pop => "POP"
  | .halt => "HALT"
  | .call _ _ => "CALL"
  | .ret => "RET"
  | .dup => "DUP"
  | .idiv => "IDIV"
  | .lshift => "LSHIFT"
  | .rshift => "RSHIFT"
  | .iconst1 => "ICONST1"
  | .gloadIndexed _ => "GLOAD_INDEXED"
  | .gstoreIndexed _ => "GSTORE_INDEXED"
  | .threadId => "THREAD_ID"
  | .parallelGloadIndexed _ => "PARALLEL_GLOAD_INDEXED"
  | .parallelGstoreIndexed _ => "PARALLEL_GSTORE_INDEXED"

/-- `describe(opcode) -> (mnemonic, operandCount)` of R93; none is its UnknownOpcode. -/
def describe (op : Word) : Option (String × Nat) :=
  match shapeOf op with
  | some (.f0 i) => some (i.mnemonic, 0)
  | some (.f1 mk) => some ((mk 0).mnemonic, 1)
  | some (.f2 mk) => some ((mk 0 0).mnemonic, 2)
  | none => none

/-- A program written as instructions, laid end to end (R85, R101). -/
def assemble (p : List Instr) : List Word := p.flatMap encode

/-- The listing of R102: from a known instruction start at word index `start`, at most `fuel` instructions. -/
def disassemble : Nat → Nat → List Word → List (Nat × Instr)
  | 0, _, _ => []
  | fuel + 1, start, ws =>
    match decode ws with
    | .ok (i, rest) => (start, i) :: disassemble fuel (start + i.length) rest
    | .error _ => []

/-- A program written as instructions, each with the word index of its opcode word (R99). -/
def placed : Nat → List Instr → List (Nat × Instr)
  | _, [] => []
  | start, i :: p => (start, i) :: placed (start + i.length) p

/-- The instruction the decoder reads from an instruction's bits `w`, the first word lowest, bits from `nbits` up
zero. The longest instruction has three words (R86). -/
def decodeTableWord (nbits w : Nat) : Option Instr :=
  let v := w % 2 ^ nbits
  match decode [BitVec.ofNat 32 v, BitVec.ofNat 32 (v / 2 ^ 32), BitVec.ofNat 32 (v / 2 ^ 64)] with
  | .ok (i, _) => some i
  | .error _ => none

end Sys2Proof
end

