-- ==== Sys2Proof/Machine/State.lean ====
section
/-! DEFINITION. The state of the block as plain data: the lane slots, the host register file, the memories, the
output port (10_state.md, 20_memory.md), and its reset value (R54). -/

namespace Sys2Proof.Machine

/-- FAULT_CODE of 60_exceptions.md R140, by name. The reserved codes 10 to 15 do not exist here (93 I19). -/
inductive FaultCode where
  /-- 0: the instance has not faulted. -/
  | none
  /-- 1: opcode word outside 1 to 28, or not legal in the mode. -/
  | unknownOpcode
  /-- 2: an instruction needs more cells than the stack holds. -/
  | stackUnderflow
  /-- 3: a push would make sp reach STACK_CAP. -/
  | stackOverflow
  /-- 4: LOAD or STORE index outside the live stack. -/
  | stackIndexOutOfRange
  /-- 5: a heap index outside the heap. -/
  | heapIndexOutOfRange
  /-- 6: a heap selector that names no heap. -/
  | heapSelectorOutOfRange
  /-- 7: IDIV with divisor 0. -/
  | divisionByZero
  /-- 8: CALL with an impossible numArgs, RET with no call active or no record. -/
  | malformedCallFrame
  /-- 9: a fetch outside the program. -/
  | ipOutOfRange
  deriving DecidableEq, Repr

/-- The status of a lane slot (10_state.md R29). -/
inductive Status where
  | inactive
  | running
  | halted
  | faulted
  deriving DecidableEq, Repr

/-- STATUS.STATE (10_state.md R40). -/
inductive RunState where
  | idle
  | running
  | done
  | rejected
  deriving DecidableEq, Repr

/-- STATUS.LAUNCH_ERR (10_state.md R40). The reserved values 6 to 15 do not exist here (93 I19). -/
inductive LaunchErr where
  | none
  | laneCount
  | groupSize
  | progLen
  | stackCap
  | heapCap
  deriving DecidableEq, Repr

/-- One lane slot: the state of one instance (10_state.md R17 to R30, R35). -/
structure Lane where
  /-- R29. -/
  status : Status
  /-- R18: the word index of the next opcode word. -/
  ip : Word
  /-- R21, R22: the cells S[0..sp], bottom first; sp is its length less 1. -/
  stack : List Word
  /-- R24. -/
  fp : Word
  /-- R26: the call depth. -/
  depth : Word
  /-- R27: the trace flag. -/
  trace : Bool
  /-- R28: the lane identity. -/
  laneId : Word
  /-- R30. -/
  faultCode : FaultCode
  /-- R30. -/
  faultIp : Word
  /-- R30. -/
  faultWord : Word
  deriving DecidableEq, Repr

/-- A slot that holds no instance, as reset and R176 leave it. Slot l keeps the identity l (R35, log 15). -/
def Lane.inactive (l : Nat) : Lane where
  status := .inactive
  ip := 0
  stack := []
  fp := 0
  depth := 0
  trace := false
  laneId := BitVec.ofNat 32 l
  faultCode := .none
  faultIp := 0
  faultWord := 0

/-- A record of the output port (10_state.md R55 to R57). The number of operands of a TRACE record is the length of
its list. -/
inductive Record where
  | trace (lane ip op : Word) (operands : List Word) (sp : Word) (stack : List Word)
  | print (lane value : Word)
  deriving DecidableEq, Repr

/-- A word-indexed space (20_memory.md R60): its words that hold a value, as (index, word) pairs with indices
strictly rising. An index not listed holds no value (R68). The cell is a word, not a byte (R60, R69; log 1). -/
abbrev Memory := List (Nat × Word)

/-- What the configuration registers held when the launch was accepted (70_reset_and_hazards.md R176). -/
structure Launch where
  mode : Mode
  traceEn : Bool
  entry : Word
  progLen : Word
  stackCap : Word
  laneCount : Word
  groupSize : Word
  heapCaps : List Word
  deriving DecidableEq, Repr

/-- One heap access by a lane of the launch, kept so that a conflicting pair can be recorded (20_memory.md R79,
R80; log 9). -/
structure Access where
  /-- The slot of the lane. -/
  lane : Nat
  heap : Nat
  index : Nat
  /-- Whether it was a write. -/
  write : Bool
  /-- What the word held just before. -/
  before : Option Word
  /-- The word read or written. -/
  value : Word
  deriving DecidableEq, Repr

/-- What moves next: an act of the host or of the dispatcher (60_exceptions.md R154, 70_reset_and_hazards.md R182;
log 5). -/
inductive Event where
  /-- The dispatcher steps the lane of one slot (R159). -/
  | lane (slot : Nat)
  /-- The dispatcher issues one group at one ip (R158). -/
  | issue (group : Nat) (ip : Word)
  /-- The host writes bytes at a bus address (R37, R51). -/
  | busWrite (addr : Nat) (data : List Byte)
  /-- The host reads that many bytes at a bus address (R37, R51). -/
  | busRead (addr width : Nat)
  /-- The host accepts the oldest record of the output port (R58). -/
  | accept
  /-- The reset input is asserted and released (R172). -/
  | reset
  deriving DecidableEq, Repr

/-- The state of the block. -/
structure State where
  /-- The build-time parameters (00_scope.md R8), which the capability registers read (10_state.md R44). -/
  cfg : Params
  /-- CTRL.MODE (R39). -/
  ctrlMode : Mode
  /-- CTRL.TRACE_EN (R39). -/
  ctrlTrace : Bool
  /-- STATUS.STATE (R40). -/
  runState : RunState
  /-- STATUS.ANY_FAULT (R40). -/
  anyFault : Bool
  /-- STATUS.WRITE_DROPPED (R40). -/
  writeDropped : Bool
  /-- STATUS.LAUNCH_ERR (R40). -/
  launchErr : LaunchErr
  /-- ENTRY (R41). -/
  entry : Word
  /-- PROG_LEN (R42). -/
  progLen : Word
  /-- STACK_CAP (R43). -/
  stackCap : Word
  /-- LANE_COUNT (R45). -/
  laneCount : Word
  /-- GROUP_SIZE (R45). -/
  groupSize : Word
  /-- HEAP_CAP[s], one per heap slot (R46). -/
  heapCaps : List Word
  /-- LANE_SEL (R48). -/
  laneSel : Word
  /-- CYCLES as the host last could have seen it (R49; log 10). -/
  cycles : BitVec 64
  /-- The configuration latched for the launch (R176). -/
  launch : Launch
  /-- The lane slots of the launch, slot 0 first. Every slot from the list's length up to MAX_LANES is
  `Lane.inactive` (R155, R167; log 15). -/
  lanes : List Lane
  /-- PROGRAM (20_memory.md R61). -/
  program : Memory
  /-- HEAP[s], one per heap slot (20_memory.md R63). -/
  heaps : List Memory
  /-- The output port's buffer, oldest record first (10_state.md R58). -/
  out : List Record
  /-- How many records at the head of `out` an earlier launch emitted (R59; log 23). -/
  outOld : Nat
  /-- The model's own: the records the host has accepted, oldest first (R189; log 23). -/
  accepted : List Record
  /-- The model's own: the bytes the last host read returned, lowest address first (log 13). -/
  busData : List Byte
  /-- The model's own: what moves next, oldest first (log 5). -/
  agenda : List Event
  /-- The model's own: the slot of the lane that steps, or stepped last (log 6, log 17). -/
  cur : Nat
  /-- The model's own: the heap accesses of the launch's lanes, newest first (20_memory.md R80; log 9). -/
  accesses : List Access
  /-- The model's own: whether the launch made a conflicting pair (20_memory.md R80; log 9). -/
  race : Bool
  /-- The model's own: how many free values have been drawn (log 27). -/
  draws : Nat
  deriving DecidableEq, Repr

/-- The stops of the model. Neither is a fault of an instance: those are next states (60_exceptions.md R142). -/
inductive Fault where
  /-- A fetch, by an instance, of a program word that holds no value (70_reset_and_hazards.md R180: "a model treats
  an instruction fetch or a heap read of a word that holds no value as a fault of the launch"). Safe. -/
  | programWordNoValue
  /-- A heap read, by an instruction, of a word that holds no value (20_memory.md R68, R180). Safe. -/
  | heapWordNoValue
  deriving DecidableEq, Repr

/-- Reasons to refuse an instruction. None is used: every instruction of the table has its meaning. -/
inductive Refusal where
  /-- The instruction has no meaning yet. Safe: the machine stops. No arm of `exec` answers it. -/
  | notModelled (mnemonic : String)
  deriving DecidableEq, Repr

/-- The configuration latched for a launch before any launch: the registers' own reset values. DESIGN CHOICE
(log 20). -/
def Launch.reset (p : Params) : Launch where
  mode := .seq
  traceEn := false
  entry := 0
  progLen := 0
  stackCap := 0
  laneCount := 0
  groupSize := 0
  heapCaps := List.replicate p.numHeaps 0

/-- The block with parameters `p` right after reset (10_state.md R54, 70_reset_and_hazards.md R172). -/
def State.resetWith (p : Params) : State where
  cfg := p
  ctrlMode := .seq
  ctrlTrace := false
  runState := .idle
  anyFault := false
  writeDropped := false
  launchErr := .none
  entry := 0
  progLen := 0
  stackCap := 0
  laneCount := 0
  groupSize := 0
  heapCaps := List.replicate p.numHeaps 0
  laneSel := 0
  cycles := 0
  launch := Launch.reset p
  lanes := []
  program := []
  heaps := List.replicate p.numHeaps []
  out := []
  outOld := 0
  accepted := []
  busData := []
  agenda := []
  cur := 0
  accesses := []
  race := false
  draws := 0

/-- The machine right after reset, with the reference parameters of 00_scope.md R8 (log 3). -/
def State.reset : State := State.resetWith Params.reference

end Sys2Proof.Machine
end

