-- ==== Sys2Proof/Machine/Memory.lean ====
section
/-! DEFINITION. Reading and writing one word-indexed space (20_memory.md R60 to R68). -/

namespace Sys2Proof.Machine

/-- Indices strictly rising, from `lo` up: no index twice, one order. -/
def Memory.sortedFrom : Nat → Memory → Bool
  | _, [] => true
  | lo, (j, _) :: m => decide (lo ≤ j) && Memory.sortedFrom (j + 1) m

/-- The canonical form: indices strictly rising. No entry can equal what an unlisted index reads as, since that is
no value. -/
def Memory.wf (m : Memory) : Bool := Memory.sortedFrom 0 m

/-- The word at index `i`; none where nothing has been written (R68). -/
def Memory.read : Memory → Nat → Option Word
  | [], _ => none
  | (j, w) :: m, i => if i = j then some w else Memory.read m i

/-- The space with the word at index `i` replaced by `v` (R66). -/
def Memory.write : Memory → Nat → Word → Memory
  | [], i, v => [(i, v)]
  | (j, w) :: m, i, v =>
    if i < j then (i, v) :: (j, w) :: m
    else if i = j then (i, v) :: m
    else (j, w) :: Memory.write m i v

/-- The space with the words at indices 0 to n - 1 given by `f`, the others as they were (10_state.md R47). -/
def Memory.fill (m : Memory) (n : Nat) (f : Nat → Word) : Memory :=
  (List.range n).map (fun i => (i, f i)) ++ m.filter (fun c => decide (n ≤ c.1))

/-- Every listed index is below `n`. -/
def Memory.below (m : Memory) (n : Nat) : Bool := m.all (fun c => decide (c.1 < n))

end Sys2Proof.Machine
end

