-- ==== Sys2Proof/Machine/Operands.lean ====
section
/-! DEFINITION. The operand forms: the top cells of the value stack, the frame-relative index, the heap index and the
heap selector (20_memory.md R62 to R67, 40_const_arith.md R105). -/

namespace Sys2Proof.Machine

/-- `A = S[sp]` and the stack below it; none when the stack is empty (R12's `pop`). -/
def top1? (st : List Word) : Option (Word × List Word) :=
  match st.getLast? with
  | some a => some (a, st.dropLast)
  | none => none

/-- `A = S[sp]`, `B = S[sp-1]` and the stack below them, in the pop order of R105; none with fewer than two cells. -/
def top2? (st : List Word) : Option (Word × Word × List Word) :=
  match top1? st with
  | some (a, st1) =>
    match top1? st1 with
    | some (b, st2) => some (a, b, st2)
    | none => none
  | none => none

/-- `sp` as an integer, -1 when the stack is empty (10_state.md R21). -/
def Lane.sp (L : Lane) : Int := (L.stack.length : Int) - 1

/-- `fp + offset` as an exact integer sum (20_memory.md R67). -/
def Lane.frameIndex (L : Lane) (offset : Word) : Int := L.fp.toInt + offset.toInt

/-- The integer `i` as an index when `0 ≤ i < n` (20_memory.md R66: "must fault, not silently wrap or clamp"). -/
def indexBelow? (i : Int) (n : Nat) : Option Nat :=
  if 0 ≤ i ∧ i < (n : Int) then some i.toNat else none

end Sys2Proof.Machine
end

