-- ==== Sys2Proof/Machine/Ops.lean ====
section
/-! DEFINITION. The named operations every meaning is written over: reading and writing the lane that steps, the
heaps, the output port, the race record, taking a fault, and completing an instruction. -/

namespace Sys2Proof.Machine

/-- What a meaning or a step answers. -/
abbrev Result := Host.Outcome State Fault Refusal

/-- The instance in slot `l`; a slot the launch does not use is INACTIVE (60_exceptions.md R155, R167). -/
def State.lane (s : State) (l : Nat) : Lane := s.lanes.getD l (Lane.inactive l)

/-- The instance that steps. -/
def State.me (s : State) : Lane := s.lane s.cur

/-- Replace the instance in slot `l`. -/
def State.setLane (s : State) (l : Nat) (L : Lane) : State := { s with lanes := s.lanes.set l L }

/-- Replace the instance that steps. -/
def State.setMe (s : State) (L : Lane) : State := s.setLane s.cur L

/-- HEAP_CAP[h] as latched for the launch (10_state.md R46, 70 R176). -/
def State.heapCap (s : State) (h : Nat) : Nat := (s.launch.heapCaps.getD h 0).toNat

/-- The contents of HEAP[h]. -/
def State.heap (s : State) (h : Nat) : Memory := s.heaps.getD h []

/-- `HeapRead(h, i)` of 20_memory.md R66; none where the word holds no value. -/
def State.heapRead (s : State) (h i : Nat) : Option Word := (s.heap h).read i

/-- `HeapWrite(h, i, v)` of 20_memory.md R66. -/
def State.heapWrite (s : State) (h i : Nat) (v : Word) : State :=
  { s with heaps := s.heaps.set h ((s.heap h).write i v) }

/-- `Emit(record)` of 00_scope.md R12. -/
def State.emit (s : State) (r : Record) : State := { s with out := s.out ++ [r] }

/-- Whether the stack of the instance that steps has room for `n` more cells: `sp + n < STACK_CAP`. -/
def State.roomFor (s : State) (n : Nat) : Bool := decide (s.me.stack.length + n ≤ s.launch.stackCap.toNat)

/-- TAKING A FAULT (60_exceptions.md R142, R143): the instance becomes FAULTED and its record gets the code, the
address of the opcode word and the opcode word; nothing else changes. There is no handler and no return from a fault
(R142, R151): only a launch or a reset gives the slot an instance again (R144). -/
def raise (c : FaultCode) (word : Word) (s : State) : State :=
  s.setMe { s.me with status := .faulted, faultCode := c, faultIp := s.me.ip, faultWord := word }

/-- A failed check of an instruction (00_scope.md R12, `check … else <Fault>`). -/
def trap (c : FaultCode) (i : Instr) (s : State) : Result := .next (raise c i.opcode s)

/-- `nextIp = a + 1 + k` of 30_encoding.md R90. -/
def nextIp (i : Instr) (s : State) : Word := s.me.ip + BitVec.ofNat 32 i.length

/-- Every write of the instruction at once, `ip <- nextIp` among them (30_encoding.md R88, R90). -/
def retire (i : Instr) (L : Lane) (s : State) : Result := .next (s.setMe { L with ip := nextIp i s })

/-- Every write of a control transfer at once, `ip <- target` among them (42_branch.md R119). -/
def jump (target : Word) (L : Lane) (s : State) : Result := .next (s.setMe { L with ip := target })

/-- Push one word, or StackOverflow when the stack is full (40_const_arith.md R107). -/
def pushWord (i : Instr) (v : Word) (s : State) : Result :=
  if s.roomFor 1 then retire i { s.me with stack := s.me.stack ++ [v] } s
  else trap .stackOverflow i s

/-- A binary operator: the two top cells become `f A B` (40_const_arith.md R105). -/
def binary (i : Instr) (f : Word → Word → Word) (s : State) : Result :=
  match top2? s.me.stack with
  | some (a, b, rest) => retire i { s.me with stack := rest ++ [f a b] } s
  | none => trap .stackUnderflow i s

/-- A unary operator: the top cell becomes `f A` (40_const_arith.md R115, R116). -/
def unary (i : Instr) (f : Word → Word) (s : State) : Result :=
  match top1? s.me.stack with
  | some (a, rest) => retire i { s.me with stack := rest ++ [f a] } s
  | none => trap .stackUnderflow i s

/-- A conditional branch: pop the tested value, then branch or fall through (42_branch.md R121, R122). -/
def branchIf (i : Instr) (taken : Word → Bool) (target : Word) (s : State) : Result :=
  match top1? s.me.stack with
  | some (a, rest) =>
    if taken a then jump target { s.me with stack := rest } s
    else retire i { s.me with stack := rest } s
  | none => trap .stackUnderflow i s

/-- Whether an access by the lane in slot `l` conflicts with one another lane of the launch made before it: the same
word, at least one a write (20_memory.md R79). -/
def State.conflicts (s : State) (l h i : Nat) (write : Bool) : Bool :=
  s.accesses.any fun a => a.lane != l && a.heap == h && a.index == i && (write || a.write)

/-- Every word the launch is known to have had at HEAP[h][i]: what its accesses found there and what they wrote. -/
def State.putWords (s : State) (h i : Nat) : List Word :=
  (s.accesses.filter fun a => a.heap == h && a.index == i).flatMap fun a =>
    a.before.toList ++ (if a.write then [a.value] else [])

/-- A free choice among the words put at a raced heap word: whole-word atomicity is kept (20_memory.md R73), nothing
else is (R80; log 9). -/
def racedWord (v : Word) (others : List Word) (draw : Nat) : Word :=
  (v :: others).getD (Config.racePick draw % (others.length + 1)) v

/-- A lane's read of HEAP[h][i], which holds `v`: the word it gets, and the state with the access recorded
(20_memory.md R79, R80; log 9). Without a conflict it gets `v`. -/
def State.laneRead (s : State) (h i : Nat) (v : Word) : Word × State :=
  if s.conflicts s.cur h i false then
    let w := racedWord v (s.putWords h i) s.draws
    (w, { s with accesses := ⟨s.cur, h, i, false, some v, w⟩ :: s.accesses, race := true, draws := s.draws + 1 })
  else
    (v, { s with accesses := ⟨s.cur, h, i, false, some v, v⟩ :: s.accesses })

/-- A lane's write of `v` to HEAP[h][i], with the access recorded (20_memory.md R79, R80; log 9). Without a conflict
the word is `v` afterwards. -/
def State.laneWrite (s : State) (h i : Nat) (v : Word) : State :=
  if s.conflicts s.cur h i true then
    let w := racedWord v ((s.heapRead h i).toList ++ s.putWords h i) s.draws
    { s.heapWrite h i w with
      accesses := ⟨s.cur, h, i, true, s.heapRead h i, v⟩ :: s.accesses, race := true, draws := s.draws + 1 }
  else
    { s.heapWrite h i v with accesses := ⟨s.cur, h, i, true, s.heapRead h i, v⟩ :: s.accesses }

end Sys2Proof.Machine
end

