-- ==== Sys2Proof/Machine/Branch.lean ====
section
/-! DEFINITION. Branches (42_branch.md R119 to R122). A target is not checked here: the next fetch checks it. -/

namespace Sys2Proof.Machine

/-- BR (R120). -/
def execBr (target : Word) (s : State) : Result := jump target s.me s

/-- BRT (R121). -/
def execBrt (target : Word) (s : State) : Result := branchIf (.brt target) brtTaken target s

/-- BRF (R122). -/
def execBrf (target : Word) (s : State) : Result := branchIf (.brf target) brfTaken target s

end Sys2Proof.Machine
end

