-- ==== Sys2Proof/Machine/Call.lean ====
section
/-! DEFINITION. Calls and returns (44_call.md R129 to R132). The frame record is [numArgs, savedFP, savedIP], pushed in
that order, and fp is the index of its top cell (10_state.md R25). -/

namespace Sys2Proof.Machine

/-- The lane after CALL's writes: the record pushed, fp at its top cell, the depth one more (R130). -/
def calledLane (L : Lane) (numArgs returnIp : Word) : Lane :=
  { L with
    stack := L.stack ++ [numArgs, L.fp, returnIp]
    fp := BitVec.ofNat 32 (L.stack.length + 2)
    depth := L.depth + 1 }

/-- CALL (R130): MalformedCallFrame before StackOverflow. -/
def execCall (target numArgs : Word) (s : State) : Result :=
  match indexBelow? numArgs.toInt (s.me.stack.length + 1) with
  | some _ =>
    if s.roomFor 3 then
      jump target (calledLane s.me numArgs (nextIp (.call target numArgs) s)) s
    else trap .stackOverflow (.call target numArgs) s
  | none => trap .malformedCallFrame (.call target numArgs) s

/-- The record RET would return through: the index of its saved-ip cell and its numArgs, when the checks of R131 that
raise MalformedCallFrame all pass. -/
def returnRecord? (L : Lane) : Option (Nat × Nat) :=
  if L.depth ≠ 0 ∧ 2 ≤ L.fp.toInt ∧ L.fp.toInt ≤ L.sp - 1 then
    let f := L.fp.toInt.toNat
    match indexBelow? (L.stack.getD (f - 2) 0).toInt (f - 1) with
    | some n => some (f, n)
    | none => none
  else none

/-- The lane after RET's writes but for ip: S[0 .. fp-3-n] and the return value, the saved fp, the depth one less
(R131). -/
def returnedLane (L : Lane) (f n : Nat) (rv : Word) : Lane :=
  { L with
    stack := L.stack.take (f - 2 - n) ++ [rv]
    fp := L.stack.getD (f - 1) 0
    depth := L.depth - 1 }

/-- RET (R131): StackUnderflow before MalformedCallFrame. -/
def execRet (s : State) : Result :=
  match top1? s.me.stack with
  | some (rv, _) =>
    match returnRecord? s.me with
    | some (f, n) => jump (s.me.stack.getD f 0) (returnedLane s.me f n rv) s
    | none => trap .malformedCallFrame .ret s
  | none => trap .stackUnderflow .ret s

end Sys2Proof.Machine
end

