-- ==== Sys2Proof/Machine/ConstArith.lean ====
section
/-! DEFINITION. Constants and integer arithmetic (40_const_arith.md R105 to R116). -/

namespace Sys2Proof.Machine

/-- ICONST (R107). -/
def execIconst (value : Word) (s : State) : Result := pushWord (.iconst value) value s

/-- ICONST1 (R108). -/
def execIconst1 (s : State) : Result := pushWord .iconst1 1 s

/-- IADD (R109). -/
def execIadd (s : State) : Result := binary .iadd addResult s

/-- ISUB (R110). -/
def execIsub (s : State) : Result := binary .isub subResult s

/-- IMUL (R111). -/
def execImul (s : State) : Result := binary .imul mulResult s

/-- IDIV (R112): StackUnderflow before DivisionByZero (60_exceptions.md R146); the divisor is the cell below the
top. -/
def execIdiv (s : State) : Result :=
  match top2? s.me.stack with
  | some (a, b, rest) =>
    if b = 0 then trap .divisionByZero .idiv s
    else retire .idiv { s.me with stack := rest ++ [divResult a b] } s
  | none => trap .stackUnderflow .idiv s

/-- ILT (R113). -/
def execIlt (s : State) : Result := binary .ilt ltResult s

/-- IEQ (R114). -/
def execIeq (s : State) : Result := binary .ieq eqResult s

/-- LSHIFT (R115). -/
def execLshift (s : State) : Result := unary .lshift lshiftResult s

/-- RSHIFT (R116). -/
def execRshift (s : State) : Result := unary .rshift rshiftResult s

end Sys2Proof.Machine
end

