-- ==== Sys2Proof/Machine/FrameHeap.lean ====
section
/-! DEFINITION. Frame access and the heap of mode SEQ, which is heap slot 0 (43_frame_heap.md R123 to R128,
20_memory.md R64). -/

namespace Sys2Proof.Machine

/-- LOAD (R123): StackIndexOutOfRange before StackOverflow. -/
def execLoad (offset : Word) (s : State) : Result :=
  match indexBelow? (s.me.frameIndex offset) s.me.stack.length with
  | some k => pushWord (.load offset) (s.me.stack.getD k 0) s
  | none => trap .stackIndexOutOfRange (.load offset) s

/-- STORE (R124): the pop comes first, so the target lies below the top cell. -/
def execStore (offset : Word) (s : State) : Result :=
  match top1? s.me.stack with
  | some (v, rest) =>
    match indexBelow? (s.me.frameIndex offset) rest.length with
    | some k => retire (.store offset) { s.me with stack := rest.set k v } s
    | none => trap .stackIndexOutOfRange (.store offset) s
  | none => trap .stackUnderflow (.store offset) s

/-- GLOAD (R125): HeapIndexOutOfRange before StackOverflow; the heap is read after every check. -/
def execGload (address : Word) (s : State) : Result :=
  match indexBelow? address.toInt (s.heapCap 0) with
  | some k =>
    if s.roomFor 1 then
      match s.heapRead 0 k with
      | some v => pushWord (.gload address) v s
      | none => .fault .heapWordNoValue
    else trap .stackOverflow (.gload address) s
  | none => trap .heapIndexOutOfRange (.gload address) s

/-- GSTORE (R126). -/
def execGstore (address : Word) (s : State) : Result :=
  match top1? s.me.stack with
  | some (v, rest) =>
    match indexBelow? address.toInt (s.heapCap 0) with
    | some k => retire (.gstore address) { s.me with stack := rest } (s.heapWrite 0 k v)
    | none => trap .heapIndexOutOfRange (.gstore address) s
  | none => trap .stackUnderflow (.gstore address) s

/-- GLOAD_INDEXED (R127): the sum is exact (20_memory.md R67). -/
def execGloadIndexed (base : Word) (s : State) : Result :=
  match top1? s.me.stack with
  | some (offset, rest) =>
    match indexBelow? (base.toInt + offset.toInt) (s.heapCap 0) with
    | some k =>
      match s.heapRead 0 k with
      | some v => retire (.gloadIndexed base) { s.me with stack := rest ++ [v] } s
      | none => .fault .heapWordNoValue
    | none => trap .heapIndexOutOfRange (.gloadIndexed base) s
  | none => trap .stackUnderflow (.gloadIndexed base) s

/-- GSTORE_INDEXED (R128): the value is on top, the offset below it. -/
def execGstoreIndexed (base : Word) (s : State) : Result :=
  match top2? s.me.stack with
  | some (v, offset, rest) =>
    match indexBelow? (base.toInt + offset.toInt) (s.heapCap 0) with
    | some k => retire (.gstoreIndexed base) { s.me with stack := rest } (s.heapWrite 0 k v)
    | none => trap .heapIndexOutOfRange (.gstoreIndexed base) s
  | none => trap .stackUnderflow (.gstoreIndexed base) s

end Sys2Proof.Machine
end

