-- ==== Sys2Proof/Machine/LaneOps.lean ====
section
/-! DEFINITION. The lane extension (46_lane.md R135 to R137). -/

namespace Sys2Proof.Machine

/-- THREAD_ID (R135). -/
def execThreadId (s : State) : Result := pushWord .threadId s.me.laneId s

/-- PARALLEL_GLOAD_INDEXED (R136): selector before index. -/
def execParallelGloadIndexed (selector : Word) (s : State) : Result :=
  match top1? s.me.stack with
  | some (index, rest) =>
    match indexBelow? selector.toInt s.cfg.numHeaps with
    | some h =>
      match indexBelow? index.toInt (s.heapCap h) with
      | some k =>
        match s.heapRead h k with
        | some v =>
          retire (.parallelGloadIndexed selector)
            { s.me with stack := rest ++ [(s.laneRead h k v).1] } (s.laneRead h k v).2
        | none => .fault .heapWordNoValue
      | none => trap .heapIndexOutOfRange (.parallelGloadIndexed selector) s
    | none => trap .heapSelectorOutOfRange (.parallelGloadIndexed selector) s
  | none => trap .stackUnderflow (.parallelGloadIndexed selector) s

/-- PARALLEL_GSTORE_INDEXED (R137): the value is on top, the index below it. -/
def execParallelGstoreIndexed (selector : Word) (s : State) : Result :=
  match top2? s.me.stack with
  | some (v, index, rest) =>
    match indexBelow? selector.toInt s.cfg.numHeaps with
    | some h =>
      match indexBelow? index.toInt (s.heapCap h) with
      | some k => retire (.parallelGstoreIndexed selector) { s.me with stack := rest } (s.laneWrite h k v)
      | none => trap .heapIndexOutOfRange (.parallelGstoreIndexed selector) s
    | none => trap .heapSelectorOutOfRange (.parallelGstoreIndexed selector) s
  | none => trap .stackUnderflow (.parallelGstoreIndexed selector) s

end Sys2Proof.Machine
end

