-- ==== Sys2Proof/Machine/OutputHalt.lean ====
section
/-! DEFINITION. Output and halt (45_output_halt.md R133, R134). -/

namespace Sys2Proof.Machine

/-- PRINT (R133). That the port has room is the step's condition, not the instruction's check (10_state.md R58). -/
def execPrint (s : State) : Result :=
  match top1? s.me.stack with
  | some (v, rest) => retire .print { s.me with stack := rest } (s.emit (.print s.me.laneId v))
  | none => trap .stackUnderflow .print s

/-- HALT (R134). -/
def execHalt (s : State) : Result := retire .halt { s.me with status := .halted } s

end Sys2Proof.Machine
end

