-- ==== Sys2Proof/Machine/Stack.lean ====
section
/-! DEFINITION. Stack manipulation (41_stack.md R117, R118). -/

namespace Sys2Proof.Machine

/-- DUP (R117): StackUnderflow before StackOverflow. -/
def execDup (s : State) : Result :=
  match top1? s.me.stack with
  | some (a, _) => pushWord .dup a s
  | none => trap .stackUnderflow .dup s

/-- POP (R118). -/
def execPop (s : State) : Result :=
  match top1? s.me.stack with
  | some (_, rest) => retire .pop { s.me with stack := rest } s
  | none => trap .stackUnderflow .pop s

end Sys2Proof.Machine
end

