-- ==== Sys2Proof/Machine/Dispatch.lean ====
section
/-! DEFINITION. One arm per constructor of Instr: the rule of the opcode run on the instance that steps
(30_encoding.md R88). -/

namespace Sys2Proof.Machine

def exec (i : Instr) (s : State) : Host.Outcome State Fault Refusal :=
  match i with
  | .iadd => Sys2Proof.Machine.execIadd s
  | .isub => Sys2Proof.Machine.execIsub s
  | .imul => Sys2Proof.Machine.execImul s
  | .ilt => Sys2Proof.Machine.execIlt s
  | .ieq => Sys2Proof.Machine.execIeq s
  | .br target => Sys2Proof.Machine.execBr target s
  | .brt target => Sys2Proof.Machine.execBrt target s
  | .brf target => Sys2Proof.Machine.execBrf target s
  | .iconst value => Sys2Proof.Machine.execIconst value s
  | .load offset => Sys2Proof.Machine.execLoad offset s
  | .gload address => Sys2Proof.Machine.execGload address s
  | .store offset => Sys2Proof.Machine.execStore offset s
  | .gstore address => Sys2Proof.Machine.execGstore address s
  | .print => Sys2Proof.Machine.execPrint s
  | .pop => Sys2Proof.Machine.execPop s
  | .halt => Sys2Proof.Machine.execHalt s
  | .call target numArgs => Sys2Proof.Machine.execCall target numArgs s
  | .ret => Sys2Proof.Machine.execRet s
  | .dup => Sys2Proof.Machine.execDup s
  | .idiv => Sys2Proof.Machine.execIdiv s
  | .lshift => Sys2Proof.Machine.execLshift s
  | .rshift => Sys2Proof.Machine.execRshift s
  | .iconst1 => Sys2Proof.Machine.execIconst1 s
  | .gloadIndexed base => Sys2Proof.Machine.execGloadIndexed base s
  | .gstoreIndexed base => Sys2Proof.Machine.execGstoreIndexed base s
  | .threadId => Sys2Proof.Machine.execThreadId s
  | .parallelGloadIndexed selector => Sys2Proof.Machine.execParallelGloadIndexed selector s
  | .parallelGstoreIndexed selector => Sys2Proof.Machine.execParallelGstoreIndexed selector s

end Sys2Proof.Machine
end

