-- ==== Sys2Proof/Machine/Fetch.lean ====
section
/-! DEFINITION. The step of one instance (30_encoding.md R88) and the dispatcher's choice of lanes (60_exceptions.md
R154 to R161). -/

namespace Sys2Proof.Machine

/-- What a fetch gives: the words, IpOutOfRange (R91), or a word that holds no value (70 R180). -/
inductive Fetched (α : Type) where
  | got (a : α)
  | outOfRange
  | noValue
  deriving DecidableEq, Repr

/-- `fetch(i)` of 00_scope.md R12. -/
def fetchWord (s : State) (i : Int) : Fetched Word :=
  match indexBelow? i s.launch.progLen.toNat with
  | some k =>
    match s.program.read k with
    | some w => .got w
    | none => .noValue
  | none => .outOfRange

/-- `k` operand words from index `i` on, in order; the first fetch that fails decides (R88). -/
def fetchWords (s : State) (i : Int) : Nat → Fetched (List Word)
  | 0 => .got []
  | k + 1 =>
    match fetchWord s i with
    | .got w =>
      match fetchWords s (i + 1) k with
      | .got ws => .got (w :: ws)
      | .outOfRange => .outOfRange
      | .noValue => .noValue
    | .outOfRange => .outOfRange
    | .noValue => .noValue

/-- What fetch and decode of one step give: an instruction, a decode-stage fault with its FAULT_WORD (R145), or a
program word that holds no value. -/
inductive Decoded where
  | instr (i : Instr)
  | fault (c : FaultCode) (word : Word)
  | noValue
  deriving DecidableEq, Repr

/-- Fetch and decode at word index `a`: the opcode word, its legality in MODE, then its operand words (R88, R94). -/
def decodeAt (s : State) (a : Int) : Decoded :=
  match fetchWord s a with
  | .outOfRange => .fault .ipOutOfRange 0
  | .noValue => .noValue
  | .got op =>
    match shapeOf op with
    | none => .fault .unknownOpcode op
    | some sh =>
      if sh.legalIn s.launch.mode then
        match fetchWords s (a + 1) sh.count with
        | .outOfRange => .fault .ipOutOfRange op
        | .noValue => .noValue
        | .got opnds =>
          match sh.build opnds with
          | some i => .instr i
          | none => .fault .unknownOpcode op
      else .fault .unknownOpcode op

/-- The TRACE record of an instruction, on the state before it (10_state.md R56). -/
def traceRecord (i : Instr) (L : Lane) : Record :=
  .trace L.laneId L.ip i.opcode i.operands (BitVec.ofInt 32 L.sp) L.stack

/-- How many records a step emits: a TRACE record when the instance traces, a PRINT record when PRINT has a cell to
pop (10_state.md R58). -/
def recordsOf (i : Instr) (L : Lane) : Nat :=
  (if L.trace then 1 else 0) + (if i = .print ∧ L.stack ≠ [] then 1 else 0)

/-- Whether the output port holds this step: no room for every record it emits (10_state.md R58). -/
def State.noRoom (s : State) (i : Instr) (L : Lane) : Bool := decide (s.cfg.outDepth < s.out.length + recordsOf i L)

/-- Whether the output port holds the next step of the lane in slot `l`. -/
def State.held (s : State) (l : Nat) : Bool :=
  match decodeAt s (s.lane l).ip.toInt with
  | .instr i => s.noRoom i (s.lane l)
  | .fault _ _ => false
  | .noValue => false

/-- The state before the rule of the opcode runs: the TRACE record emitted when the instance traces (R88). -/
def State.traced (s : State) (i : Instr) : State := if s.me.trace then s.emit (traceRecord i s.me) else s

/-- One step of the instance in slot `s.cur` (R88): fetch, decode, trace, run the rule. A held step changes nothing
(10_state.md R58). -/
def stepInstance (s : State) : Result :=
  match decodeAt s s.me.ip.toInt with
  | .noValue => .fault .programWordNoValue
  | .fault c word => .next (raise c word s)
  | .instr i => if s.noRoom i s.me then .next s else exec i (s.traced i)

/-- A lane is active when its status is RUNNING (60_exceptions.md R158). -/
def State.active (s : State) (l : Nat) : Bool := (s.lane l).status == .running

/-- The dispatcher steps slot `l`. Outside a launch, and in a slot that is not RUNNING, no step is taken
(60_exceptions.md R144, R157, R158, R171). -/
def stepLane (l : Nat) (s : State) : Result :=
  if s.runState = .running ∧ s.active l then stepInstance { s with cur := l } else .next s

/-- The slots in turn, from the one after `cur` round to `cur`. -/
def State.rotation (s : State) : List Nat :=
  (List.range s.lanes.length).map fun k => (s.cur + 1 + k) % s.lanes.length

/-- The dispatcher's own choice when the agenda names none: the next active lane in turn, so that none is starved
(60_exceptions.md R161). DESIGN CHOICE (log 6). -/
def State.pick (s : State) : Option Nat := s.rotation.find? s.active

/-- How many lane positions the launch has: LANE_COUNT in LANE, one in SEQ (60_exceptions.md R155, R167). -/
def Launch.lanesUsed (c : Launch) : Nat :=
  match c.mode with
  | .seq => 1
  | .lane => c.laneCount.toNat

/-- G of 60_exceptions.md R156: GROUP_SIZE, or the GROUP_POLICY size when it is 0; SEQ ignores GROUP_SIZE (R167). -/
def State.groupLen (s : State) : Nat :=
  match s.launch.mode with
  | .seq => 1
  | .lane => if s.launch.groupSize = 0 then s.cfg.groupPolicy else s.launch.groupSize.toNat

/-- `ceil(LANE_COUNT / G)` groups (R156). -/
def State.groupCount (s : State) : Nat := (s.launch.lanesUsed + s.groupLen - 1) / s.groupLen

/-- The lane positions of group `g`, `g·G` to `g·G + G - 1` (R156). -/
def State.groupPositions (s : State) (g : Nat) : List Nat :=
  (List.range s.groupLen).map fun k => g * s.groupLen + k

/-- The positions of a partial group that are masked off for the whole launch (R157). -/
def State.masked (s : State) (l : Nat) : Bool := decide (s.launch.lanesUsed ≤ l)

/-- The issue mask of 60_exceptions.md R158: the active lanes of the group at that ip which the output port does not
hold. -/
def State.issueMask (s : State) (g : Nat) (ip : Word) : List Nat :=
  (s.groupPositions g).filter fun l =>
    !s.masked l && s.active l && (s.lane l).ip == ip && !s.held l

end Sys2Proof.Machine
end

