-- ==== Sys2Proof/Machine/HostBus.lean ====
section
/-! DEFINITION. The host's side of the block: launch and completion (70_reset_and_hazards.md R174 to R178), the
register file and the memory windows (10_state.md R37 to R54), the output port (R55 to R59) and reset (R172). -/

namespace Sys2Proof.Machine

/-! ### Launch -/

/-- The heaps a mode uses (10_state.md R46). -/
def heapsUsed (m : Mode) (p : Params) : List Nat :=
  match m with
  | .seq => [0]
  | .lane => List.range p.numHeaps

/-- The checks of R175, in its order, on the configuration registers. -/
def State.launchCheck (s : State) : LaunchErr :=
  if s.ctrlMode = .lane ∧ (s.laneCount = 0 ∨ s.cfg.maxLanes < s.laneCount.toNat) then .laneCount
  else if s.ctrlMode = .lane ∧ s.cfg.maxGroupSize < s.groupSize.toNat then .groupSize
  else if s.cfg.progCap < s.progLen.toNat then .progLen
  else if s.cfg.maxStackCap < s.stackCap.toNat then .stackCap
  else if (heapsUsed s.ctrlMode s.cfg).any fun h => decide (s.cfg.maxHeapWords < (s.heapCaps.getD h 0).toNat) then
    .heapCap
  else .none

/-- What R176 latches. -/
def State.latch (s : State) : Launch where
  mode := s.ctrlMode
  traceEn := s.ctrlTrace
  entry := s.entry
  progLen := s.progLen
  stackCap := s.stackCap
  laneCount := s.laneCount
  groupSize := s.groupSize
  heapCaps := s.heapCaps

/-- The fresh instance R176 gives slot `l`. -/
def freshLane (c : Launch) (l : Nat) : Lane where
  status := .running
  ip := c.entry
  stack := []
  fp := 0
  depth := 0
  trace := c.traceEn
  laneId := BitVec.ofNat 32 l
  faultCode := .none
  faultIp := 0
  faultWord := 0

/-- The slots a launch activates: 0 to LANE_COUNT - 1 in LANE (60_exceptions.md R155), slot 0 in SEQ (R167). Every
other slot is INACTIVE. -/
def freshLanes (c : Launch) : List Lane :=
  (List.range (match c.mode with | .seq => 1 | .lane => c.laneCount.toNat)).map (freshLane c)

/-- An accepted request (R176). The program, the heaps and the output buffer stay as they are; its records are from
now on an earlier launch's (10_state.md R59). The access record of the race check starts afresh (log 9). cur becomes 0:
R158 leaves the first lane open, and with an empty agenda the slot after slot 0 steps first and slot 0 last (DESIGN
CHOICE, log 6; unsafe for a claim that rests on that order). -/
def State.startLaunch (s : State) : State :=
  { s with
    runState := .running
    anyFault := false
    writeDropped := false
    launchErr := .none
    cycles := 0
    launch := s.latch
    lanes := freshLanes s.latch
    outOld := s.out.length
    cur := 0
    accesses := []
    race := false }

/-- A refused request (R175, 60_exceptions.md R147). -/
def State.refusedBy (s : State) (e : LaunchErr) : State :=
  { s with runState := .rejected, launchErr := e, anyFault := false }

/-- A launch request (R174). -/
def State.requestLaunch (s : State) : State :=
  match s.launchCheck with
  | .none => s.startLaunch
  | e => s.refusedBy e

/-- Whether the launch completes now: RUNNING, no slot running, no record of the launch in the buffer (R177). -/
def State.completionDue (s : State) : Bool :=
  s.runState == .running && s.lanes.all (fun L => L.status != .running) && decide (s.out.length ≤ s.outOld)

/-- Completion (R177, 60_exceptions.md R163). CYCLES has moved on by a free amount and stops (10_state.md R49;
log 10). -/
def State.complete (s : State) : State :=
  { s with
    runState := .done
    anyFault := s.lanes.any (fun L => L.status == .faulted)
    cycles := s.cycles + Config.freeCycles s.draws
    draws := s.draws + 1 }

/-! ### Register values -/

/-- The 4-bit code of 60_exceptions.md R140. -/
def FaultCode.toNat : FaultCode → Nat
  | .none => 0
  | .unknownOpcode => 1
  | .stackUnderflow => 2
  | .stackOverflow => 3
  | .stackIndexOutOfRange => 4
  | .heapIndexOutOfRange => 5
  | .heapSelectorOutOfRange => 6
  | .divisionByZero => 7
  | .malformedCallFrame => 8
  | .ipOutOfRange => 9

/-- LSTATE of 10_state.md R29. -/
def Status.toNat : Status → Nat
  | .inactive => 0
  | .running => 1
  | .halted => 2
  | .faulted => 3

/-- STATE of R40. -/
def RunState.toNat : RunState → Nat
  | .idle => 0
  | .running => 1
  | .done => 2
  | .rejected => 3

/-- LAUNCH_ERR of R40. -/
def LaunchErr.toNat : LaunchErr → Nat
  | .none => 0
  | .laneCount => 1
  | .groupSize => 2
  | .progLen => 3
  | .stackCap => 4
  | .heapCap => 5

/-- CTRL as it reads (R39): START reads 0, MODE bit 1, TRACE_EN bit 2. -/
def State.ctrlWord (s : State) : Word :=
  BitVec.ofNat 32 (2 * (if s.ctrlMode = .lane then 1 else 0) + 4 * (if s.ctrlTrace then 1 else 0))

/-- STATUS as it reads (R40): STATE bits 1:0, ANY_FAULT bit 2, WRITE_DROPPED bit 3, LAUNCH_ERR bits 7:4. -/
def State.statusWord (s : State) : Word :=
  BitVec.ofNat 32 (s.runState.toNat + 4 * (if s.anyFault then 1 else 0) + 8 * (if s.writeDropped then 1 else 0)
    + 16 * s.launchErr.toNat)

/-- LANE_STATUS as it reads (R48): LSTATE bits 1:0, FAULT_CODE bits 11:8. -/
def Lane.statusWord (L : Lane) : Word := BitVec.ofNat 32 (L.status.toNat + 256 * L.faultCode.toNat)

/-- What a host read answers: a value, an unspecified value (a free draw), or a half of CYCLES. -/
inductive HostRead where
  | value (w : Word)
  | unspecified
  | cyclesLo
  | cyclesHi
  deriving DecidableEq, Repr

/-- A lane result register (R48): unspecified while RUNNING (R53), 0 when LANE_SEL names no slot. -/
def State.laneView (s : State) (f : Lane → HostRead) : HostRead :=
  if s.runState = .running then .unspecified
  else if s.cfg.maxLanes ≤ s.laneSel.toNat then .value 0
  else f (s.lane s.laneSel.toNat)

/-- LANE_STACK[i] (R48): an unspecified value above sp. -/
def stackCellRead (i : Nat) (L : Lane) : HostRead :=
  match L.stack[i]? with
  | some v => .value v
  | none => .unspecified

/-- The register map of R38, read at a byte offset that is a multiple of 4. Reserved offsets read 0 (R50). LANE_SEL
is one of the lane result registers of R48, so unspecified while RUNNING (DEDUCED, log 12). -/
def State.readReg (s : State) (off : Nat) : HostRead :=
  match off with
  | 0x000 => .value s.ctrlWord
  | 0x004 => .value s.statusWord
  | 0x008 => .value s.entry
  | 0x00C => .value s.progLen
  | 0x010 => .value s.stackCap
  | 0x014 => .value s.laneCount
  | 0x018 => .value s.groupSize
  | 0x01C => .value 0
  | 0x020 => .value (BitVec.ofNat 32 s.cfg.numHeaps)
  | 0x024 => .value (BitVec.ofNat 32 s.cfg.progCap)
  | 0x028 => .value (BitVec.ofNat 32 s.cfg.maxStackCap)
  | 0x02C => .value (BitVec.ofNat 32 s.cfg.maxHeapWords)
  | 0x030 => .value (BitVec.ofNat 32 s.cfg.maxLanes)
  | 0x034 => .value (BitVec.ofNat 32 s.cfg.maxGroupSize)
  | 0x038 => .value (BitVec.ofNat 32 s.cfg.outDepth)
  | 0x080 => if s.runState = .running then .unspecified else .value s.laneSel
  | 0x084 => s.laneView fun L => .value L.statusWord
  | 0x088 => s.laneView fun L => .value L.ip
  | 0x08C => s.laneView fun L => .value (BitVec.ofInt 32 L.sp)
  | 0x090 => s.laneView fun L => .value L.fp
  | 0x094 => s.laneView fun L => .value L.depth
  | 0x098 => s.laneView fun L => .value L.faultIp
  | 0x09C => s.laneView fun L => .value L.faultWord
  | 0x0A0 => .cyclesLo
  | 0x0A4 => .cyclesHi
  | off =>
    if 0x040 ≤ off ∧ off < 0x040 + 4 * s.cfg.numHeaps then .value (s.heapCaps.getD ((off - 0x040) / 4) 0)
    else if 0x1000 ≤ off ∧ off < 0x1000 + 4 * s.cfg.maxStackCap then
      s.laneView (stackCellRead ((off - 0x1000) / 4))
    else .value 0

/-- Whether R52 drops a write to this register while RUNNING: CTRL, ENTRY, PROG_LEN, STACK_CAP, LANE_COUNT,
GROUP_SIZE, HEAP_CMD and HEAP_CAP[s]. -/
def State.configOffset (s : State) (off : Nat) : Bool :=
  (off % 4 == 0 && decide (off ≤ 0x01C) && off != 0x004) ||
  (off % 4 == 0 && decide (0x040 ≤ off) && decide (off < 0x040 + 4 * s.cfg.numHeaps))

/-- HEAP_CMD (R47): ZERO or IOTA over min(HEAP_CAP[SEL], MAX_HEAP_WORDS) words of heap SEL. -/
def State.heapCmd (s : State) (v : Word) : State :=
  let sel := (v.extractLsb' 0 4).toNat
  let op := (v.extractLsb' 4 2).toNat
  let n := min (s.heapCaps.getD sel 0).toNat s.cfg.maxHeapWords
  if sel < s.cfg.numHeaps then
    if op = 1 then { s with heaps := s.heaps.set sel ((s.heap sel).fill n (fun _ => 0)) }
    else if op = 2 then { s with heaps := s.heaps.set sel ((s.heap sel).fill n (fun i => BitVec.ofNat 32 i)) }
    else s
  else s

/-- A write to CTRL (R39): MODE and TRACE_EN are stored, then START requests the launch with them. -/
def State.writeCtrl (s : State) (v : Word) : State :=
  let s1 := { s with ctrlMode := if v.getLsbD 1 then .lane else .seq, ctrlTrace := v.getLsbD 2 }
  if v.getLsbD 0 then s1.requestLaunch else s1

/-- A write to a configuration register while the block is not RUNNING (R38 to R47). -/
def State.writeConfig (s : State) (off : Nat) (v : Word) : State :=
  match off with
  | 0x000 => s.writeCtrl v
  | 0x008 => { s with entry := v }
  | 0x00C => { s with progLen := v }
  | 0x010 => { s with stackCap := v }
  | 0x014 => { s with laneCount := v }
  | 0x018 => { s with groupSize := v }
  | 0x01C => s.heapCmd v
  | off => { s with heapCaps := s.heapCaps.set ((off - 0x040) / 4) v }

/-- A write to the register file at an offset that is a multiple of 4: LANE_SEL at all times; a configuration
register unless RUNNING, when the write is dropped and WRITE_DROPPED set (R52); any other offset ignores it (R37,
R50). -/
def State.writeReg (s : State) (off : Nat) (v : Word) : State :=
  if off = 0x080 then { s with laneSel := v }
  else if s.configOffset off then
    if s.runState = .running then { s with writeDropped := true } else s.writeConfig off v
  else s

/-! ### The bus -/

/-- The places a bus address can lie in (R37, R51). -/
inductive Window where
  | regs
  | program
  | heap (h : Nat)
  deriving DecidableEq, Repr

/-- The offset of an address in a window of that base and size. -/
def offsetIn? (base size addr : Nat) : Option Nat :=
  if base ≤ addr ∧ addr < base + size then some (addr - base) else none

/-- The window a bus address lies in, and its byte offset there; none outside every window (R37, R51). Windows that
overlap are the platform's affair: the first one wins (DESIGN CHOICE, log 13). -/
def locate (p : Params) (addr : Nat) : Option (Window × Nat) :=
  match offsetIn? p.blockBase (0x1000 + 4 * p.maxStackCap) addr with
  | some off => some (.regs, off)
  | none =>
    match offsetIn? p.progWindowBase (4 * p.progCap) addr with
    | some off => some (.program, off)
    | none =>
      (List.range p.numHeaps).findSome? fun h =>
        (offsetIn? (p.heapWindowBase.getD h 0) (4 * p.maxHeapWords) addr).map fun off => (.heap h, off)

/-- The word four bus bytes make, lowest address first (20_memory.md R70). -/
def wordOfBytes (o : ByteOrder) (bs : List Byte) : Word :=
  match o with
  | .little => (bs.getD 3 0) ++ (bs.getD 2 0) ++ (bs.getD 1 0) ++ (bs.getD 0 0)
  | .big => (bs.getD 0 0) ++ (bs.getD 1 0) ++ (bs.getD 2 0) ++ (bs.getD 3 0)

/-- The four bus bytes of a word, lowest address first (20_memory.md R70). -/
def bytesOfWord (o : ByteOrder) (w : Word) : List Byte :=
  match o with
  | .little => [w.extractLsb' 0 8, w.extractLsb' 8 8, w.extractLsb' 16 8, w.extractLsb' 24 8]
  | .big => [w.extractLsb' 24 8, w.extractLsb' 16 8, w.extractLsb' 8 8, w.extractLsb' 0 8]

/-- A host write. Only an aligned write of four bytes has an effect (R50); writes to a memory window while RUNNING
are dropped and set WRITE_DROPPED (R52). -/
def State.busWrite (s : State) (addr : Nat) (data : List Byte) : State :=
  match locate s.cfg addr with
  | none => s
  | some (w, off) =>
    if off % 4 = 0 ∧ data.length = 4 then
      let v := wordOfBytes s.cfg.hostByteOrder data
      match w with
      | .regs => s.writeReg off v
      | .program =>
        if s.runState = .running then { s with writeDropped := true }
        else { s with program := s.program.write (off / 4) v }
      | .heap h =>
        if s.runState = .running then { s with writeDropped := true } else s.heapWrite h (off / 4) v
    else s

/-- What a read of a window answers: the program window its words at any time, a heap window its words unless RUNNING
(R51, R53); a word that holds no value reads as an unspecified value (93 I21). -/
def State.readAt (s : State) (w : Window) (off : Nat) : HostRead :=
  match w with
  | .regs => s.readReg off
  | .program =>
    match s.program.read (off / 4) with
    | some v => .value v
    | none => .unspecified
  | .heap h =>
    if s.runState = .running then .unspecified
    else
      match s.heapRead h (off / 4) with
      | some v => .value v
      | none => .unspecified

/-- The host looks at CYCLES: while RUNNING the count has moved on by a free amount (R49; log 10). -/
def State.lookAtCycles (s : State) : State :=
  if s.runState = .running then
    { s with cycles := s.cycles + Config.freeCycles s.draws, draws := s.draws + 1 }
  else s

/-- The word a host read returns on the bus, and the state after it. Only the model's own bookkeeping changes: a free
value is drawn (log 11), and CYCLES has moved on by a free amount if it still counts (log 10). -/
def State.answer (s : State) (r : HostRead) : Word × State :=
  match r with
  | .value w => (w, s)
  | .unspecified => (Config.freeWord s.draws, { s with draws := s.draws + 1 })
  | .cyclesLo => (s.lookAtCycles.cycles.extractLsb' 0 32, s.lookAtCycles)
  | .cyclesHi => (s.lookAtCycles.cycles.extractLsb' 32 32, s.lookAtCycles)

/-- A host read of `width` bytes. Any but an aligned read of four bytes inside a window reads 0 (R50, R51). -/
def State.busRead (s : State) (addr width : Nat) : State :=
  match locate s.cfg addr with
  | none => { s with busData := List.replicate width 0 }
  | some (w, off) =>
    if off % 4 = 0 ∧ width = 4 then
      let r := s.answer (s.readAt w off)
      { r.2 with busData := bytesOfWord s.cfg.hostByteOrder r.1 }
    else { s with busData := List.replicate width 0 }

/-! ### The output port and reset -/

/-- The host accepts the oldest record (R58); with an empty buffer there is nothing to accept. -/
def State.acceptRecord (s : State) : State :=
  match s.out with
  | [] => s
  | r :: rest => { s with out := rest, outOld := s.outOld - 1, accepted := s.accepted ++ [r] }

/-- Reset (R172, R173): every field of R54, no program or heap word with a value, the records not yet accepted
discarded. The parameters, the agenda, what the host has accepted and the draw counter are not the block's to reset
(log 14). -/
def State.afterReset (s : State) : State :=
  { State.resetWith s.cfg with agenda := s.agenda, accepted := s.accepted, draws := s.draws }

end Sys2Proof.Machine
end

