-- ==== Sys2Proof/Machine/Block.lean ====
section
/-! DEFINITION. One step of the block: completion when it is due, else the next event of the agenda, else the next
active lane in turn (60_exceptions.md R154 to R163, 70_reset_and_hazards.md R172 to R182). -/

namespace Sys2Proof.Machine

/-- What an event does. An issue of a group becomes the steps of its mask, in slot order, before anything else
(60_exceptions.md R158, R159; log 7). -/
def handle (e : Event) (s : State) : Result :=
  match e with
  | .lane l => stepLane l s
  | .issue g ip => .next { s with agenda := (s.issueMask g ip).map Event.lane ++ s.agenda }
  | .busWrite addr data => .next (s.busWrite addr data)
  | .busRead addr width => .next (s.busRead addr width)
  | .accept => .next s.acceptRecord
  | .reset => .next s.afterReset

/-- One step. Completion comes as soon as it is due (70 R177; log 8). With nothing to do the block stays as it is
(60 R171). -/
def blockStep (s : State) : Result :=
  if s.completionDue then .next s.complete
  else
    match s.agenda with
    | e :: rest => handle e { s with agenda := rest }
    | [] =>
      match s.pick with
      | some l => stepLane l s
      | none => .next s

end Sys2Proof.Machine
end

