-- ==== Sys2Proof/Machine/Step.lean ====
section
/-! DEFINITION. The machine's step, and the state in which its next step runs a given instruction. -/

namespace Sys2Proof.Machine

/-- One step of the block. -/
def step (s : State) : Host.Outcome State Fault Refusal := blockStep s

/-- The mode in which the next step can run this opcode word: the launch's own, if it allows it (30_encoding.md
R94). -/
def fetchMode (m : Mode) (op : Word) : Mode :=
  if opcodeLegal m op then m
  else
    match m with
    | .seq => .lane
    | .lane => .seq

/-- `s` with the bits `w` of an instruction (bits from `nbits` up zero, three words, the longest instruction) at
program index 0, a launch running, and the lane the dispatcher picks next at ip 0: the next step runs that
instruction. It stands for the host's load and START (70 R179; log 18). The lane keeps its stack, fp and depth; where
no lane runs, slot 0 does. -/
def State.withFetchWord (s : State) (nbits w : Nat) : State :=
  let v := w % 2 ^ nbits
  let w0 := BitVec.ofNat 32 v
  let program := ((s.program.write 0 w0).write 1 (BitVec.ofNat 32 (v / 2 ^ 32))).write 2 (BitVec.ofNat 32 (v / 2 ^ 64))
  let l := s.pick.getD 0
  let lanes := if s.lanes = [] then [Lane.inactive 0] else s.lanes
  let L := lanes.getD l (Lane.inactive l)
  { s with
    runState := .running
    launch := { s.launch with
      mode := fetchMode s.launch.mode w0
      progLen := if s.launch.progLen.toNat < 3 then 3 else s.launch.progLen }
    lanes := lanes.set l { L with status := .running, ip := 0, trace := false }
    program := program
    agenda := [] }

end Sys2Proof.Machine
end

