-- ==== Sys2Proof/Safety.lean ====
section
/-! DEFINITION. What counts as a well-formed state and as a safe run. -/

namespace Sys2Proof.Machine

/-- Every space is in canonical form and holds no word beyond its size (20_memory.md R60). -/
def State.memoryWf (s : State) : Bool :=
  s.program.wf && s.program.below s.cfg.progCap &&
  s.heaps.all (fun m => m.wf && m.below s.cfg.maxHeapWords)

/-- There is one heap and one HEAP_CAP per heap slot (10_state.md R46, 20_memory.md R63). -/
def State.slotsWf (s : State) : Bool :=
  s.heaps.length == s.cfg.numHeaps && s.heapCaps.length == s.cfg.numHeaps &&
  s.launch.heapCaps.length == s.cfg.numHeaps

/-- The latched configuration passed every check of 70_reset_and_hazards.md R175. -/
def State.launchWf (s : State) : Bool :=
  (s.launch.mode == .seq || (s.launch.laneCount != 0 && decide (s.launch.laneCount.toNat ≤ s.cfg.maxLanes) &&
    decide (s.launch.groupSize.toNat ≤ s.cfg.maxGroupSize))) &&
  decide (s.launch.progLen.toNat ≤ s.cfg.progCap) && decide (s.launch.stackCap.toNat ≤ s.cfg.maxStackCap) &&
  (heapsUsed s.launch.mode s.cfg).all (fun h => decide (s.heapCap h ≤ s.cfg.maxHeapWords))

/-- There is one slot per lane position of the launch, LANE_COUNT in LANE and one in SEQ (60_exceptions.md R155, R167);
none before the first launch, while STATE is IDLE or REJECTED. -/
def State.lanesFit (s : State) : Bool :=
  decide (s.lanes.length ≤ s.cfg.maxLanes) &&
  (s.lanes.length == s.launch.lanesUsed || (s.lanes.isEmpty && (s.runState == .idle || s.runState == .rejected)))

/-- One slot of the launch: it holds an instance, its stack keeps to STACK_CAP (10_state.md R23), its identity is its
number (R28), its trace flag is the launch's (R27), and its fault record is written just when it is FAULTED (R30). -/
def Lane.wf (c : Launch) (l : Nat) (L : Lane) : Bool :=
  L.status != .inactive && decide (L.stack.length ≤ c.stackCap.toNat) && L.laneId == BitVec.ofNat 32 l &&
  L.trace == c.traceEn && (L.status == .faulted) == (L.faultCode != .none) &&
  (L.faultCode != .none || (L.faultIp == 0 && L.faultWord == 0))

/-- Every slot of the launch is well formed. -/
def State.lanesWf (s : State) : Bool :=
  (List.range s.lanes.length).all fun l => (s.lane l).wf s.launch l

/-- STATUS agrees with the slots: an instance runs only while STATE is RUNNING, LAUNCH_ERR is set just when REJECTED,
ANY_FAULT only when DONE (10_state.md R40, 70_reset_and_hazards.md R178). -/
def State.statusWf (s : State) : Bool :=
  (s.runState == .running || s.lanes.all (fun L => L.status != .running)) &&
  (s.runState == .rejected) == (s.launchErr != .none) && (s.runState == .done || !s.anyFault)

/-- The output port holds at most OUT_DEPTH records (10_state.md R58), and outside a launch none of the launch's own
(R59). -/
def State.portWf (s : State) : Bool :=
  decide (s.out.length ≤ s.cfg.outDepth) && decide (s.outOld ≤ s.out.length) &&
  (s.runState == .running || decide (s.out.length ≤ s.outOld))

/-- The invariant of the machine. -/
def State.Inv (s : State) : Prop :=
  s.cfg.wf = true ∧ s.memoryWf = true ∧ s.slotsWf = true ∧ s.launchWf = true ∧ s.lanesFit = true ∧
  s.lanesWf = true ∧ s.statusWf = true ∧ s.portWf = true

/-- The host's duty of 70_reset_and_hazards.md R180 for the launch that runs: every program word below PROG_LEN and
every heap word below HEAP_CAP, of each heap the mode uses, holds a value. -/
def State.initialised (s : State) : Prop :=
  (∀ i, i < s.launch.progLen.toNat → (s.program.read i).isSome = true) ∧
  (∀ h ∈ heapsUsed s.launch.mode s.cfg, ∀ i, i < s.heapCap h → (s.heapRead h i).isSome = true)

/-! ### The words claims are written in -/

/-- The result is a next state that differs from `s` in the lane that steps alone, which is `L` afterwards: every
other slot, every program and heap word, every register, record and other field is as it was. -/
def WritesLane (r : Result) (s : State) (L : Lane) : Prop :=
  ∃ t, r = .next t ∧ t.me = L ∧ (∀ l, l ≠ s.cur → t.lane l = s.lane l) ∧
    (∀ i, t.program.read i = s.program.read i) ∧ (∀ h i, t.heapRead h i = s.heapRead h i) ∧
    { t with lanes := s.lanes } = s

/-- As `WritesLane`, but that HEAP[h][k] becomes `v`; every other word of every heap is as it was. -/
def WritesLaneAndHeap (r : Result) (s : State) (L : Lane) (h k : Nat) (v : Word) : Prop :=
  ∃ t, r = .next t ∧ t.me = L ∧ (∀ l, l ≠ s.cur → t.lane l = s.lane l) ∧
    (∀ i, t.program.read i = s.program.read i) ∧ t.heapRead h k = some v ∧
    (∀ a i, (a, i) ≠ (h, k) → t.heapRead a i = s.heapRead a i) ∧
    { t with lanes := s.lanes, heaps := s.heaps } = s

/-- The result is that the lane that steps takes the fault `c` (60_exceptions.md R142, R143): it is FAULTED, its
record names the code, its own ip and the word, and nothing else changes. -/
def FaultsWith (r : Result) (s : State) (c : FaultCode) (word : Word) : Prop :=
  WritesLane r s { s.me with status := .faulted, faultCode := c, faultIp := s.me.ip, faultWord := word }

/-- The next step of the block is the step of the running instance in slot `l`: a launch runs, and the agenda names
the slot next, or names nothing and it is the slot's turn. -/
def NextLane (s : State) (l : Nat) : Prop :=
  s.runState = .running ∧ (s.lane l).status = .running ∧
    ((∃ rest, s.agenda = .lane l :: rest) ∨ s.agenda = [] ∧ s.pick = some l)

/-- The state in which that instance steps: the agenda moved on, the slot chosen. -/
def State.choose (s : State) (l : Nat) : State := { s with agenda := s.agenda.tail, cur := l }

/-- The words of instruction `i` stand at word index `a` of the program the launch runs (30_encoding.md R85). -/
def State.holdsAt (s : State) (a : Nat) (i : Instr) : Prop :=
  ∀ j (hj : j < (encode i).length), a + j < s.launch.progLen.toNat ∧ s.program.read (a + j) = some (encode i)[j]

/-- The state with every trace flag 0 and no TRACE record in the buffer: what tracing adds, taken away
(10_state.md R58). -/
def State.untraced (s : State) : State :=
  { s with
    lanes := s.lanes.map fun L => { L with trace := false }
    out := s.out.filter fun r => match r with | .trace _ _ _ _ _ _ => false | .print _ _ => true }

/-- The state with another grouping: GROUP_SIZE, its latched copy and GROUP_POLICY (60_exceptions.md R162). -/
def State.regrouped (s : State) (size latched : Word) (policy : Nat) : State :=
  { s with
    groupSize := size
    launch := { s.launch with groupSize := latched }
    cfg := { s.cfg with groupPolicy := policy } }

/-- The state with the launch in the other mode (46_lane.md R139). -/
def State.inMode (s : State) (m : Mode) : State := { s with launch := { s.launch with mode := m } }

end Sys2Proof.Machine
end

