-- ==== Sys2Proof/Certificates/Slice0/Obligations.lean ====
section
/-! DEFINITION. The statements. Their words (`WritesLane`, `FaultsWith`, `NextLane`, …) are defined in Safety.lean.
A statement about an instruction holds for the state in which the running instance steps; `StepRunsDecodedInstruction`
carries it to a step of the block. -/

open Sys2Proof Sys2Proof.Machine

/-! ### Constants and arithmetic (40_const_arith.md) -/

/-- R109, R110, R111, R113, R114: the two top cells become the one cell `A ⊕ B`, A the top; nothing else changes but
ip; with fewer than two cells, StackUnderflow. -/
def Obligations.BinaryOperatorsReplaceTopTwo : Prop :=
  (∀ (s : State) (rest : List Word) (b a : Word), s.me.status = .running → s.me.stack = rest ++ [b, a] →
    let after (r : Word) : Lane := { s.me with stack := rest ++ [r], ip := s.me.ip + 1 }
    WritesLane (exec .iadd s) s (after (wrap32 (a.toInt + b.toInt))) ∧
    WritesLane (exec .isub s) s (after (wrap32 (a.toInt - b.toInt))) ∧
    WritesLane (exec .imul s) s (after (wrap32 (a.toInt * b.toInt))) ∧
    WritesLane (exec .ilt s) s (after (if a.toInt < b.toInt then 1 else 0)) ∧
    WritesLane (exec .ieq s) s (after (if a = b then 1 else 0))) ∧
  (∀ (s : State) (i : Instr), s.me.status = .running → s.me.stack.length < 2 →
    i ∈ [Instr.iadd, .isub, .imul, .ilt, .ieq] → FaultsWith (exec i s) s .stackUnderflow i.opcode) ∧
  encode .iadd = [1] ∧ encode .isub = [2] ∧ encode .imul = [3] ∧ encode .ilt = [4] ∧ encode .ieq = [5]

/-- R112: A ÷ B toward zero, wrapped, so INT_MIN ÷ -1 = INT_MIN; a zero divisor raises DivisionByZero, fewer than two
cells StackUnderflow. -/
def Obligations.DivisionTruncatesOrFaults : Prop :=
  (∀ (s : State) (rest : List Word) (b a : Word), s.me.status = .running → s.me.stack = rest ++ [b, a] → b ≠ 0 →
    WritesLane (exec .idiv s) s
      { s.me with stack := rest ++ [wrap32 (a.toInt.tdiv b.toInt)], ip := s.me.ip + 1 }) ∧
  (∀ (s : State) (rest : List Word) (a : Word), s.me.status = .running → s.me.stack = rest ++ [0, a] →
    FaultsWith (exec .idiv s) s .divisionByZero 20) ∧
  (∀ s : State, s.me.status = .running → s.me.stack.length < 2 →
    FaultsWith (exec .idiv s) s .stackUnderflow 20) ∧
  wrap32 (intMin.toInt.tdiv (-1#32).toInt) = intMin ∧ encode .idiv = [20]

/-- R115, R116: the top cell becomes `A[30:0] : 0`, which is `wrap32 (2 A)`, or `A[31] : A[31:1]`, which is
`floor (A / 2)`; on an empty stack, StackUnderflow. -/
def Obligations.ShiftsMoveByOneBit : Prop :=
  (∀ (s : State) (rest : List Word) (a : Word), s.me.status = .running → s.me.stack = rest ++ [a] →
    ∃ l r : Word,
      WritesLane (exec .lshift s) s { s.me with stack := rest ++ [l], ip := s.me.ip + 1 } ∧
      WritesLane (exec .rshift s) s { s.me with stack := rest ++ [r], ip := s.me.ip + 1 } ∧
      l = wrap32 (2 * a.toInt) ∧ r.toInt = a.toInt / 2 ∧
      l.getLsbD 0 = false ∧ (∀ j < 31, l.getLsbD (j + 1) = a.getLsbD j) ∧
      r.getLsbD 31 = a.getLsbD 31 ∧ (∀ j < 31, r.getLsbD j = a.getLsbD (j + 1))) ∧
  (∀ (s : State), s.me.status = .running → s.me.stack = [] →
    FaultsWith (exec .lshift s) s .stackUnderflow 21 ∧ FaultsWith (exec .rshift s) s .stackUnderflow 22) ∧
  encode .lshift = [21] ∧ encode .rshift = [22]

/-- R107, R108: the constant is pushed unchanged; on a full stack, StackOverflow. -/
def Obligations.ConstantsArePushed : Prop :=
  (∀ (s : State) (value : Word), s.me.status = .running → s.me.stack.length < s.launch.stackCap.toNat →
    WritesLane (exec (.iconst value) s) s { s.me with stack := s.me.stack ++ [value], ip := s.me.ip + 2 } ∧
    WritesLane (exec .iconst1 s) s { s.me with stack := s.me.stack ++ [1], ip := s.me.ip + 1 }) ∧
  (∀ (s : State) (value : Word), s.me.status = .running → s.launch.stackCap.toNat ≤ s.me.stack.length →
    FaultsWith (exec (.iconst value) s) s .stackOverflow 9 ∧ FaultsWith (exec .iconst1 s) s .stackOverflow 23) ∧
  (∀ value : Word, encode (.iconst value) = [9, value]) ∧ encode .iconst1 = [23]

/-! ### Stack manipulation (41_stack.md) -/

/-- R117, R118: DUP pushes a copy of the top cell, POP removes it; StackUnderflow comes before StackOverflow. -/
def Obligations.DupCopiesAndPopRemoves : Prop :=
  (∀ (s : State) (rest : List Word) (a : Word), s.me.status = .running → s.me.stack = rest ++ [a] →
    (s.me.stack.length < s.launch.stackCap.toNat →
      WritesLane (exec .dup s) s { s.me with stack := rest ++ [a, a], ip := s.me.ip + 1 }) ∧
    (s.launch.stackCap.toNat ≤ s.me.stack.length → FaultsWith (exec .dup s) s .stackOverflow 19) ∧
    WritesLane (exec .pop s) s { s.me with stack := rest, ip := s.me.ip + 1 }) ∧
  (∀ s : State, s.me.status = .running → s.me.stack = [] →
    FaultsWith (exec .dup s) s .stackUnderflow 19 ∧ FaultsWith (exec .pop s) s .stackUnderflow 15) ∧
  encode .dup = [19] ∧ encode .pop = [15]

/-! ### Branches (42_branch.md) -/

/-- R120, R121, R122: BR always jumps; BRT jumps just when the popped cell is 1, BRF just when it is 0, and each falls
through otherwise; no target is checked. -/
def Obligations.BranchesTestExactly : Prop :=
  (∀ (s : State) (target : Word), s.me.status = .running →
    WritesLane (exec (.br target) s) s { s.me with ip := target }) ∧
  (∀ (s : State) (rest : List Word) (a target : Word), s.me.status = .running → s.me.stack = rest ++ [a] →
    WritesLane (exec (.brt target) s) s
      { s.me with stack := rest, ip := if a = 1 then target else s.me.ip + 2 } ∧
    WritesLane (exec (.brf target) s) s
      { s.me with stack := rest, ip := if a = 0 then target else s.me.ip + 2 }) ∧
  (∀ (s : State) (target : Word), s.me.status = .running → s.me.stack = [] →
    FaultsWith (exec (.brt target) s) s .stackUnderflow 7 ∧ FaultsWith (exec (.brf target) s) s .stackUnderflow 8) ∧
  (∀ target : Word, encode (.br target) = [6, target] ∧ encode (.brt target) = [7, target] ∧
    encode (.brf target) = [8, target])

/-! ### Frame and heap access (43_frame_heap.md) -/

/-- R123: LOAD pushes S[fp + offset], the sum exact, when that cell lives; StackIndexOutOfRange comes before
StackOverflow. -/
def Obligations.LoadCopiesFrameCell : Prop :=
  (∀ (s : State) (offset v : Word) (k : Nat), s.me.status = .running →
    s.me.fp.toInt + offset.toInt = k → s.me.stack[k]? = some v →
    (s.me.stack.length < s.launch.stackCap.toNat →
      WritesLane (exec (.load offset) s) s { s.me with stack := s.me.stack ++ [v], ip := s.me.ip + 2 }) ∧
    (s.launch.stackCap.toNat ≤ s.me.stack.length → FaultsWith (exec (.load offset) s) s .stackOverflow 10)) ∧
  (∀ (s : State) (offset : Word), s.me.status = .running →
    ¬ (0 ≤ s.me.fp.toInt + offset.toInt ∧ s.me.fp.toInt + offset.toInt < s.me.stack.length) →
    FaultsWith (exec (.load offset) s) s .stackIndexOutOfRange 10) ∧
  (∀ offset : Word, encode (.load offset) = [10, offset])

/-- R124: STORE pops the top cell into S[fp + offset], the sum exact, when that cell lives after the pop. -/
def Obligations.StoreWritesFrameCell : Prop :=
  (∀ (s : State) (rest : List Word) (offset v : Word) (k : Nat), s.me.status = .running →
    s.me.stack = rest ++ [v] → s.me.fp.toInt + offset.toInt = k → k < rest.length →
    WritesLane (exec (.store offset) s) s { s.me with stack := rest.set k v, ip := s.me.ip + 2 }) ∧
  (∀ (s : State) (rest : List Word) (offset v : Word), s.me.status = .running → s.me.stack = rest ++ [v] →
    ¬ (0 ≤ s.me.fp.toInt + offset.toInt ∧ s.me.fp.toInt + offset.toInt < rest.length) →
    FaultsWith (exec (.store offset) s) s .stackIndexOutOfRange 12) ∧
  (∀ (s : State) (offset : Word), s.me.status = .running → s.me.stack = [] →
    FaultsWith (exec (.store offset) s) s .stackUnderflow 12) ∧
  (∀ offset : Word, encode (.store offset) = [12, offset])

/-- R125, R127: GLOAD pushes HEAP[0][address]; GLOAD_INDEXED replaces the top cell by HEAP[0][base + top], the sum
exact. HeapIndexOutOfRange comes before StackOverflow; StackUnderflow comes first. A word that holds no value stops the
launch (R68). -/
def Obligations.HeapLoadsReadHeapZero : Prop :=
  (∀ (s : State) (address v : Word) (k : Nat), s.me.status = .running → address.toInt = k → k < s.heapCap 0 →
    (s.me.stack.length < s.launch.stackCap.toNat → s.heapRead 0 k = some v →
      WritesLane (exec (.gload address) s) s { s.me with stack := s.me.stack ++ [v], ip := s.me.ip + 2 }) ∧
    (s.me.stack.length < s.launch.stackCap.toNat → s.heapRead 0 k = none →
      exec (.gload address) s = .fault .heapWordNoValue) ∧
    (s.launch.stackCap.toNat ≤ s.me.stack.length → FaultsWith (exec (.gload address) s) s .stackOverflow 11)) ∧
  (∀ (s : State) (address : Word), s.me.status = .running → ¬ (0 ≤ address.toInt ∧ address.toInt < s.heapCap 0) →
    FaultsWith (exec (.gload address) s) s .heapIndexOutOfRange 11) ∧
  (∀ (s : State) (rest : List Word) (base offset v : Word) (k : Nat), s.me.status = .running →
    s.me.stack = rest ++ [offset] → base.toInt + offset.toInt = k → k < s.heapCap 0 →
    (s.heapRead 0 k = some v →
      WritesLane (exec (.gloadIndexed base) s) s { s.me with stack := rest ++ [v], ip := s.me.ip + 2 }) ∧
    (s.heapRead 0 k = none → exec (.gloadIndexed base) s = .fault .heapWordNoValue)) ∧
  (∀ (s : State) (rest : List Word) (base offset : Word), s.me.status = .running → s.me.stack = rest ++ [offset] →
    ¬ (0 ≤ base.toInt + offset.toInt ∧ base.toInt + offset.toInt < s.heapCap 0) →
    FaultsWith (exec (.gloadIndexed base) s) s .heapIndexOutOfRange 24) ∧
  (∀ (s : State) (base : Word), s.me.status = .running → s.me.stack = [] →
    FaultsWith (exec (.gloadIndexed base) s) s .stackUnderflow 24)

/-- R126, R128: GSTORE pops the top cell into HEAP[0][address]; GSTORE_INDEXED pops a value and an offset and stores
the value at HEAP[0][base + offset], the sum exact. No other heap word changes. -/
def Obligations.HeapStoresWriteHeapZero : Prop :=
  (∀ (s : State) (rest : List Word) (address v : Word) (k : Nat), s.me.status = .running →
    s.me.stack = rest ++ [v] → address.toInt = k → k < s.heapCap 0 → 0 < s.heaps.length →
    WritesLaneAndHeap (exec (.gstore address) s) s { s.me with stack := rest, ip := s.me.ip + 2 } 0 k v) ∧
  (∀ (s : State) (rest : List Word) (address v : Word), s.me.status = .running → s.me.stack = rest ++ [v] →
    ¬ (0 ≤ address.toInt ∧ address.toInt < s.heapCap 0) →
    FaultsWith (exec (.gstore address) s) s .heapIndexOutOfRange 13) ∧
  (∀ (s : State) (address : Word), s.me.status = .running → s.me.stack = [] →
    FaultsWith (exec (.gstore address) s) s .stackUnderflow 13) ∧
  (∀ (s : State) (rest : List Word) (base offset v : Word) (k : Nat), s.me.status = .running →
    s.me.stack = rest ++ [offset, v] → base.toInt + offset.toInt = k → k < s.heapCap 0 → 0 < s.heaps.length →
    WritesLaneAndHeap (exec (.gstoreIndexed base) s) s { s.me with stack := rest, ip := s.me.ip + 2 } 0 k v) ∧
  (∀ (s : State) (rest : List Word) (base offset v : Word), s.me.status = .running →
    s.me.stack = rest ++ [offset, v] → ¬ (0 ≤ base.toInt + offset.toInt ∧ base.toInt + offset.toInt < s.heapCap 0) →
    FaultsWith (exec (.gstoreIndexed base) s) s .heapIndexOutOfRange 25) ∧
  (∀ (s : State) (base : Word), s.me.status = .running → s.me.stack.length < 2 →
    FaultsWith (exec (.gstoreIndexed base) s) s .stackUnderflow 25)

/-- The inverse pair of R128 and R77: what GSTORE_INDEXED stored at base + offset, GLOAD_INDEXED of any base and offset
with the same sum pushes; and what GSTORE stored, GLOAD of the same address pushes, even as the next instruction
(R185). -/
def Obligations.HeapLoadAfterStore : Prop :=
  (∀ (s t : State) (rest : List Word) (base offset v : Word), s.me.status = .running → 0 < s.heaps.length →
    s.me.stack = rest ++ [offset, v] → exec (.gstoreIndexed base) s = .next t → t.me.status = .running →
    ∀ (u : State) (base2 offset2 : Word) (rest2 : List Word), u.me.status = .running → u.heaps = t.heaps →
      u.launch = t.launch → u.me.stack = rest2 ++ [offset2] →
      base2.toInt + offset2.toInt = base.toInt + offset.toInt →
      WritesLane (exec (.gloadIndexed base2) u) u { u.me with stack := rest2 ++ [v], ip := u.me.ip + 2 }) ∧
  (∀ (s t : State) (rest : List Word) (address v : Word), s.me.status = .running → 0 < s.heaps.length →
    s.me.stack = rest ++ [v] → s.me.stack.length ≤ s.launch.stackCap.toNat → exec (.gstore address) s = .next t →
    t.me.status = .running →
    WritesLane (exec (.gload address) t) t { s.me with ip := s.me.ip + 2 + 2 })

/-! ### Calls and returns (44_call.md) -/

/-- R130: CALL pushes [numArgs, fp, address of the next instruction], sets fp to the top of that record, counts the
call and jumps; MalformedCallFrame comes before StackOverflow. -/
def Obligations.CallPushesFrameRecord : Prop :=
  (∀ (s : State) (target numArgs : Word), s.me.status = .running →
    0 ≤ numArgs.toInt → numArgs.toInt ≤ s.me.stack.length →
    (s.me.stack.length + 3 ≤ s.launch.stackCap.toNat →
      WritesLane (exec (.call target numArgs) s) s
        { s.me with
          stack := s.me.stack ++ [numArgs, s.me.fp, s.me.ip + 3]
          fp := BitVec.ofNat 32 (s.me.stack.length + 2)
          depth := s.me.depth + 1
          ip := target }) ∧
    (s.launch.stackCap.toNat < s.me.stack.length + 3 →
      FaultsWith (exec (.call target numArgs) s) s .stackOverflow 17)) ∧
  (∀ (s : State) (target numArgs : Word), s.me.status = .running →
    ¬ (0 ≤ numArgs.toInt ∧ numArgs.toInt ≤ s.me.stack.length) →
    FaultsWith (exec (.call target numArgs) s) s .malformedCallFrame 17) ∧
  (∀ target numArgs : Word, encode (.call target numArgs) = [17, target, numArgs])

/-- R131: RET keeps S[0 .. fp-3-n] and the return value, restores fp and ip from the record, and uncounts the call;
with no call active, no record below the return value, or an impossible numArgs, MalformedCallFrame; on an empty stack
StackUnderflow first. -/
def Obligations.RetPopsFrameRecord : Prop :=
  (∀ (s : State) (f n : Nat) (rv numArgs savedFp savedIp : Word), s.me.status = .running → s.me.depth ≠ 0 →
    s.me.fp.toInt = f → 2 ≤ f → f + 2 ≤ s.me.stack.length → s.me.stack.getLast? = some rv →
    s.me.stack[f - 2]? = some numArgs → s.me.stack[f - 1]? = some savedFp → s.me.stack[f]? = some savedIp →
    numArgs.toInt = n → n + 2 ≤ f →
    WritesLane (exec .ret s) s
      { s.me with
        stack := s.me.stack.take (f - 2 - n) ++ [rv]
        fp := savedFp
        depth := s.me.depth - 1
        ip := savedIp }) ∧
  (∀ s : State, s.me.status = .running → s.me.stack ≠ [] →
    (s.me.depth = 0 ∨ s.me.fp.toInt < 2 ∨ (s.me.stack.length : Int) - 2 < s.me.fp.toInt ∨
      ∃ (f : Nat) (numArgs : Word), s.me.fp.toInt = f ∧ s.me.stack[f - 2]? = some numArgs ∧
        ¬ (0 ≤ numArgs.toInt ∧ numArgs.toInt ≤ (f : Int) - 2)) →
    FaultsWith (exec .ret s) s .malformedCallFrame 18) ∧
  (∀ s : State, s.me.status = .running → s.me.stack = [] → FaultsWith (exec .ret s) s .stackUnderflow 18) ∧
  encode .ret = [18]

/-- R132: a callee that leaves the frame record intact and returns above it gives the caller its fp, depth and next
instruction back, with the n arguments replaced by the one return value. `t` is the state after the CALL, `u` any later
state of the instance: the record stands where CALL left it, `below` are the cells under it, which the callee may have
overwritten by STOREs of negative offset, and `locals` those above it. -/
def Obligations.CallThenRetRestoresCaller : Prop :=
  ∀ (s t u : State) (target numArgs v : Word) (below locals : List Word), s.me.status = .running →
    s.me.stack.length < 2 ^ 31 - 3 → s.me.depth ≠ -1 →
    exec (.call target numArgs) s = .next t → t.me.status = .running →
    u.me.status = .running → below.length = s.me.stack.length →
    u.me.stack = below ++ [numArgs, s.me.fp, s.me.ip + 3] ++ locals ++ [v] → u.me.fp = t.me.fp →
    u.me.depth = t.me.depth →
    WritesLane (exec .ret u) u
      { u.me with
        stack := below.take (s.me.stack.length - numArgs.toInt.toNat) ++ [v]
        fp := s.me.fp
        depth := s.me.depth
        ip := s.me.ip + 3 }

/-! ### Output and halt (45_output_halt.md) -/

/-- R133, R134: PRINT pops the top cell and emits it with the lane identity; on an empty stack StackUnderflow and no
PRINT record. HALT moves ip past itself and makes the status HALTED. -/
def Obligations.PrintEmitsAndHaltStops : Prop :=
  (∀ (s : State) (rest : List Word) (v : Word), s.me.status = .running → s.me.stack = rest ++ [v] →
    ∃ t, exec .print s = .next t ∧ t.me = { s.me with stack := rest, ip := s.me.ip + 1 } ∧
      t.out = s.out ++ [.print s.me.laneId v] ∧ (∀ l, l ≠ s.cur → t.lane l = s.lane l) ∧
      (∀ i, t.program.read i = s.program.read i) ∧ (∀ h i, t.heapRead h i = s.heapRead h i) ∧
      { t with lanes := s.lanes, out := s.out } = s) ∧
  (∀ s : State, s.me.status = .running → s.me.stack = [] → FaultsWith (exec .print s) s .stackUnderflow 14) ∧
  (∀ s : State, s.me.status = .running →
    WritesLane (exec .halt s) s { s.me with status := .halted, ip := s.me.ip + 1 }) ∧
  encode .print = [14] ∧ encode .halt = [16]

/-! ### Lane instructions (46_lane.md) -/

/-- R135: THREAD_ID pushes the lane identity; on a full stack, StackOverflow. In mode SEQ it is no legal opcode
(R94). -/
def Obligations.ThreadIdPushesIdentity : Prop :=
  (∀ s : State, s.me.status = .running → s.me.stack.length < s.launch.stackCap.toNat →
    WritesLane (exec .threadId s) s { s.me with stack := s.me.stack ++ [s.me.laneId], ip := s.me.ip + 1 }) ∧
  (∀ s : State, s.me.status = .running → s.launch.stackCap.toNat ≤ s.me.stack.length →
    FaultsWith (exec .threadId s) s .stackOverflow 26) ∧
  encode .threadId = [26] ∧ opcodeLegal .seq 26 = false ∧ opcodeLegal .lane 26 = true

/-- R136: the top cell, an index, becomes the word at that index of the selected heap, where no other lane of the
launch wrote that word; the selector is checked before the index. The access is recorded for the race check (R80). -/
def Obligations.ParallelLoadReadsSelectedHeap : Prop :=
  (∀ (s : State) (rest : List Word) (selector index v : Word) (h k : Nat), s.me.status = .running →
    s.me.stack = rest ++ [index] → selector.toInt = h → h < s.cfg.numHeaps → index.toInt = k → k < s.heapCap h →
    (s.heapRead h k = some v →
      (∀ a ∈ s.accesses, a.lane ≠ s.cur → a.heap = h → a.index = k → a.write = false) →
      ∃ t, exec (.parallelGloadIndexed selector) s = .next t ∧
        t.me = { s.me with stack := rest ++ [v], ip := s.me.ip + 2 } ∧ (∀ l, l ≠ s.cur → t.lane l = s.lane l) ∧
        (∀ i, t.program.read i = s.program.read i) ∧ (∀ a i, t.heapRead a i = s.heapRead a i) ∧
        t.accesses = ⟨s.cur, h, k, false, some v, v⟩ :: s.accesses ∧
        { t with lanes := s.lanes, accesses := s.accesses } = s) ∧
    (s.heapRead h k = none → exec (.parallelGloadIndexed selector) s = .fault .heapWordNoValue)) ∧
  (∀ (s : State) (rest : List Word) (selector index : Word) (h : Nat), s.me.status = .running →
    s.me.stack = rest ++ [index] → selector.toInt = h → h < s.cfg.numHeaps →
    ¬ (0 ≤ index.toInt ∧ index.toInt < s.heapCap h) →
    FaultsWith (exec (.parallelGloadIndexed selector) s) s .heapIndexOutOfRange 27) ∧
  (∀ (s : State) (selector : Word), s.me.status = .running → s.me.stack ≠ [] →
    ¬ (0 ≤ selector.toInt ∧ selector.toInt < s.cfg.numHeaps) →
    FaultsWith (exec (.parallelGloadIndexed selector) s) s .heapSelectorOutOfRange 27) ∧
  (∀ (s : State) (selector : Word), s.me.status = .running → s.me.stack = [] →
    FaultsWith (exec (.parallelGloadIndexed selector) s) s .stackUnderflow 27)

/-- R137: the value on top is stored at the index below it, in the selected heap, where no other lane of the launch
accessed that word; no other heap word changes; the selector is checked before the index. -/
def Obligations.ParallelStoreWritesSelectedHeap : Prop :=
  (∀ (s : State) (rest : List Word) (selector index v : Word) (h k : Nat), s.me.status = .running →
    s.me.stack = rest ++ [index, v] → selector.toInt = h → h < s.cfg.numHeaps → s.heaps.length = s.cfg.numHeaps →
    index.toInt = k → k < s.heapCap h → (∀ a ∈ s.accesses, a.lane ≠ s.cur → ¬ (a.heap = h ∧ a.index = k)) →
    ∃ t, exec (.parallelGstoreIndexed selector) s = .next t ∧
      t.me = { s.me with stack := rest, ip := s.me.ip + 2 } ∧ (∀ l, l ≠ s.cur → t.lane l = s.lane l) ∧
      (∀ i, t.program.read i = s.program.read i) ∧ t.heapRead h k = some v ∧
      (∀ a i, (a, i) ≠ (h, k) → t.heapRead a i = s.heapRead a i) ∧
      t.accesses = ⟨s.cur, h, k, true, s.heapRead h k, v⟩ :: s.accesses ∧
      { t with lanes := s.lanes, heaps := s.heaps, accesses := s.accesses } = s) ∧
  (∀ (s : State) (rest : List Word) (selector index v : Word) (h : Nat), s.me.status = .running →
    s.me.stack = rest ++ [index, v] → selector.toInt = h → h < s.cfg.numHeaps →
    ¬ (0 ≤ index.toInt ∧ index.toInt < s.heapCap h) →
    FaultsWith (exec (.parallelGstoreIndexed selector) s) s .heapIndexOutOfRange 28) ∧
  (∀ (s : State) (selector : Word), s.me.status = .running → 2 ≤ s.me.stack.length →
    ¬ (0 ≤ selector.toInt ∧ selector.toInt < s.cfg.numHeaps) →
    FaultsWith (exec (.parallelGstoreIndexed selector) s) s .heapSelectorOutOfRange 28) ∧
  (∀ (s : State) (selector : Word), s.me.status = .running → s.me.stack.length < 2 →
    FaultsWith (exec (.parallelGstoreIndexed selector) s) s .stackUnderflow 28)

/-- R73, R79, R80: a lane's access to a word that another lane of the launch accessed, one of the two a write, is
recorded as a race; the lane still completes, and the word read, or left in the heap, is one of the words put there.
Which one is a free value (DESIGN CHOICE, log 9). -/
def Obligations.ConflictingAccessIsARace : Prop :=
  (∀ (s : State) (rest : List Word) (selector index v : Word) (h k : Nat) (other : Access), s.me.status = .running →
    s.me.stack = rest ++ [index] → selector.toInt = h → h < s.cfg.numHeaps → index.toInt = k → k < s.heapCap h →
    s.heapRead h k = some v → other ∈ s.accesses → other.lane ≠ s.cur → other.heap = h → other.index = k →
    other.write = true →
    ∃ t w, exec (.parallelGloadIndexed selector) s = .next t ∧ t.race = true ∧ w ∈ v :: s.putWords h k ∧
      t.me = { s.me with stack := rest ++ [w], ip := s.me.ip + 2 } ∧ ∀ a i, t.heapRead a i = s.heapRead a i) ∧
  (∀ (s : State) (rest : List Word) (selector index v : Word) (h k : Nat) (other : Access), s.me.status = .running →
    s.me.stack = rest ++ [index, v] → selector.toInt = h → h < s.cfg.numHeaps → s.heaps.length = s.cfg.numHeaps →
    index.toInt = k → k < s.heapCap h →
    other ∈ s.accesses → other.lane ≠ s.cur → other.heap = h → other.index = k →
    ∃ t w, exec (.parallelGstoreIndexed selector) s = .next t ∧ t.race = true ∧
      w ∈ v :: ((s.heapRead h k).toList ++ s.putWords h k) ∧
      t.me = { s.me with stack := rest, ip := s.me.ip + 2 } ∧ t.heapRead h k = some w ∧
      ∀ a i, (a, i) ≠ (h, k) → t.heapRead a i = s.heapRead a i)

/-! ### Encoding and the step of an instance (30_encoding.md) -/

/-- R98, R101: a list of words decodes to `i` and `rest` just when it is the encoding of `i` followed by `rest`. No
operand bit is dropped, and no word outside R92 is an instruction. -/
def Obligations.DecodeInvertsEncode : Prop :=
  ∀ (ws rest : List Word) (i : Instr), decode ws = .ok (i, rest) ↔ ws = encode i ++ rest

/-- R85, R89, R102: the listing of an assembled program from its start is the program, each instruction at the sum of
the lengths before it. -/
def Obligations.ListingOfAssembledProgram : Prop :=
  ∀ (p : List Instr) (start fuel : Nat) (rest : List Word), p.length ≤ fuel →
    disassemble p.length start (assemble p ++ rest) = placed start p ∧
    disassemble fuel start (assemble p) = placed start p

/-- R92, R103: words written out from the opcode map are the instructions they stand for. -/
def Obligations.SpecWordsDecode : Prop :=
  decode [0x0000000A, 0xFFFFFFFD] = .ok (.load (-3), []) ∧
  decode [0x00000011, 0x00000006, 0x00000002] = .ok (.call 6 2, []) ∧
  decode [0x0000001C, 0x00000002, 0x00000010] = .ok (.parallelGstoreIndexed 2, [0x00000010]) ∧
  disassemble 8 0 [10, -3, 9, 2, 3, 18, 9, 128, 17, 0, 1, 14, 16] =
    [(0, .load (-3)), (2, .iconst 2), (4, .imul), (5, .ret), (6, .iconst 128), (8, .call 0 1), (11, .print), (12, .halt)]

/-- R94, R95: the opcodes legal in SEQ are 1 to 25, those legal in LANE 1 to 10, 12, 14 to 23 and 26 to 28. -/
def Obligations.OpcodesLegalByMode : Prop :=
  ∀ op : Word,
    (opcodeLegal .seq op = true ↔ 1 ≤ op.toNat ∧ op.toNat ≤ 25) ∧
    (opcodeLegal .lane op = true ↔
      1 ≤ op.toNat ∧ op.toNat ≤ 10 ∨ op.toNat = 12 ∨ 14 ≤ op.toNat ∧ op.toNat ≤ 23 ∨ 26 ≤ op.toNat ∧ op.toNat ≤ 28)

/-- R88: when the words at a running instance's ip are those of an instruction its mode allows, and the port has room,
the block's step is `exec` of that instruction, with the agenda moved on, the slot chosen, and, when the instance
traces, its TRACE record emitted first (10_state.md R56). Whose turn it is with an empty agenda is the model's choice
(log 6). -/
def Obligations.StepRunsDecodedInstruction : Prop :=
  ∀ (s : State) (l a : Nat) (i : Instr), NextLane s l → (s.lane l).ip.toInt = a → s.holdsAt a i →
    i.legalIn s.launch.mode = true → s.out.length + recordsOf i (s.lane l) ≤ s.cfg.outDepth →
    step s = exec i { s.choose l with
      out := s.out ++ if (s.lane l).trace then
        [.trace (s.lane l).laneId (s.lane l).ip i.opcode i.operands (BitVec.ofInt 32 (s.lane l).sp) (s.lane l).stack]
        else [] }

/-- R58: where the port has no room for every record the step emits, the instance holds: nothing changes but whose turn
it is. -/
def Obligations.FullPortHoldsTheStep : Prop :=
  ∀ (s : State) (l a : Nat) (i : Instr), NextLane s l → (s.lane l).ip.toInt = a → s.holdsAt a i →
    i.legalIn s.launch.mode = true → s.cfg.outDepth < s.out.length + recordsOf i (s.lane l) →
    step s = .next (s.choose l)

/-- R91, R94, R95, R145: the decode-stage faults, in order: the opcode fetch outside the program (FAULT_WORD 0), an
opcode word the mode does not allow, an operand fetch outside the program. None emits a TRACE record. -/
def Obligations.DecodeStageFaults : Prop :=
  (∀ (s : State) (l : Nat), NextLane s l →
    ¬ (0 ≤ (s.lane l).ip.toInt ∧ (s.lane l).ip.toInt < s.launch.progLen.toNat) →
    FaultsWith (step s) (s.choose l) .ipOutOfRange 0) ∧
  (∀ (s : State) (l a : Nat) (op : Word), NextLane s l → (s.lane l).ip.toInt = a → a < s.launch.progLen.toNat →
    s.program.read a = some op → opcodeLegal s.launch.mode op = false →
    FaultsWith (step s) (s.choose l) .unknownOpcode op) ∧
  (∀ (s : State) (l a k : Nat) (op : Word), NextLane s l → (s.lane l).ip.toInt = a → a < s.launch.progLen.toNat →
    s.program.read a = some op → opcodeLegal s.launch.mode op = true → operandCount op = some k →
    s.launch.progLen.toNat ≤ a + k →
    (∀ j, a < j → j < s.launch.progLen.toNat → (s.program.read j).isSome = true) →
    FaultsWith (step s) (s.choose l) .ipOutOfRange op)

/-! ### Faults (60_exceptions.md) -/

/-- R142, R143: whatever instruction faults, the instance keeps its ip, stack, fp and depth, its record gets a code,
the address and the opcode word, and no other part of the state changes. -/
def Obligations.FaultsArePrecise : Prop :=
  ∀ (i : Instr) (s t : State), s.me.status = .running → exec i s = .next t → t.me.status = .faulted →
    ∃ c, c ≠ FaultCode.none ∧ FaultsWith (exec i s) s c i.opcode

/-- R29, R144, R164: during a launch no step changes a slot that has HALTED or FAULTED; only a reset or a new launch
does. -/
def Obligations.FinishedLanesStay : Prop :=
  ∀ (s t : State) (l : Nat), s.runState = .running → s.agenda.head? ≠ some .reset → step s = .next t →
    (s.lane l).status = .halted ∨ (s.lane l).status = .faulted → t.lane l = s.lane l

/-- R17, R166: a lane's step changes no other lane, and nothing of the program, the launch, the parameters, the host's
registers or what the host accepted. That it reads no other lane stands in `LaneStepReadsNoOtherLane`. -/
def Obligations.LanesArePrivate : Prop :=
  ∀ (s t : State) (l k : Nat), NextLane s l → step s = .next t → k ≠ l →
    t.lane k = s.lane k ∧ t.program = s.program ∧ t.launch = s.launch ∧ t.cfg = s.cfg ∧ t.runState = s.runState ∧
      t.anyFault = s.anyFault ∧ t.writeDropped = s.writeDropped ∧ t.launchErr = s.launchErr ∧
      t.ctrlMode = s.ctrlMode ∧ t.ctrlTrace = s.ctrlTrace ∧ t.entry = s.entry ∧ t.progLen = s.progLen ∧
      t.stackCap = s.stackCap ∧ t.laneCount = s.laneCount ∧ t.groupSize = s.groupSize ∧ t.heapCaps = s.heapCaps ∧
      t.laneSel = s.laneSel ∧ t.cycles = s.cycles ∧ t.accepted = s.accepted

/-- R17, R166: a lane's step reads no other lane's private state: with any other lanes in the other slots it has the same
effect on its own slot and on everything else, and leaves those lanes alone; or it stops with the same reason. -/
def Obligations.LaneStepReadsNoOtherLane : Prop :=
  ∀ (s : State) (l : Nat) (others : List Lane), others.length = s.lanes.length → others[l]? = s.lanes[l]? →
    (∀ t, stepLane l s = .next t →
      stepLane l { s with lanes := others } = .next { t with lanes := others.set l (t.lane l) }) ∧
    (∀ r, stepLane l s = .fault r → stepLane l { s with lanes := others } = .fault r)

/-! ### The dispatcher (60_exceptions.md) -/

/-- R156, R167: in mode LANE the group size G is GROUP_SIZE, or GROUP_POLICY where that is 0, and LANE_COUNT positions
are in use; lane position l is in group l / G and in no other, and the groups of the positions in use are the
ceil(LANE_COUNT / G) first. -/
def Obligations.GroupsPartitionLanes : Prop :=
  (∀ s : State, s.launch.mode = .lane →
    s.groupLen = (if s.launch.groupSize = 0 then s.cfg.groupPolicy else s.launch.groupSize.toNat) ∧
    s.launch.lanesUsed = s.launch.laneCount.toNat) ∧
  (∀ (s : State) (l g : Nat), 0 < s.groupLen →
    (l ∈ s.groupPositions g ↔ l / s.groupLen = g) ∧ (l < s.launch.lanesUsed → l / s.groupLen < s.groupCount) ∧
    (g < s.groupCount → ∃ k, k ∈ s.groupPositions g ∧ k < s.launch.lanesUsed))

/-- R157, R158: an issue of group g at an ip steps just the running lanes of the group at that ip which the output port
does not hold; no masked position, no finished lane. That an issue becomes lane events is the model's choice (log 7). -/
def Obligations.IssueStepsTheMask : Prop :=
  ∀ (s : State) (g : Nat) (ip : Word) (rest : List Event), 0 < s.groupLen → s.agenda = .issue g ip :: rest →
    s.completionDue = false →
    ∃ mask : List Nat, step s = .next { s with agenda := mask.map Event.lane ++ rest } ∧ mask.Nodup ∧
      ∀ l, l ∈ mask ↔ l / s.groupLen = g ∧ l < s.launch.lanesUsed ∧ (s.lane l).status = .running ∧
        (s.lane l).ip = ip ∧ s.held l = false

/-- R162: GROUP_SIZE and GROUP_POLICY change no lane's step. -/
def Obligations.GroupSizeChangesNoStep : Prop :=
  ∀ (s t : State) (l : Nat) (size latched : Word) (policy : Nat), stepLane l s = .next t →
    stepLane l (s.regrouped size latched policy) = .next (t.regrouped size latched policy)

/-- R160: in mode LANE, two steps of different lanes that make no conflicting heap access and emit no record commute:
either order leaves every lane and every heap word the same. -/
def Obligations.LaneStepsCommute : Prop :=
  ∀ (s ta tab tb tba : State) (a b : Nat), a ≠ b → s.launch.mode = .lane →
    stepLane a s = .next ta → stepLane b ta = .next tab → stepLane b s = .next tb → stepLane a tb = .next tba →
    tab.race = false → tba.race = false → tab.out = s.out → tba.out = s.out →
    (∀ l, tab.lane l = tba.lane l) ∧ ∀ h i, tab.heapRead h i = tba.heapRead h i

/-- The model's own choice where the agenda names no lane (log 6; R161 asks only that no active lane is starved): the
lane picked is running, and it is the first running one in the turn order that starts after the lane that stepped last,
so a running lane waits for at most the lanes before it. -/
def Obligations.EmptyAgendaTakesTurns : Prop :=
  ∀ (s : State) (k : Nat), s.cur < s.lanes.length → (s.lane k).status = .running →
    ∃ l, s.pick = some l ∧ (s.lane l).status = .running ∧
      (l + s.lanes.length - (s.cur + 1)) % s.lanes.length ≤ (k + s.lanes.length - (s.cur + 1)) % s.lanes.length

/-- R139: for an opcode word that is legal in both modes or in neither, an instance takes the same step in SEQ and in
LANE: the same next state but for the mode, or the same stop. -/
def Obligations.SeqAndLaneStepAlike : Prop :=
  ∀ s : State, (∀ op, fetchWord s s.me.ip.toInt = .got op → opcodeLegal .seq op = opcodeLegal .lane op) →
    (∀ t, stepInstance (s.inMode .seq) = .next t → stepInstance (s.inMode .lane) = .next (t.inMode .lane)) ∧
    (∀ r, stepInstance (s.inMode .seq) = .fault r ↔ stepInstance (s.inMode .lane) = .fault r)

/-- R58, R168: tracing changes no result: where the port does not hold the step, the step without trace flags and TRACE
records is the step with them, less the TRACE records. -/
def Obligations.TracingChangesNoResult : Prop :=
  ∀ s : State, s.held s.cur = false →
    (∀ t, stepInstance s = .next t → stepInstance s.untraced = .next t.untraced) ∧
    (∀ r, stepInstance s = .fault r → stepInstance s.untraced = .fault r)

/-! ### The host's side (10_state.md, 70_reset_and_hazards.md) -/

/-- R54: what reset leaves, for every parameter, read as the host reads it and slot by slot. -/
def Obligations.ResetLeaves : Prop :=
  ∀ p : Params, let s := State.resetWith p
    s.ctrlMode = .seq ∧ s.ctrlTrace = false ∧ s.readReg 0x000 = .value 0 ∧ s.runState = .idle ∧ s.anyFault = false ∧
    s.writeDropped = false ∧ s.launchErr = .none ∧ s.entry = 0 ∧ s.progLen = 0 ∧ s.stackCap = 0 ∧ s.laneCount = 0 ∧
    s.groupSize = 0 ∧ s.heapCaps = List.replicate p.numHeaps 0 ∧ s.laneSel = 0 ∧ s.cycles = 0 ∧ s.cfg = p ∧
    (∀ l, (s.lane l).status = .inactive ∧ (s.lane l).ip = 0 ∧ (s.lane l).sp = -1 ∧ (s.lane l).fp = 0 ∧
      (s.lane l).depth = 0 ∧ (s.lane l).trace = false ∧ (s.lane l).faultCode = .none ∧ (s.lane l).faultIp = 0 ∧
      (s.lane l).faultWord = 0) ∧
    (∀ i, s.program.read i = none) ∧ (∀ h i, s.heapRead h i = none) ∧ s.out = []

/-- R172, R173: a reset leaves the reset state of the state's own parameters, whatever ran. That reset is one event, and
that the agenda, the accepted records and the draw counter stay, is the model's choice (log 14). -/
def Obligations.ResetEventLeavesResetState : Prop :=
  ∀ (s : State) (rest : List Event), s.agenda = .reset :: rest → s.completionDue = false →
    ∃ t, step s = .next t ∧ t.agenda = rest ∧ t.accepted = s.accepted ∧ t.draws = s.draws ∧
      { t with agenda := [], accepted := [], draws := 0 } = State.resetWith s.cfg

/-- R37, R58, R70, R49: a host write, a host read and an acceptance at the head of the agenda take effect in that step,
unless completion is due (log 8). An aligned four-byte access in the register window is `writeReg` or `readReg` of the
word, its bytes in HOST_BYTE_ORDER (little or big: the model's choice, log 29); an unspecified value is a free word;
outside a launch CYCLES reads as it stands. An acceptance moves the oldest record of the buffer to the accepted ones. -/
def Obligations.HostEventsTakeEffect : Prop :=
  (∀ (s : State) (rest : List Event), s.completionDue = false →
    let s1 := { s with agenda := rest }
    (∀ addr data, s.agenda = .busWrite addr data :: rest → step s = .next (s1.busWrite addr data)) ∧
    (∀ addr width, s.agenda = .busRead addr width :: rest → step s = .next (s1.busRead addr width)) ∧
    (s.agenda = .accept :: rest →
      (s.out = [] → step s = .next s1) ∧
      (∀ r tail, s.out = r :: tail → step s =
        .next { s1 with out := tail, outOld := s.outOld - 1, accepted := s.accepted ++ [r] }))) ∧
  (∀ (s : State) (addr off : Nat), locate s.cfg addr = some (.regs, off) → off % 4 = 0 →
    let onBus (w : Word) : List Byte := bytesOfWord s.cfg.hostByteOrder w
    (∀ v, s.busWrite addr (onBus v) = s.writeReg off v) ∧
    (∀ w, s.readReg off = .value w → s.busRead addr 4 = { s with busData := onBus w }) ∧
    (s.readReg off = .unspecified → ∃ w, s.busRead addr 4 = { s with busData := onBus w, draws := s.draws + 1 }) ∧
    (s.runState ≠ .running → off = 0x0A0 →
      s.busRead addr 4 = { s with busData := onBus (s.cycles.extractLsb' 0 32) }) ∧
    (s.runState ≠ .running → off = 0x0A4 →
      s.busRead addr 4 = { s with busData := onBus (s.cycles.extractLsb' 32 32) })) ∧
  (∀ (v : Word) (i : Nat), i < 4 →
    (bytesOfWord .little v)[i]? = some (v.extractLsb' (8 * i) 8) ∧
    (bytesOfWord .big v)[i]? = some (v.extractLsb' (8 * (3 - i)) 8))

/-- R40, R53: in every state, a launch's among them, STATUS reads STATE in bits 1:0, ANY_FAULT in bit 2, WRITE_DROPPED in
bit 3, LAUNCH_ERR in bits 7:4, and 0 above. -/
def Obligations.StatusRegisterShowsItsFields : Prop :=
  ∀ s : State, ∃ w, s.readReg 0x004 = .value w ∧
    w.extractLsb' 0 2 = (match s.runState with | .idle => 0 | .running => 1 | .done => 2 | .rejected => 3) ∧
    w.getLsbD 2 = s.anyFault ∧ w.getLsbD 3 = s.writeDropped ∧
    w.extractLsb' 4 4 =
      (match s.launchErr with
        | .none => 0 | .laneCount => 1 | .groupSize => 2 | .progLen => 3 | .stackCap => 4 | .heapCap => 5) ∧
    w.extractLsb' 8 24 = 0

/-- R38, R39, R40, R48: every register of the map reads its reset column after reset. CYCLES stands in
`ResetLeaves`. -/
def Obligations.RegistersReadTheirResetColumn : Prop :=
  ∀ p : Params, let s := State.resetWith p
    (∀ off ∈ [0x000, 0x004, 0x008, 0x00C, 0x010, 0x014, 0x018, 0x01C, 0x080], s.readReg off = .value 0) ∧
    s.readReg 0x020 = .value (BitVec.ofNat 32 p.numHeaps) ∧ s.readReg 0x024 = .value (BitVec.ofNat 32 p.progCap) ∧
    s.readReg 0x028 = .value (BitVec.ofNat 32 p.maxStackCap) ∧
    s.readReg 0x02C = .value (BitVec.ofNat 32 p.maxHeapWords) ∧
    s.readReg 0x030 = .value (BitVec.ofNat 32 p.maxLanes) ∧
    s.readReg 0x034 = .value (BitVec.ofNat 32 p.maxGroupSize) ∧
    s.readReg 0x038 = .value (BitVec.ofNat 32 p.outDepth) ∧
    (∀ h, h < p.numHeaps → p.numHeaps ≤ 16 → s.readReg (0x040 + 4 * h) = .value 0) ∧
    (0 < p.maxLanes →
      (∀ off ∈ [0x084, 0x088, 0x090, 0x094, 0x098, 0x09C], s.readReg off = .value 0) ∧
      s.readReg 0x08C = .value 0xFFFFFFFF)

/-- R41 to R46, R48: outside a launch a configuration register reads what the host wrote, CTRL its two fields with
START 0; LANE_SEL takes a write at all times (R52). That
LANE_SEL reads back even when it names no slot is DEDUCED (log 12). -/
def Obligations.ConfigRegistersReadBack : Prop :=
  (∀ (s : State) (v : Word), s.runState ≠ .running →
    (∀ off ∈ [0x008, 0x00C, 0x010, 0x014, 0x018], (s.writeReg off v).readReg off = .value v) ∧
    (∀ h, h < s.cfg.numHeaps → s.cfg.numHeaps ≤ 16 → h < s.heapCaps.length →
      (s.writeReg (0x040 + 4 * h) v).readReg (0x040 + 4 * h) = .value v) ∧
    (s.writeReg 0x080 v).readReg 0x080 = .value v ∧
    (v.getLsbD 0 = false → (s.writeReg 0x000 v).readReg 0x000 = .value (v &&& 6))) ∧
  (∀ (s : State) (v : Word), s.writeReg 0x080 v = { s with laneSel := v })

/-- R48, R29, R140: outside a launch the lane result registers show the selected slot, LANE_STATUS with the codes of R29
and R140 and its other bits 0; where LANE_SEL names no slot they read 0; during a launch they are unspecified. -/
def Obligations.LaneRegistersShowTheSlot : Prop :=
  (∀ s : State, s.runState ≠ .running → s.cfg.numHeaps ≤ 16 → s.laneSel.toNat < s.cfg.maxLanes →
    let L := s.lane s.laneSel.toNat
    s.readReg 0x084 = .value L.statusWord ∧ s.readReg 0x088 = .value L.ip ∧
    s.readReg 0x08C = .value (BitVec.ofInt 32 ((L.stack.length : Int) - 1)) ∧ s.readReg 0x090 = .value L.fp ∧
    s.readReg 0x094 = .value L.depth ∧ s.readReg 0x098 = .value L.faultIp ∧ s.readReg 0x09C = .value L.faultWord ∧
    (∀ i, i < s.cfg.maxStackCap → s.readReg (0x1000 + 4 * i) =
      match L.stack[i]? with
      | some v => .value v
      | none => .unspecified)) ∧
  (∀ L : Lane,
    L.statusWord.extractLsb' 0 2 =
      (match L.status with | .inactive => 0 | .running => 1 | .halted => 2 | .faulted => 3) ∧
    L.statusWord.extractLsb' 2 6 = 0 ∧
    L.statusWord.extractLsb' 8 4 =
      (match L.faultCode with
        | .none => 0 | .unknownOpcode => 1 | .stackUnderflow => 2 | .stackOverflow => 3
        | .stackIndexOutOfRange => 4 | .heapIndexOutOfRange => 5 | .heapSelectorOutOfRange => 6
        | .divisionByZero => 7 | .malformedCallFrame => 8 | .ipOutOfRange => 9) ∧
    L.statusWord.extractLsb' 12 20 = 0) ∧
  (∀ s : State, s.runState ≠ .running → s.cfg.numHeaps ≤ 16 → s.cfg.maxLanes ≤ s.laneSel.toNat →
    (∀ off ∈ [0x084, 0x088, 0x08C, 0x090, 0x094, 0x098, 0x09C], s.readReg off = .value 0) ∧
    (∀ i, i < s.cfg.maxStackCap → s.readReg (0x1000 + 4 * i) = .value 0)) ∧
  (∀ s : State, s.runState = .running → s.cfg.numHeaps ≤ 16 →
    (∀ off ∈ [0x084, 0x088, 0x08C, 0x090, 0x094, 0x098, 0x09C], s.readReg off = .unspecified) ∧
    (∀ i, i < s.cfg.maxStackCap → s.readReg (0x1000 + 4 * i) = .unspecified))

/-- R50, R37, R38: a register access that is not an aligned 32-bit access has no effect and reads 0; a reserved offset
reads 0 and ignores writes; the read-only registers, which are STATUS, the capabilities, the lane result registers,
CYCLES and LANE_STACK, ignore writes. -/
def Obligations.ReservedAccessesDoNothing : Prop :=
  (∀ (s : State) (addr off width : Nat) (data : List Byte), locate s.cfg addr = some (.regs, off) →
    (off % 4 ≠ 0 ∨ data.length ≠ 4 → s.busWrite addr data = s) ∧
    (off % 4 ≠ 0 ∨ width ≠ 4 → s.busRead addr width = { s with busData := List.replicate width 0 })) ∧
  (∀ (s : State) (off : Nat) (v : Word), s.cfg.numHeaps ≤ 16 → off % 4 = 0 →
    off = 0x03C ∨ 0x040 + 4 * s.cfg.numHeaps ≤ off ∧ off < 0x080 ∨ 0x0A8 ≤ off ∧ off < 0x1000 ∨
      0x1000 + 4 * s.cfg.maxStackCap ≤ off →
    s.readReg off = .value 0 ∧ s.writeReg off v = s) ∧
  (∀ (s : State) (v : Word), s.cfg.numHeaps ≤ 16 →
    (∀ off ∈ [0x004, 0x020, 0x024, 0x028, 0x02C, 0x030, 0x034, 0x038, 0x084, 0x088, 0x08C, 0x090, 0x094, 0x098, 0x09C,
        0x0A0, 0x0A4], s.writeReg off v = s) ∧
    (∀ i, i < s.cfg.maxStackCap → s.writeReg (0x1000 + 4 * i) v = s))

/-- R51, R53, R70: the register file lies at BLOCK_BASE, program word i at PROG_WINDOW_BASE + 4i and HEAP[h][i] at
HEAP_WINDOW_BASE[h] + 4i, save where windows overlap: there the first of them has the address (log 13). Outside a launch
the four bytes of a word in HOST_BYTE_ORDER (little or big: the model's choice, log 29), written at an aligned address of
the program window or of a heap window, make that word of the space the word, leave every other word and everything else,
and are the bytes read there. -/
def Obligations.WindowsReadBack : Prop :=
  (∀ (p : Params) (addr i : Nat),
    let inside (base size : Nat) : Prop := base ≤ addr ∧ addr < base + size
    let inRegs : Prop := inside p.blockBase (0x1000 + 4 * p.maxStackCap)
    let inProgram : Prop := inside p.progWindowBase (4 * p.progCap)
    (inRegs → locate p addr = some (.regs, addr - p.blockBase)) ∧
    (¬ inRegs → addr = p.progWindowBase + 4 * i → i < p.progCap → locate p addr = some (.program, 4 * i)) ∧
    (¬ inRegs → ¬ inProgram → ∀ h, h < p.numHeaps →
      (∀ k, k < h → ¬ inside (p.heapWindowBase.getD k 0) (4 * p.maxHeapWords)) →
      addr = p.heapWindowBase.getD h 0 + 4 * i → i < p.maxHeapWords → locate p addr = some (.heap h, 4 * i))) ∧
  (∀ (s : State) (addr off : Nat) (w : Window) (v : Word) (data : List Byte), s.runState ≠ .running →
    s.heaps.length = s.cfg.numHeaps → locate s.cfg addr = some (w, off) → w ≠ .regs → off % 4 = 0 → data.length = 4 →
    (∀ i, i < 4 → data[i]? =
      some (v.extractLsb' (match s.cfg.hostByteOrder with | .little => 8 * i | .big => 8 * (3 - i)) 8)) →
    let t := s.busWrite addr data
    (t.busRead addr 4).busData = data ∧ { t with program := s.program, heaps := s.heaps } = s ∧
    (∀ i, t.program.read i = if w = .program ∧ i = off / 4 then some v else s.program.read i) ∧
    (∀ h i, t.heapRead h i = if w = .heap h ∧ i = off / 4 then some v else s.heapRead h i))

/-- R47: HEAP_CMD ZERO or IOTA gives heap SEL the words 0 or i below min(HEAP_CAP[SEL], MAX_HEAP_WORDS) and leaves every
other word; OP 0 and 3, and a SEL that names no heap, do nothing. -/
def Obligations.HeapCommandFills : Prop :=
  ∀ (s : State) (v : Word), s.runState ≠ .running → s.heaps.length = s.cfg.numHeaps →
    let sel := (v.extractLsb' 0 4).toNat
    let op := (v.extractLsb' 4 2).toNat
    let t := s.writeReg 0x01C v
    { t with heaps := s.heaps } = s ∧
    (sel < s.cfg.numHeaps → (op = 1 ∨ op = 2) → ∀ h i,
      t.heapRead h i =
        if h = sel ∧ i < (s.heapCaps.getD sel 0).toNat ∧ i < s.cfg.maxHeapWords then
          some (if op = 1 then 0 else BitVec.ofNat 32 i)
        else s.heapRead h i) ∧
    (¬ (sel < s.cfg.numHeaps ∧ (op = 1 ∨ op = 2)) → t = s)

/-- R52: during a launch a write to a configuration register, the program window or a heap window is dropped and sets
WRITE_DROPPED, and does nothing else; a write to LANE_SEL is accepted. -/
def Obligations.WritesAreDroppedWhileRunning : Prop :=
  ∀ (s : State) (v : Word), s.runState = .running → s.cfg.numHeaps ≤ 16 →
    (∀ off ∈ [0x000, 0x008, 0x00C, 0x010, 0x014, 0x018, 0x01C], s.writeReg off v = { s with writeDropped := true }) ∧
    (∀ h, h < s.cfg.numHeaps → s.writeReg (0x040 + 4 * h) v = { s with writeDropped := true }) ∧
    s.writeReg 0x080 v = { s with laneSel := v } ∧
    (∀ (addr off : Nat) (w : Window) (data : List Byte), locate s.cfg addr = some (w, off) → w ≠ .regs →
      off % 4 = 0 → data.length = 4 → s.busWrite addr data = { s with writeDropped := true })

/-- R174, R175, R178: a START outside a launch is refused by the first check of R175 that fails, in its order; then STATE
is REJECTED with that LAUNCH_ERR, and no slot, program or heap word, record, CYCLES or WRITE_DROPPED changes. -/
def Obligations.LaunchChecksInOrder : Prop :=
  ∀ (s : State) (v : Word), s.runState ≠ .running → v.getLsbD 0 = true →
    let m : Mode := if v.getLsbD 1 then .lane else .seq
    let badLanes := m = .lane ∧ (s.laneCount = 0 ∨ s.cfg.maxLanes < s.laneCount.toNat)
    let badGroup := m = .lane ∧ s.cfg.maxGroupSize < s.groupSize.toNat
    let badProg := s.cfg.progCap < s.progLen.toNat
    let badStack := s.cfg.maxStackCap < s.stackCap.toNat
    let badHeap := ∃ h, (m = .seq ∧ h = 0 ∨ m = .lane ∧ h < s.cfg.numHeaps) ∧
      s.cfg.maxHeapWords < (s.heapCaps.getD h 0).toNat
    let refused (e : LaunchErr) : State :=
      { s with ctrlMode := m, ctrlTrace := v.getLsbD 2, runState := .rejected, launchErr := e, anyFault := false }
    let t := s.writeReg 0x000 v
    (badLanes → t = refused .laneCount) ∧
    (¬ badLanes → badGroup → t = refused .groupSize) ∧
    (¬ badLanes → ¬ badGroup → badProg → t = refused .progLen) ∧
    (¬ badLanes → ¬ badGroup → ¬ badProg → badStack → t = refused .stackCap) ∧
    (¬ badLanes → ¬ badGroup → ¬ badProg → ¬ badStack → badHeap → t = refused .heapCap) ∧
    (¬ badLanes → ¬ badGroup → ¬ badProg → ¬ badStack → ¬ badHeap → t.runState = .running)

/-- R176, R155, R167: an accepted START makes STATE RUNNING with clean STATUS and CYCLES 0, latches the configuration,
gives each slot of the mode a fresh instance with its slot number as identity, makes every other slot INACTIVE, and
leaves the program, the heaps and the output buffer. -/
def Obligations.AcceptedLaunchInitialises : Prop :=
  ∀ (s : State) (v : Word), s.runState ≠ .running → v.getLsbD 0 = true →
    let m : Mode := if v.getLsbD 1 then .lane else .seq
    let t := s.writeReg 0x000 v
    t.runState = .running →
    t.anyFault = false ∧ t.writeDropped = false ∧ t.launchErr = .none ∧ t.cycles = 0 ∧
    t.launch = ⟨m, v.getLsbD 2, s.entry, s.progLen, s.stackCap, s.laneCount, s.groupSize, s.heapCaps⟩ ∧
    (∀ l, l < (if m = .lane then s.laneCount.toNat else 1) → t.lane l =
      { status := .running, ip := s.entry, stack := [], fp := 0, depth := 0, trace := v.getLsbD 2,
        laneId := BitVec.ofNat 32 l, faultCode := .none, faultIp := 0, faultWord := 0 }) ∧
    (∀ l, (if m = .lane then s.laneCount.toNat else 1) ≤ l → (t.lane l).status = .inactive ∧ (t.lane l).ip = 0 ∧
      (t.lane l).sp = -1 ∧ (t.lane l).fp = 0 ∧ (t.lane l).depth = 0 ∧ (t.lane l).faultCode = .none ∧
      (t.lane l).faultIp = 0 ∧ (t.lane l).faultWord = 0) ∧
    t.program = s.program ∧ t.heaps = s.heaps ∧ t.out = s.out

/-- R163, R177: when no slot runs and the buffer holds no record of the launch, the next step makes STATE DONE, with
ANY_FAULT set just when some slot is FAULTED, and leaves the slots, the heaps and the port. That it is the very
next step, before any event, is the model's choice (DEDUCED, log 8). -/
def Obligations.CompletionIsTheNextStep : Prop :=
  ∀ s : State, s.runState = .running → (∀ l, (s.lane l).status ≠ .running) → s.out.length ≤ s.outOld →
    ∃ t, step s = .next t ∧ t.runState = .done ∧
      (t.anyFault = true ↔ ∃ l, (s.lane l).status = .faulted) ∧
      { t with runState := s.runState, anyFault := s.anyFault, cycles := s.cycles, draws := s.draws } = s

/-- R178: STATE changes only by reset, by a START written outside a launch, and by completion. -/
def Obligations.OnlyTheseEventsChangeState : Prop :=
  ∀ s t : State, step s = .next t → t.runState ≠ s.runState →
    (t.runState = .idle ∧ ∃ rest, s.agenda = .reset :: rest) ∨
    (s.runState ≠ .running ∧ (t.runState = .rejected ∨ t.runState = .running) ∧
      ∃ addr data rest, s.agenda = .busWrite addr data :: rest ∧ locate s.cfg addr = some (.regs, 0) ∧
        data.length = 4 ∧ (wordOfBytes s.cfg.hostByteOrder data).getLsbD 0 = true) ∨
    (s.runState = .running ∧ t.runState = .done ∧ (∀ l, (s.lane l).status ≠ .running) ∧ s.out.length ≤ s.outOld)

/-- R61, R83, R52, R27: while STATE is RUNNING no step but a reset changes the program, the latched configuration, the
configuration registers or the parameters. -/
def Obligations.LaunchInputsAreFixed : Prop :=
  ∀ s t : State, s.runState = .running → s.agenda.head? ≠ some .reset → step s = .next t →
    t.program = s.program ∧ t.launch = s.launch ∧ t.cfg = s.cfg ∧ t.entry = s.entry ∧ t.progLen = s.progLen ∧
    t.stackCap = s.stackCap ∧ t.laneCount = s.laneCount ∧ t.groupSize = s.groupSize ∧ t.heapCaps = s.heapCaps ∧
    t.ctrlMode = s.ctrlMode ∧ t.ctrlTrace = s.ctrlTrace

/-- R55, R58: no record is lost or reordered: but for a reset, what the host has accepted followed by what the buffer
holds only grows, at the end, by at most two records a step, and the buffer never grows past OUT_DEPTH. -/
def Obligations.NoRecordIsLost : Prop :=
  ∀ s t : State, s.agenda.head? ≠ some .reset → step s = .next t →
    (∃ new, t.accepted ++ t.out = s.accepted ++ s.out ++ new ∧ new.length ≤ 2) ∧
    t.out.length ≤ max s.out.length s.cfg.outDepth

/-! ### Invariants and safety -/

/-- R23, R26, R28, R30, R40, R58, R60, R155, R167, R175: the invariant of Safety.lean is kept by every step, from every
state that has it: spaces in canonical form and within their size, a latched configuration that passed every launch
check, one slot per lane position of the launch, stacks within STACK_CAP, fault records only on faulted slots, STATUS in
step with the slots, the port within OUT_DEPTH, and parameters as `Params.wf` has them (DEDUCED in part, log 4). -/
def Obligations.EveryStepKeepsTheInvariant : Prop :=
  ∀ s t : State, s.Inv → step s = .next t → t.Inv

/-- R28, R135, R157: under the invariant a slot that holds an instance has its number as identity, and that is below the
launch's number of lane positions: LANE_COUNT in mode LANE, 1 in SEQ. So THREAD_ID pushes no identity at or above
LANE_COUNT. -/
def Obligations.IdentitiesAreBelowLaneCount : Prop :=
  ∀ (s : State) (l : Nat), s.Inv → (s.lane l).status ≠ .inactive →
    (s.lane l).laneId.toNat = l ∧ (s.launch.mode = .lane → (s.lane l).laneId.toNat < s.launch.laneCount.toNat) ∧
    (s.launch.mode = .seq → (s.lane l).laneId = 0)

/-- The invariant holds right after reset, for every legal choice of parameters, the model's own among them (log 3). -/
def Obligations.ResetHasTheInvariant : Prop :=
  (∀ p : Params, p.wf = true → (State.resetWith p).Inv) ∧ State.reset.Inv

/-- R68, R180: once the host has done its duty, that every program word below PROG_LEN and every heap word below HEAP_CAP
of a heap the mode uses holds a value, no step stops (log 2). -/
def Obligations.InitialisedStepAnswersNext : Prop :=
  ∀ s : State, (s.runState = .running → s.initialised) → ∃ t, step s = .next t

/-- R68, R83: during a launch every step but a reset keeps the host's duty done. -/
def Obligations.InitialisedIsKept : Prop :=
  ∀ s t : State, s.runState = .running → s.initialised → s.agenda.head? ≠ some .reset → step s = .next t →
    t.initialised

/-- R26 derives that depth cannot overflow from `3 × depth ≤ sp + 1`. R131 does not keep that bound (log 16): a STORE may
overwrite a frame record (93 I22), and a RET through it drops more than one record's cells while depth falls by one. Here
a fresh instance with the invariant runs CALL 3 0, CALL 6 0, ICONST 3, STORE -2 (over the numArgs of the second record),
ICONST 9, and the bound holds; RET breaks it. -/
def Obligations.DepthBoundIsNotKept : Prop :=
  ∃ s s1 s2 s3 s4 s5 t : State, s.Inv ∧ s.me.status = .running ∧ s.me.ip = 0 ∧ s.me.stack = [] ∧ s.me.fp = 0 ∧
    s.me.depth = 0 ∧ exec (.call 3 0) s = .next s1 ∧ exec (.call 6 0) s1 = .next s2 ∧ exec (.iconst 3) s2 = .next s3 ∧
    exec (.store (-2)) s3 = .next s4 ∧ exec (.iconst 9) s4 = .next s5 ∧ s5.Inv ∧ s5.me.status = .running ∧
    exec .ret s5 = .next t ∧ t.me.status = .running ∧
    3 * s5.me.depth.toNat ≤ s5.me.stack.length ∧ t.me.stack.length < 3 * t.me.depth.toNat
end

