-- ==== Sys2Proof/Laws/Decode.lean ====
section
/-! SUPPORT. The opcode map read both ways. -/

namespace Sys2Proof

/-- The opcode map at the opcode word of an instruction. -/
theorem shapeOf_opcode (i : Instr) :
    ∃ sh, shapeOf i.opcode = some sh ∧ sh.count = i.operands.length ∧
      (∀ rest, sh.build (i.operands ++ rest) = some i) ∧ ∀ m, sh.legalIn m = i.legalIn m := by
  cases i <;> exact ⟨_, rfl, rfl, fun _ => rfl, fun _ => rfl⟩

theorem eq_of_toNat_eq {op : Word} {n : Nat} (h : op.toNat = n) : op = BitVec.ofNat 32 n := by
  apply BitVec.eq_of_toNat_eq
  rw [BitVec.toNat_ofNat, ← h, Nat.mod_eq_of_lt op.isLt]

/-- The only way the opcode map makes an instruction of words: they are its encoding. -/
theorem build_eq_some {op : Word} {sh : Shape} {ws : List Word} {i : Instr} (hs : shapeOf op = some sh)
    (hb : sh.build ws = some i) :
    op = i.opcode ∧ ws = i.operands ++ ws.drop sh.count ∧ sh.count = i.operands.length ∧
      ∀ m, sh.legalIn m = i.legalIn m := by
  unfold shapeOf at hs
  split at hs <;> (rename_i hop; try cases hs)
  all_goals
    rw [eq_of_toNat_eq hop]
    first
      | (cases hb; exact ⟨rfl, rfl, rfl, fun _ => rfl⟩)
      | (rcases ws with _ | ⟨a, ws⟩
         · cases hb
         · cases hb; exact ⟨rfl, rfl, rfl, fun _ => rfl⟩)
      | (rcases ws with _ | ⟨a, _ | ⟨b, ws⟩⟩
         · cases hb
         · cases hb
         · cases hb; exact ⟨rfl, rfl, rfl, fun _ => rfl⟩)

/-- Legality depends on the opcode word alone (30_encoding.md R94). -/
theorem opcodeLegal_opcode (m : Mode) (i : Instr) : opcodeLegal m i.opcode = i.legalIn m := by
  obtain ⟨sh, h, -, -, hl⟩ := shapeOf_opcode i
  simp [opcodeLegal, h, hl]

/-- Every instruction of the table is legal in some mode, and the encoding admits every operand word. -/
theorem Instr.wf_all (i : Instr) : i.wf = true := by cases i <;> rfl

end Sys2Proof
end

