-- ==== Sys2Proof/Laws/State.lean ====
section
/-! SUPPORT. What each update of the state leaves of each field, and the slot it writes. -/

namespace Sys2Proof.Machine

/-! ### Writing a slot -/

@[simp] theorem State.setLane_cfg (s : State) (l : Nat) (L : Lane) : (s.setLane l L).cfg = s.cfg := rfl
@[simp] theorem State.setLane_ctrlMode (s : State) (l : Nat) (L : Lane) : (s.setLane l L).ctrlMode = s.ctrlMode := rfl
@[simp] theorem State.setLane_ctrlTrace (s : State) (l : Nat) (L : Lane) : (s.setLane l L).ctrlTrace = s.ctrlTrace := rfl
@[simp] theorem State.setLane_runState (s : State) (l : Nat) (L : Lane) : (s.setLane l L).runState = s.runState := rfl
@[simp] theorem State.setLane_anyFault (s : State) (l : Nat) (L : Lane) : (s.setLane l L).anyFault = s.anyFault := rfl
@[simp] theorem State.setLane_writeDropped (s : State) (l : Nat) (L : Lane) : (s.setLane l L).writeDropped = s.writeDropped := rfl
@[simp] theorem State.setLane_launchErr (s : State) (l : Nat) (L : Lane) : (s.setLane l L).launchErr = s.launchErr := rfl
@[simp] theorem State.setLane_entry (s : State) (l : Nat) (L : Lane) : (s.setLane l L).entry = s.entry := rfl
@[simp] theorem State.setLane_progLen (s : State) (l : Nat) (L : Lane) : (s.setLane l L).progLen = s.progLen := rfl
@[simp] theorem State.setLane_stackCap (s : State) (l : Nat) (L : Lane) : (s.setLane l L).stackCap = s.stackCap := rfl
@[simp] theorem State.setLane_laneCount (s : State) (l : Nat) (L : Lane) : (s.setLane l L).laneCount = s.laneCount := rfl
@[simp] theorem State.setLane_groupSize (s : State) (l : Nat) (L : Lane) : (s.setLane l L).groupSize = s.groupSize := rfl
@[simp] theorem State.setLane_heapCaps (s : State) (l : Nat) (L : Lane) : (s.setLane l L).heapCaps = s.heapCaps := rfl
@[simp] theorem State.setLane_laneSel (s : State) (l : Nat) (L : Lane) : (s.setLane l L).laneSel = s.laneSel := rfl
@[simp] theorem State.setLane_cycles (s : State) (l : Nat) (L : Lane) : (s.setLane l L).cycles = s.cycles := rfl
@[simp] theorem State.setLane_launch (s : State) (l : Nat) (L : Lane) : (s.setLane l L).launch = s.launch := rfl
@[simp] theorem State.setLane_program (s : State) (l : Nat) (L : Lane) : (s.setLane l L).program = s.program := rfl
@[simp] theorem State.setLane_heaps (s : State) (l : Nat) (L : Lane) : (s.setLane l L).heaps = s.heaps := rfl
@[simp] theorem State.setLane_out (s : State) (l : Nat) (L : Lane) : (s.setLane l L).out = s.out := rfl
@[simp] theorem State.setLane_outOld (s : State) (l : Nat) (L : Lane) : (s.setLane l L).outOld = s.outOld := rfl
@[simp] theorem State.setLane_accepted (s : State) (l : Nat) (L : Lane) : (s.setLane l L).accepted = s.accepted := rfl
@[simp] theorem State.setLane_busData (s : State) (l : Nat) (L : Lane) : (s.setLane l L).busData = s.busData := rfl
@[simp] theorem State.setLane_agenda (s : State) (l : Nat) (L : Lane) : (s.setLane l L).agenda = s.agenda := rfl
@[simp] theorem State.setLane_cur (s : State) (l : Nat) (L : Lane) : (s.setLane l L).cur = s.cur := rfl
@[simp] theorem State.setLane_accesses (s : State) (l : Nat) (L : Lane) : (s.setLane l L).accesses = s.accesses := rfl
@[simp] theorem State.setLane_race (s : State) (l : Nat) (L : Lane) : (s.setLane l L).race = s.race := rfl
@[simp] theorem State.setLane_draws (s : State) (l : Nat) (L : Lane) : (s.setLane l L).draws = s.draws := rfl

@[simp] theorem State.setLane_lanes (s : State) (l : Nat) (L : Lane) : (s.setLane l L).lanes = s.lanes.set l L := rfl

/-! ### Writing the lane that steps -/

@[simp] theorem State.setMe_cfg (s : State) (L : Lane) : (s.setMe L).cfg = s.cfg := rfl
@[simp] theorem State.setMe_ctrlMode (s : State) (L : Lane) : (s.setMe L).ctrlMode = s.ctrlMode := rfl
@[simp] theorem State.setMe_ctrlTrace (s : State) (L : Lane) : (s.setMe L).ctrlTrace = s.ctrlTrace := rfl
@[simp] theorem State.setMe_runState (s : State) (L : Lane) : (s.setMe L).runState = s.runState := rfl
@[simp] theorem State.setMe_anyFault (s : State) (L : Lane) : (s.setMe L).anyFault = s.anyFault := rfl
@[simp] theorem State.setMe_writeDropped (s : State) (L : Lane) : (s.setMe L).writeDropped = s.writeDropped := rfl
@[simp] theorem State.setMe_launchErr (s : State) (L : Lane) : (s.setMe L).launchErr = s.launchErr := rfl
@[simp] theorem State.setMe_entry (s : State) (L : Lane) : (s.setMe L).entry = s.entry := rfl
@[simp] theorem State.setMe_progLen (s : State) (L : Lane) : (s.setMe L).progLen = s.progLen := rfl
@[simp] theorem State.setMe_stackCap (s : State) (L : Lane) : (s.setMe L).stackCap = s.stackCap := rfl
@[simp] theorem State.setMe_laneCount (s : State) (L : Lane) : (s.setMe L).laneCount = s.laneCount := rfl
@[simp] theorem State.setMe_groupSize (s : State) (L : Lane) : (s.setMe L).groupSize = s.groupSize := rfl
@[simp] theorem State.setMe_heapCaps (s : State) (L : Lane) : (s.setMe L).heapCaps = s.heapCaps := rfl
@[simp] theorem State.setMe_laneSel (s : State) (L : Lane) : (s.setMe L).laneSel = s.laneSel := rfl
@[simp] theorem State.setMe_cycles (s : State) (L : Lane) : (s.setMe L).cycles = s.cycles := rfl
@[simp] theorem State.setMe_launch (s : State) (L : Lane) : (s.setMe L).launch = s.launch := rfl
@[simp] theorem State.setMe_program (s : State) (L : Lane) : (s.setMe L).program = s.program := rfl
@[simp] theorem State.setMe_heaps (s : State) (L : Lane) : (s.setMe L).heaps = s.heaps := rfl
@[simp] theorem State.setMe_out (s : State) (L : Lane) : (s.setMe L).out = s.out := rfl
@[simp] theorem State.setMe_outOld (s : State) (L : Lane) : (s.setMe L).outOld = s.outOld := rfl
@[simp] theorem State.setMe_accepted (s : State) (L : Lane) : (s.setMe L).accepted = s.accepted := rfl
@[simp] theorem State.setMe_busData (s : State) (L : Lane) : (s.setMe L).busData = s.busData := rfl
@[simp] theorem State.setMe_agenda (s : State) (L : Lane) : (s.setMe L).agenda = s.agenda := rfl
@[simp] theorem State.setMe_cur (s : State) (L : Lane) : (s.setMe L).cur = s.cur := rfl
@[simp] theorem State.setMe_accesses (s : State) (L : Lane) : (s.setMe L).accesses = s.accesses := rfl
@[simp] theorem State.setMe_race (s : State) (L : Lane) : (s.setMe L).race = s.race := rfl
@[simp] theorem State.setMe_draws (s : State) (L : Lane) : (s.setMe L).draws = s.draws := rfl

@[simp] theorem State.setMe_lanes (s : State) (L : Lane) : (s.setMe L).lanes = s.lanes.set s.cur L := rfl

/-! ### Writing a heap word -/

@[simp] theorem State.heapWrite_cfg (s : State) (h i : Nat) (v : Word) : (s.heapWrite h i v).cfg = s.cfg := rfl
@[simp] theorem State.heapWrite_ctrlMode (s : State) (h i : Nat) (v : Word) : (s.heapWrite h i v).ctrlMode = s.ctrlMode := rfl
@[simp] theorem State.heapWrite_ctrlTrace (s : State) (h i : Nat) (v : Word) : (s.heapWrite h i v).ctrlTrace = s.ctrlTrace := rfl
@[simp] theorem State.heapWrite_runState (s : State) (h i : Nat) (v : Word) : (s.heapWrite h i v).runState = s.runState := rfl
@[simp] theorem State.heapWrite_anyFault (s : State) (h i : Nat) (v : Word) : (s.heapWrite h i v).anyFault = s.anyFault := rfl
@[simp] theorem State.heapWrite_writeDropped (s : State) (h i : Nat) (v : Word) : (s.heapWrite h i v).writeDropped = s.writeDropped := rfl
@[simp] theorem State.heapWrite_launchErr (s : State) (h i : Nat) (v : Word) : (s.heapWrite h i v).launchErr = s.launchErr := rfl
@[simp] theorem State.heapWrite_entry (s : State) (h i : Nat) (v : Word) : (s.heapWrite h i v).entry = s.entry := rfl
@[simp] theorem State.heapWrite_progLen (s : State) (h i : Nat) (v : Word) : (s.heapWrite h i v).progLen = s.progLen := rfl
@[simp] theorem State.heapWrite_stackCap (s : State) (h i : Nat) (v : Word) : (s.heapWrite h i v).stackCap = s.stackCap := rfl
@[simp] theorem State.heapWrite_laneCount (s : State) (h i : Nat) (v : Word) : (s.heapWrite h i v).laneCount = s.laneCount := rfl
@[simp] theorem State.heapWrite_groupSize (s : State) (h i : Nat) (v : Word) : (s.heapWrite h i v).groupSize = s.groupSize := rfl
@[simp] theorem State.heapWrite_heapCaps (s : State) (h i : Nat) (v : Word) : (s.heapWrite h i v).heapCaps = s.heapCaps := rfl
@[simp] theorem State.heapWrite_laneSel (s : State) (h i : Nat) (v : Word) : (s.heapWrite h i v).laneSel = s.laneSel := rfl
@[simp] theorem State.heapWrite_cycles (s : State) (h i : Nat) (v : Word) : (s.heapWrite h i v).cycles = s.cycles := rfl
@[simp] theorem State.heapWrite_launch (s : State) (h i : Nat) (v : Word) : (s.heapWrite h i v).launch = s.launch := rfl
@[simp] theorem State.heapWrite_lanes (s : State) (h i : Nat) (v : Word) : (s.heapWrite h i v).lanes = s.lanes := rfl
@[simp] theorem State.heapWrite_program (s : State) (h i : Nat) (v : Word) : (s.heapWrite h i v).program = s.program := rfl
@[simp] theorem State.heapWrite_out (s : State) (h i : Nat) (v : Word) : (s.heapWrite h i v).out = s.out := rfl
@[simp] theorem State.heapWrite_outOld (s : State) (h i : Nat) (v : Word) : (s.heapWrite h i v).outOld = s.outOld := rfl
@[simp] theorem State.heapWrite_accepted (s : State) (h i : Nat) (v : Word) : (s.heapWrite h i v).accepted = s.accepted := rfl
@[simp] theorem State.heapWrite_busData (s : State) (h i : Nat) (v : Word) : (s.heapWrite h i v).busData = s.busData := rfl
@[simp] theorem State.heapWrite_agenda (s : State) (h i : Nat) (v : Word) : (s.heapWrite h i v).agenda = s.agenda := rfl
@[simp] theorem State.heapWrite_cur (s : State) (h i : Nat) (v : Word) : (s.heapWrite h i v).cur = s.cur := rfl
@[simp] theorem State.heapWrite_accesses (s : State) (h i : Nat) (v : Word) : (s.heapWrite h i v).accesses = s.accesses := rfl
@[simp] theorem State.heapWrite_race (s : State) (h i : Nat) (v : Word) : (s.heapWrite h i v).race = s.race := rfl
@[simp] theorem State.heapWrite_draws (s : State) (h i : Nat) (v : Word) : (s.heapWrite h i v).draws = s.draws := rfl

@[simp] theorem State.heapWrite_heaps (s : State) (h i : Nat) (v : Word) :
    (s.heapWrite h i v).heaps = s.heaps.set h ((s.heap h).write i v) := rfl

/-! ### Emitting a record -/

@[simp] theorem State.emit_cfg (s : State) (r : Record) : (s.emit r).cfg = s.cfg := rfl
@[simp] theorem State.emit_ctrlMode (s : State) (r : Record) : (s.emit r).ctrlMode = s.ctrlMode := rfl
@[simp] theorem State.emit_ctrlTrace (s : State) (r : Record) : (s.emit r).ctrlTrace = s.ctrlTrace := rfl
@[simp] theorem State.emit_runState (s : State) (r : Record) : (s.emit r).runState = s.runState := rfl
@[simp] theorem State.emit_anyFault (s : State) (r : Record) : (s.emit r).anyFault = s.anyFault := rfl
@[simp] theorem State.emit_writeDropped (s : State) (r : Record) : (s.emit r).writeDropped = s.writeDropped := rfl
@[simp] theorem State.emit_launchErr (s : State) (r : Record) : (s.emit r).launchErr = s.launchErr := rfl
@[simp] theorem State.emit_entry (s : State) (r : Record) : (s.emit r).entry = s.entry := rfl
@[simp] theorem State.emit_progLen (s : State) (r : Record) : (s.emit r).progLen = s.progLen := rfl
@[simp] theorem State.emit_stackCap (s : State) (r : Record) : (s.emit r).stackCap = s.stackCap := rfl
@[simp] theorem State.emit_laneCount (s : State) (r : Record) : (s.emit r).laneCount = s.laneCount := rfl
@[simp] theorem State.emit_groupSize (s : State) (r : Record) : (s.emit r).groupSize = s.groupSize := rfl
@[simp] theorem State.emit_heapCaps (s : State) (r : Record) : (s.emit r).heapCaps = s.heapCaps := rfl
@[simp] theorem State.emit_laneSel (s : State) (r : Record) : (s.emit r).laneSel = s.laneSel := rfl
@[simp] theorem State.emit_cycles (s : State) (r : Record) : (s.emit r).cycles = s.cycles := rfl
@[simp] theorem State.emit_launch (s : State) (r : Record) : (s.emit r).launch = s.launch := rfl
@[simp] theorem State.emit_lanes (s : State) (r : Record) : (s.emit r).lanes = s.lanes := rfl
@[simp] theorem State.emit_program (s : State) (r : Record) : (s.emit r).program = s.program := rfl
@[simp] theorem State.emit_heaps (s : State) (r : Record) : (s.emit r).heaps = s.heaps := rfl
@[simp] theorem State.emit_outOld (s : State) (r : Record) : (s.emit r).outOld = s.outOld := rfl
@[simp] theorem State.emit_accepted (s : State) (r : Record) : (s.emit r).accepted = s.accepted := rfl
@[simp] theorem State.emit_busData (s : State) (r : Record) : (s.emit r).busData = s.busData := rfl
@[simp] theorem State.emit_agenda (s : State) (r : Record) : (s.emit r).agenda = s.agenda := rfl
@[simp] theorem State.emit_cur (s : State) (r : Record) : (s.emit r).cur = s.cur := rfl
@[simp] theorem State.emit_accesses (s : State) (r : Record) : (s.emit r).accesses = s.accesses := rfl
@[simp] theorem State.emit_race (s : State) (r : Record) : (s.emit r).race = s.race := rfl
@[simp] theorem State.emit_draws (s : State) (r : Record) : (s.emit r).draws = s.draws := rfl

@[simp] theorem State.emit_out (s : State) (r : Record) : (s.emit r).out = s.out ++ [r] := rfl

/-! ### A lane's write and read of a heap word, with the access recorded -/

@[simp] theorem State.laneWrite_cfg (s : State) (h i : Nat) (v : Word) : (s.laneWrite h i v).cfg = s.cfg := by
  unfold State.laneWrite; split <;> rfl
@[simp] theorem State.laneWrite_ctrlMode (s : State) (h i : Nat) (v : Word) : (s.laneWrite h i v).ctrlMode = s.ctrlMode := by
  unfold State.laneWrite; split <;> rfl
@[simp] theorem State.laneWrite_ctrlTrace (s : State) (h i : Nat) (v : Word) : (s.laneWrite h i v).ctrlTrace = s.ctrlTrace := by
  unfold State.laneWrite; split <;> rfl
@[simp] theorem State.laneWrite_runState (s : State) (h i : Nat) (v : Word) : (s.laneWrite h i v).runState = s.runState := by
  unfold State.laneWrite; split <;> rfl
@[simp] theorem State.laneWrite_anyFault (s : State) (h i : Nat) (v : Word) : (s.laneWrite h i v).anyFault = s.anyFault := by
  unfold State.laneWrite; split <;> rfl
@[simp] theorem State.laneWrite_writeDropped (s : State) (h i : Nat) (v : Word) : (s.laneWrite h i v).writeDropped = s.writeDropped := by
  unfold State.laneWrite; split <;> rfl
@[simp] theorem State.laneWrite_launchErr (s : State) (h i : Nat) (v : Word) : (s.laneWrite h i v).launchErr = s.launchErr := by
  unfold State.laneWrite; split <;> rfl
@[simp] theorem State.laneWrite_entry (s : State) (h i : Nat) (v : Word) : (s.laneWrite h i v).entry = s.entry := by
  unfold State.laneWrite; split <;> rfl
@[simp] theorem State.laneWrite_progLen (s : State) (h i : Nat) (v : Word) : (s.laneWrite h i v).progLen = s.progLen := by
  unfold State.laneWrite; split <;> rfl
@[simp] theorem State.laneWrite_stackCap (s : State) (h i : Nat) (v : Word) : (s.laneWrite h i v).stackCap = s.stackCap := by
  unfold State.laneWrite; split <;> rfl
@[simp] theorem State.laneWrite_laneCount (s : State) (h i : Nat) (v : Word) : (s.laneWrite h i v).laneCount = s.laneCount := by
  unfold State.laneWrite; split <;> rfl
@[simp] theorem State.laneWrite_groupSize (s : State) (h i : Nat) (v : Word) : (s.laneWrite h i v).groupSize = s.groupSize := by
  unfold State.laneWrite; split <;> rfl
@[simp] theorem State.laneWrite_heapCaps (s : State) (h i : Nat) (v : Word) : (s.laneWrite h i v).heapCaps = s.heapCaps := by
  unfold State.laneWrite; split <;> rfl
@[simp] theorem State.laneWrite_laneSel (s : State) (h i : Nat) (v : Word) : (s.laneWrite h i v).laneSel = s.laneSel := by
  unfold State.laneWrite; split <;> rfl
@[simp] theorem State.laneWrite_cycles (s : State) (h i : Nat) (v : Word) : (s.laneWrite h i v).cycles = s.cycles := by
  unfold State.laneWrite; split <;> rfl
@[simp] theorem State.laneWrite_launch (s : State) (h i : Nat) (v : Word) : (s.laneWrite h i v).launch = s.launch := by
  unfold State.laneWrite; split <;> rfl
@[simp] theorem State.laneWrite_lanes (s : State) (h i : Nat) (v : Word) : (s.laneWrite h i v).lanes = s.lanes := by
  unfold State.laneWrite; split <;> rfl
@[simp] theorem State.laneWrite_program (s : State) (h i : Nat) (v : Word) : (s.laneWrite h i v).program = s.program := by
  unfold State.laneWrite; split <;> rfl
@[simp] theorem State.laneWrite_out (s : State) (h i : Nat) (v : Word) : (s.laneWrite h i v).out = s.out := by
  unfold State.laneWrite; split <;> rfl
@[simp] theorem State.laneWrite_outOld (s : State) (h i : Nat) (v : Word) : (s.laneWrite h i v).outOld = s.outOld := by
  unfold State.laneWrite; split <;> rfl
@[simp] theorem State.laneWrite_accepted (s : State) (h i : Nat) (v : Word) : (s.laneWrite h i v).accepted = s.accepted := by
  unfold State.laneWrite; split <;> rfl
@[simp] theorem State.laneWrite_busData (s : State) (h i : Nat) (v : Word) : (s.laneWrite h i v).busData = s.busData := by
  unfold State.laneWrite; split <;> rfl
@[simp] theorem State.laneWrite_agenda (s : State) (h i : Nat) (v : Word) : (s.laneWrite h i v).agenda = s.agenda := by
  unfold State.laneWrite; split <;> rfl
@[simp] theorem State.laneWrite_cur (s : State) (h i : Nat) (v : Word) : (s.laneWrite h i v).cur = s.cur := by
  unfold State.laneWrite; split <;> rfl
@[simp] theorem State.laneRead_cfg (s : State) (h i : Nat) (v : Word) : (s.laneRead h i v).2.cfg = s.cfg := by
  unfold State.laneRead; split <;> rfl
@[simp] theorem State.laneRead_ctrlMode (s : State) (h i : Nat) (v : Word) : (s.laneRead h i v).2.ctrlMode = s.ctrlMode := by
  unfold State.laneRead; split <;> rfl
@[simp] theorem State.laneRead_ctrlTrace (s : State) (h i : Nat) (v : Word) : (s.laneRead h i v).2.ctrlTrace = s.ctrlTrace := by
  unfold State.laneRead; split <;> rfl
@[simp] theorem State.laneRead_runState (s : State) (h i : Nat) (v : Word) : (s.laneRead h i v).2.runState = s.runState := by
  unfold State.laneRead; split <;> rfl
@[simp] theorem State.laneRead_anyFault (s : State) (h i : Nat) (v : Word) : (s.laneRead h i v).2.anyFault = s.anyFault := by
  unfold State.laneRead; split <;> rfl
@[simp] theorem State.laneRead_writeDropped (s : State) (h i : Nat) (v : Word) : (s.laneRead h i v).2.writeDropped = s.writeDropped := by
  unfold State.laneRead; split <;> rfl
@[simp] theorem State.laneRead_launchErr (s : State) (h i : Nat) (v : Word) : (s.laneRead h i v).2.launchErr = s.launchErr := by
  unfold State.laneRead; split <;> rfl
@[simp] theorem State.laneRead_entry (s : State) (h i : Nat) (v : Word) : (s.laneRead h i v).2.entry = s.entry := by
  unfold State.laneRead; split <;> rfl
@[simp] theorem State.laneRead_progLen (s : State) (h i : Nat) (v : Word) : (s.laneRead h i v).2.progLen = s.progLen := by
  unfold State.laneRead; split <;> rfl
@[simp] theorem State.laneRead_stackCap (s : State) (h i : Nat) (v : Word) : (s.laneRead h i v).2.stackCap = s.stackCap := by
  unfold State.laneRead; split <;> rfl
@[simp] theorem State.laneRead_laneCount (s : State) (h i : Nat) (v : Word) : (s.laneRead h i v).2.laneCount = s.laneCount := by
  unfold State.laneRead; split <;> rfl
@[simp] theorem State.laneRead_groupSize (s : State) (h i : Nat) (v : Word) : (s.laneRead h i v).2.groupSize = s.groupSize := by
  unfold State.laneRead; split <;> rfl
@[simp] theorem State.laneRead_heapCaps (s : State) (h i : Nat) (v : Word) : (s.laneRead h i v).2.heapCaps = s.heapCaps := by
  unfold State.laneRead; split <;> rfl
@[simp] theorem State.laneRead_laneSel (s : State) (h i : Nat) (v : Word) : (s.laneRead h i v).2.laneSel = s.laneSel := by
  unfold State.laneRead; split <;> rfl
@[simp] theorem State.laneRead_cycles (s : State) (h i : Nat) (v : Word) : (s.laneRead h i v).2.cycles = s.cycles := by
  unfold State.laneRead; split <;> rfl
@[simp] theorem State.laneRead_launch (s : State) (h i : Nat) (v : Word) : (s.laneRead h i v).2.launch = s.launch := by
  unfold State.laneRead; split <;> rfl
@[simp] theorem State.laneRead_lanes (s : State) (h i : Nat) (v : Word) : (s.laneRead h i v).2.lanes = s.lanes := by
  unfold State.laneRead; split <;> rfl
@[simp] theorem State.laneRead_program (s : State) (h i : Nat) (v : Word) : (s.laneRead h i v).2.program = s.program := by
  unfold State.laneRead; split <;> rfl
@[simp] theorem State.laneRead_heaps (s : State) (h i : Nat) (v : Word) : (s.laneRead h i v).2.heaps = s.heaps := by
  unfold State.laneRead; split <;> rfl
@[simp] theorem State.laneRead_out (s : State) (h i : Nat) (v : Word) : (s.laneRead h i v).2.out = s.out := by
  unfold State.laneRead; split <;> rfl
@[simp] theorem State.laneRead_outOld (s : State) (h i : Nat) (v : Word) : (s.laneRead h i v).2.outOld = s.outOld := by
  unfold State.laneRead; split <;> rfl
@[simp] theorem State.laneRead_accepted (s : State) (h i : Nat) (v : Word) : (s.laneRead h i v).2.accepted = s.accepted := by
  unfold State.laneRead; split <;> rfl
@[simp] theorem State.laneRead_busData (s : State) (h i : Nat) (v : Word) : (s.laneRead h i v).2.busData = s.busData := by
  unfold State.laneRead; split <;> rfl
@[simp] theorem State.laneRead_agenda (s : State) (h i : Nat) (v : Word) : (s.laneRead h i v).2.agenda = s.agenda := by
  unfold State.laneRead; split <;> rfl
@[simp] theorem State.laneRead_cur (s : State) (h i : Nat) (v : Word) : (s.laneRead h i v).2.cur = s.cur := by
  unfold State.laneRead; split <;> rfl

/-! ### Reading the slots -/

/-- A slot that is not INACTIVE is one of the launch's. -/
theorem State.lt_of_status (s : State) (l : Nat) (h : (s.lane l).status ≠ .inactive) : l < s.lanes.length := by
  by_contra hn
  apply h
  rw [State.lane, List.getD_eq_default _ _ (Nat.le_of_not_lt hn)]
  rfl

theorem State.lt_of_running (s : State) (l : Nat) (h : (s.lane l).status = .running) : l < s.lanes.length :=
  s.lt_of_status l (by rw [h]; decide)

theorem State.lane_setLane_self (s : State) (l : Nat) (L : Lane) (h : l < s.lanes.length) :
    (s.setLane l L).lane l = L := by
  simp [State.lane, List.getD_eq_getElem?_getD, h]

theorem State.lane_setLane_ne (s : State) (l k : Nat) (L : Lane) (h : k ≠ l) :
    (s.setLane l L).lane k = s.lane k := by
  simp [State.lane, List.getD_eq_getElem?_getD, List.getElem?_set_ne (Ne.symm h)]

theorem State.me_setMe (s : State) (L : Lane) (h : s.cur < s.lanes.length) : (s.setMe L).me = L :=
  s.lane_setLane_self s.cur L h

theorem State.lane_setMe_ne (s : State) (k : Nat) (L : Lane) (h : k ≠ s.cur) : (s.setMe L).lane k = s.lane k :=
  s.lane_setLane_ne s.cur k L h

/-- Which slots stand where depends on the list of slots alone. -/
theorem State.lane_congr {s t : State} (h : t.lanes = s.lanes) (l : Nat) : t.lane l = s.lane l := by
  simp [State.lane, h]

theorem State.me_congr {s t : State} (h : t.lanes = s.lanes) (hc : t.cur = s.cur) : t.me = s.me := by
  simp [State.me, State.lane, h, hc]

@[simp] theorem State.emit_me (s : State) (r : Record) : (s.emit r).me = s.me := rfl
@[simp] theorem State.emit_lane (s : State) (r : Record) (l : Nat) : (s.emit r).lane l = s.lane l := rfl
@[simp] theorem State.heapWrite_me (s : State) (h i : Nat) (v : Word) : (s.heapWrite h i v).me = s.me := rfl
@[simp] theorem State.heapWrite_lane (s : State) (h i : Nat) (v : Word) (l : Nat) :
    (s.heapWrite h i v).lane l = s.lane l := rfl
@[simp] theorem State.laneWrite_me (s : State) (h i : Nat) (v : Word) : (s.laneWrite h i v).me = s.me :=
  State.me_congr (by simp) (by simp)
@[simp] theorem State.laneRead_me (s : State) (h i : Nat) (v : Word) : (s.laneRead h i v).2.me = s.me :=
  State.me_congr (by simp) (by simp)
@[simp] theorem State.laneWrite_lane (s : State) (h i : Nat) (v : Word) (l : Nat) :
    (s.laneWrite h i v).lane l = s.lane l := State.lane_congr (by simp) l
@[simp] theorem State.laneRead_lane (s : State) (h i : Nat) (v : Word) (l : Nat) :
    (s.laneRead h i v).2.lane l = s.lane l := State.lane_congr (by simp) l

/-! ### Reading the heaps -/

theorem State.heapRead_congr {s t : State} (h : t.heaps = s.heaps) (a i : Nat) : t.heapRead a i = s.heapRead a i := by
  simp [State.heapRead, State.heap, h]

@[simp] theorem State.setMe_heapRead (s : State) (L : Lane) (h i : Nat) : (s.setMe L).heapRead h i = s.heapRead h i := rfl
@[simp] theorem State.setLane_heapRead (s : State) (l : Nat) (L : Lane) (h i : Nat) :
    (s.setLane l L).heapRead h i = s.heapRead h i := rfl
@[simp] theorem State.emit_heapRead (s : State) (r : Record) (h i : Nat) : (s.emit r).heapRead h i = s.heapRead h i := rfl
@[simp] theorem State.laneRead_heapRead (s : State) (h i : Nat) (v : Word) (a k : Nat) :
    (s.laneRead h i v).2.heapRead a k = s.heapRead a k := State.heapRead_congr (by simp) a k
@[simp] theorem State.setMe_heapCap (s : State) (L : Lane) (h : Nat) : (s.setMe L).heapCap h = s.heapCap h := rfl

end Sys2Proof.Machine
end

