-- ==== Sys2Proof/Laws/Memory.lean ====
section
/-! SUPPORT. Reading after writing, and the canonical form of a space. -/

namespace Sys2Proof.Machine

theorem Memory.read_write_self (m : Memory) (i : Nat) (v : Word) : (m.write i v).read i = some v := by
  induction m with
  | nil => simp [Memory.write, Memory.read]
  | cons c m ih =>
    obtain ⟨j, w⟩ := c
    unfold Memory.write
    split
    · simp [Memory.read]
    · split
      · simp [Memory.read]
      · rename_i h1 h2
        simp [Memory.read, h2, ih]

theorem Memory.read_write_ne (m : Memory) (i k : Nat) (v : Word) (h : k ≠ i) : (m.write i v).read k = m.read k := by
  induction m with
  | nil => simp [Memory.write, Memory.read, h]
  | cons c m ih =>
    obtain ⟨j, w⟩ := c
    unfold Memory.write
    split
    · simp [Memory.read, h]
    · split
      · rename_i h1 h2
        subst h2
        simp [Memory.read, h]
      · simp only [Memory.read, ih]

theorem Memory.read_write (m : Memory) (i k : Nat) (v : Word) :
    (m.write i v).read k = if k = i then some v else m.read k := by
  split
  · subst k; exact m.read_write_self i v
  · exact m.read_write_ne i k v ‹_›

theorem Memory.sortedFrom_mono (m : Memory) {lo lo' : Nat} (h : lo' ≤ lo) (hm : m.sortedFrom lo = true) :
    m.sortedFrom lo' = true := by
  cases m with
  | nil => rfl
  | cons c m =>
    simp only [Memory.sortedFrom, Bool.and_eq_true, decide_eq_true_eq] at hm ⊢
    exact ⟨by omega, hm.2⟩

theorem Memory.write_sortedFrom (m : Memory) (i : Nat) (v : Word) :
    ∀ lo, lo ≤ i → m.sortedFrom lo = true → (m.write i v).sortedFrom lo = true := by
  induction m with
  | nil => intro lo h _; simp [Memory.write, Memory.sortedFrom, h]
  | cons c m ih =>
    obtain ⟨j, w⟩ := c
    intro lo h hm
    simp only [Memory.sortedFrom, Bool.and_eq_true, decide_eq_true_eq] at hm
    unfold Memory.write
    split
    · simp only [Memory.sortedFrom, Bool.and_eq_true, decide_eq_true_eq]
      exact ⟨h, by omega, hm.2⟩
    · split
      · rename_i h1 h2
        subst h2
        simp only [Memory.sortedFrom, Bool.and_eq_true, decide_eq_true_eq]
        exact ⟨hm.1, hm.2⟩
      · simp only [Memory.sortedFrom, Bool.and_eq_true, decide_eq_true_eq]
        exact ⟨hm.1, ih (j + 1) (by omega) hm.2⟩

/-- A write keeps the canonical form. -/
theorem Memory.write_wf (m : Memory) (i : Nat) (v : Word) (h : m.wf = true) : (m.write i v).wf = true :=
  m.write_sortedFrom i v 0 (Nat.zero_le i) h

theorem Memory.write_below (m : Memory) (i n : Nat) (v : Word) (hi : i < n) (h : m.below n = true) :
    (m.write i v).below n = true := by
  induction m with
  | nil => simp [Memory.write, Memory.below, hi]
  | cons c m ih =>
    obtain ⟨j, w⟩ := c
    simp only [Memory.below, List.all_cons, Bool.and_eq_true, decide_eq_true_eq] at h ih
    unfold Memory.write
    split
    · simp only [Memory.below, List.all_cons, Bool.and_eq_true, decide_eq_true_eq]
      exact ⟨hi, h⟩
    · split
      · simp only [Memory.below, List.all_cons, Bool.and_eq_true, decide_eq_true_eq]
        exact ⟨hi, h.2⟩
      · simp only [Memory.below, List.all_cons, Bool.and_eq_true, decide_eq_true_eq]
        exact ⟨h.1, ih h.2⟩

theorem Memory.read_append (a b : Memory) (i : Nat) : (a ++ b).read i = (a.read i).or (b.read i) := by
  induction a with
  | nil => simp [Memory.read]
  | cons c a ih =>
    obtain ⟨j, w⟩ := c
    simp only [List.cons_append, Memory.read]
    split
    · simp
    · exact ih

theorem Memory.read_rangeMap (f : Nat → Word) (n i : Nat) :
    Memory.read ((List.range n).map fun k => (k, f k)) i = if i < n then some (f i) else none := by
  induction n with
  | zero => simp [Memory.read]
  | succ n ih =>
    rw [List.range_succ, List.map_append, Memory.read_append, ih]
    by_cases h : i < n
    · simp [h, Nat.lt_succ_of_lt h]
    · by_cases h2 : i = n
      · subst h2; simp [Memory.read]
      · have : ¬ i < n + 1 := by omega
        simp [h, this, h2, Memory.read]

theorem Memory.read_filter_ge (m : Memory) (n i : Nat) :
    Memory.read (m.filter fun c => decide (n ≤ c.1)) i = if n ≤ i then m.read i else none := by
  induction m with
  | nil => simp [Memory.read]
  | cons c m ih =>
    obtain ⟨j, w⟩ := c
    rw [List.filter_cons]
    by_cases hj : n ≤ j
    · simp only [hj, decide_true, if_true, Memory.read, ih]
      by_cases hi : i = j
      · subst hi; simp [hj]
      · simp [hi]
    · simp only [hj, decide_false, Bool.false_eq_true, if_false, ih, Memory.read]
      by_cases hi : i = j
      · subst hi; simp [hj]
      · simp [hi]

/-- A fill gives the words below `n` and leaves the others. -/
theorem Memory.read_fill (m : Memory) (n i : Nat) (f : Nat → Word) :
    (m.fill n f).read i = if i < n then some (f i) else m.read i := by
  unfold Memory.fill
  rw [Memory.read_append, Memory.read_rangeMap, Memory.read_filter_ge]
  by_cases h : i < n
  · simp [h]
  · simp [h, Nat.le_of_not_lt h]

theorem Memory.sortedFrom_filter (m : Memory) (n : Nat) :
    ∀ lo, m.sortedFrom lo = true → Memory.sortedFrom (max lo n) (m.filter fun c => decide (n ≤ c.1)) = true := by
  induction m with
  | nil => intro lo _; rfl
  | cons c m ih =>
    obtain ⟨j, w⟩ := c
    intro lo h
    simp only [Memory.sortedFrom, Bool.and_eq_true, decide_eq_true_eq] at h
    have := ih (j + 1) h.2
    rw [List.filter_cons]
    split
    · rename_i hj
      simp only [decide_eq_true_eq] at hj
      simp only [Memory.sortedFrom, Bool.and_eq_true, decide_eq_true_eq]
      exact ⟨by omega, Memory.sortedFrom_mono _ (by omega) this⟩
    · exact Memory.sortedFrom_mono _ (by omega) this

theorem Memory.sortedFrom_rangeMap (f : Nat → Word) (m : Memory) (n : Nat) :
    ∀ k, m.sortedFrom (k + n) = true →
      Memory.sortedFrom k (((List.range' k n).map fun i => (i, f i)) ++ m) = true := by
  induction n with
  | zero => intro k h; simpa using h
  | succ n ih =>
    intro k h
    simp only [List.range'_succ, List.map_cons, List.cons_append, Memory.sortedFrom, le_refl, decide_true,
      Bool.true_and]
    exact ih (k + 1) (by rw [show k + 1 + n = k + (n + 1) by omega]; exact h)

/-- A fill keeps the canonical form. -/
theorem Memory.fill_wf (m : Memory) (n : Nat) (f : Nat → Word) (h : m.wf = true) : (m.fill n f).wf = true := by
  unfold Memory.fill Memory.wf
  rw [List.range_eq_range']
  apply Memory.sortedFrom_rangeMap
  have := m.sortedFrom_filter n 0 h
  simpa using this

theorem Memory.fill_below (m : Memory) (n k : Nat) (f : Nat → Word) (hn : n ≤ k) (h : m.below k = true) :
    (m.fill n f).below k = true := by
  simp only [Memory.below, Memory.fill, List.all_append, Bool.and_eq_true, List.all_eq_true, List.mem_map,
    List.mem_range, List.mem_filter, decide_eq_true_eq] at h ⊢
  refine ⟨?_, ?_⟩
  · rintro c ⟨i, hi, rfl⟩; exact lt_of_lt_of_le hi hn
  · rintro c ⟨hc, _⟩; exact h c hc

/-- A read below every listed index finds nothing. -/
theorem Memory.read_eq_none_of_lt (m : Memory) {lo i : Nat} (h : m.sortedFrom lo = true) (hi : i < lo) :
    m.read i = none := by
  induction m generalizing lo with
  | nil => rfl
  | cons c m ih =>
    obtain ⟨j, w⟩ := c
    simp only [Memory.sortedFrom, Bool.and_eq_true, decide_eq_true_eq] at h
    have hne : i ≠ j := by omega
    simp [Memory.read, hne, ih h.2 (by omega)]

/-- The form is canonical: two spaces in it that read alike are the same list. -/
theorem Memory.eq_of_read (a b : Memory) {lo : Nat} (ha : a.sortedFrom lo = true) (hb : b.sortedFrom lo = true)
    (h : ∀ i, a.read i = b.read i) : a = b := by
  induction a generalizing lo b with
  | nil =>
    rcases b with _ | ⟨⟨j, w⟩, b⟩
    · rfl
    · simpa [Memory.read] using h j
  | cons c a ih =>
    obtain ⟨i, v⟩ := c
    rcases b with _ | ⟨⟨j, w⟩, b⟩
    · simpa [Memory.read] using h i
    · simp only [Memory.sortedFrom, Bool.and_eq_true, decide_eq_true_eq] at ha hb
      have hij : i = j := by
        rcases lt_trichotomy i j with hlt | he | hlt
        · have := h i
          simp [Memory.read, hlt.ne, Memory.read_eq_none_of_lt b (i := i) hb.2 (by omega)] at this
        · exact he
        · have := h j
          simp [Memory.read, hlt.ne, Memory.read_eq_none_of_lt a (i := j) ha.2 (by omega)] at this
      subst hij
      have hv : v = w := by simpa [Memory.read] using h i
      subst hv
      rw [ih b ha.2 hb.2 fun k => ?_]
      by_cases hk : k = i
      · subst hk
        rw [Memory.read_eq_none_of_lt a ha.2 (by omega), Memory.read_eq_none_of_lt b hb.2 (by omega)]
      · simpa [Memory.read, hk] using h k

/-! ### The heaps -/

theorem State.heapRead_heapWrite_self (s : State) (h i : Nat) (v : Word) (hh : h < s.heaps.length) :
    (s.heapWrite h i v).heapRead h i = some v := by
  simp [State.heapRead, State.heap, State.heapWrite, List.getD_eq_getElem?_getD, hh, Memory.read_write_self]

theorem State.heapRead_heapWrite_ne (s : State) (h i a k : Nat) (v : Word) (hne : (a, k) ≠ (h, i)) :
    (s.heapWrite h i v).heapRead a k = s.heapRead a k := by
  by_cases ha : a = h
  · subst ha
    have hk : k ≠ i := by rintro rfl; exact hne rfl
    by_cases hl : a < s.heaps.length
    · simp [State.heapRead, State.heap, State.heapWrite, List.getD_eq_getElem?_getD, hl, Memory.read_write_ne _ _ _ _ hk]
    · simp [State.heapRead, State.heap, State.heapWrite, List.set_eq_of_length_le (Nat.le_of_not_lt hl)]
  · simp [State.heapRead, State.heap, State.heapWrite, List.getD_eq_getElem?_getD, List.getElem?_set_ne (Ne.symm ha)]

theorem State.heapWrite_heaps_wf (s : State) (h i : Nat) (v : Word) (hw : ∀ m ∈ s.heaps, m.wf = true) :
    ∀ m ∈ (s.heapWrite h i v).heaps, m.wf = true := by
  intro m hm
  rcases List.mem_or_eq_of_mem_set hm with hm | rfl
  · exact hw m hm
  · apply Memory.write_wf
    unfold State.heap
    by_cases hl : h < s.heaps.length
    · rw [List.getD_eq_getElem _ _ hl]
      exact hw _ (List.getElem_mem hl)
    · simp [List.getD_eq_getElem?_getD, List.getElem?_eq_none (Nat.le_of_not_lt hl), Memory.wf, Memory.sortedFrom]

/-- Reset leaves every space in canonical form: nothing is listed. -/
theorem State.resetWith_memory_wf (p : Params) :
    (State.resetWith p).program.wf = true ∧ ∀ m ∈ (State.resetWith p).heaps, m.wf = true := by
  refine ⟨rfl, fun m hm => ?_⟩
  obtain rfl := List.eq_of_mem_replicate hm
  rfl

end Sys2Proof.Machine
end

