-- ==== Sys2Proof/Laws/Operands.lean ====
section
/-! SUPPORT. What the operand forms answer, said once. -/

namespace Sys2Proof.Machine

@[simp] theorem top1?_concat (l : List Word) (a : Word) : top1? (l ++ [a]) = some (a, l) := by simp [top1?]

@[simp] theorem top1?_nil : top1? [] = none := rfl

theorem top1?_eq_some {st : List Word} {a : Word} {l : List Word} : top1? st = some (a, l) ↔ st = l ++ [a] := by
  constructor
  · intro h
    rcases List.eq_nil_or_concat st with rfl | ⟨l', b, rfl⟩
    · simp at h
    · simp only [List.concat_eq_append, top1?_concat, Option.some.injEq, Prod.mk.injEq] at h
      obtain ⟨rfl, rfl⟩ := h
      simp
  · rintro rfl; simp

theorem top1?_eq_none {st : List Word} : top1? st = none ↔ st = [] := by
  constructor
  · intro h
    rcases List.eq_nil_or_concat st with rfl | ⟨l', b, rfl⟩
    · rfl
    · simp at h
  · rintro rfl; rfl

@[simp] theorem top2?_concat (l : List Word) (b a : Word) : top2? (l ++ [b, a]) = some (a, b, l) := by
  have : l ++ [b, a] = (l ++ [b]) ++ [a] := by simp
  unfold top2?
  rw [this, top1?_concat]
  simp

theorem top2?_eq_some {st : List Word} {a b : Word} {l : List Word} :
    top2? st = some (a, b, l) ↔ st = l ++ [b, a] := by
  constructor
  · intro h
    unfold top2? at h
    split at h
    · rename_i a1 st1 h1
      split at h
      · rename_i b1 st2 h2
        simp only [Option.some.injEq, Prod.mk.injEq] at h
        obtain ⟨rfl, rfl, rfl⟩ := h
        rw [top1?_eq_some] at h1 h2
        rw [h1, h2]; simp
      · cases h
    · cases h
  · rintro rfl; simp

theorem top2?_eq_none {st : List Word} : top2? st = none ↔ st.length < 2 := by
  constructor
  · intro h
    by_contra hn
    rcases List.eq_nil_or_concat st with rfl | ⟨l, a, rfl⟩
    · simp at hn
    · rcases List.eq_nil_or_concat l with rfl | ⟨l, b, rfl⟩
      · simp at hn
      · have : (l.concat b).concat a = l ++ [b, a] := by simp
        rw [this] at h; simp at h
  · intro h
    match st, h with
    | [], _ => rfl
    | [_], _ => rfl

theorem indexBelow?_eq_some {i : Int} {n k : Nat} : indexBelow? i n = some k ↔ i = (k : Int) ∧ k < n := by
  unfold indexBelow?
  split
  · rename_i h
    simp only [Option.some.injEq]
    constructor
    · rintro rfl; omega
    · rintro ⟨rfl, h2⟩; simp
  · rename_i h
    simp only [reduceCtorEq, false_iff, not_and]
    rintro rfl h2
    exact h ⟨by omega, by omega⟩

theorem indexBelow?_eq_none {i : Int} {n : Nat} : indexBelow? i n = none ↔ ¬ (0 ≤ i ∧ i < (n : Int)) := by
  unfold indexBelow?
  split <;> simp_all

end Sys2Proof.Machine
end

