-- ==== Sys2Proof/Laws/Exec.lean ====
section
/-! SUPPORT. What a meaning can do, said once: `exec_next` (the next states), `exec_fault` (the stops) and
`exec_not_refused`. Later proofs cite these instead of unfolding the meanings. -/

namespace Sys2Proof.Machine

/-- What a meaning keeps of the lane that steps: everything that only a launch, a reset or a fault writes. -/
structure KeptLane (s : State) (i : Instr) (L : Lane) : Prop where
  laneId : L.laneId = s.me.laneId
  trace : L.trace = s.me.trace
  faultCode : L.faultCode = s.me.faultCode
  faultIp : L.faultIp = s.me.faultIp
  faultWord : L.faultWord = s.me.faultWord
  status : L.status = s.me.status ∨ i = .halt ∧ L.status = .halted
  stack : L.stack.length ≤ max s.me.stack.length s.launch.stackCap.toNat

/-- What a meaning can do outside the lane that steps, before it writes that lane. -/
inductive StepBase (s : State) : Instr → State → Prop where
  | same (i : Instr) : StepBase s i s
  | gstore (address : Word) (k : Nat) (v : Word) (hk : k < s.heapCap 0) :
      StepBase s (.gstore address) (s.heapWrite 0 k v)
  | gstoreIndexed (base : Word) (k : Nat) (v : Word) (hk : k < s.heapCap 0) :
      StepBase s (.gstoreIndexed base) (s.heapWrite 0 k v)
  | print (v : Word) (hs : s.me.stack ≠ []) : StepBase s .print (s.emit (.print s.me.laneId v))
  | laneRead (selector : Word) (h k : Nat) (v : Word) (hh : h < s.cfg.numHeaps) (hk : k < s.heapCap h)
      (hv : s.heapRead h k = some v) : StepBase s (.parallelGloadIndexed selector) (s.laneRead h k v).2
  | laneWrite (selector : Word) (h k : Nat) (v : Word) (hh : h < s.cfg.numHeaps) (hk : k < s.heapCap h) :
      StepBase s (.parallelGstoreIndexed selector) (s.laneWrite h k v)

/-- A meaning takes a fault, or writes the lane that steps after at most one effect outside it. -/
def NextForm (i : Instr) (s t : State) : Prop :=
  (∃ c, c ≠ FaultCode.none ∧ t = raise c i.opcode s) ∨ ∃ u L, StepBase s i u ∧ KeptLane s i L ∧ t = u.setMe L

theorem trap_next {c : FaultCode} {i : Instr} {s t : State} (hc : c ≠ .none) (h : trap c i s = .next t) :
    NextForm i s t := by
  unfold trap at h
  cases h
  exact .inl ⟨c, hc, rfl⟩

theorem retire_next {i : Instr} {s u t : State} {L : Lane} (hb : StepBase s i u)
    (hl : KeptLane s i L) (h : retire i L u = .next t) : NextForm i s t := by
  unfold retire at h
  cases h
  exact .inr ⟨u, { L with ip := nextIp i u }, hb, ⟨hl.1, hl.2, hl.3, hl.4, hl.5, hl.6, hl.7⟩, rfl⟩

theorem jump_next {i : Instr} {s t : State} {L : Lane} {target : Word} (hl : KeptLane s i L)
    (h : jump target L s = .next t) : NextForm i s t := by
  unfold jump at h
  cases h
  exact .inr ⟨s, { L with ip := target }, .same i, ⟨hl.1, hl.2, hl.3, hl.4, hl.5, hl.6, hl.7⟩, rfl⟩

/-- The lane with another stack, no longer than before or within STACK_CAP. -/
theorem keptLane_stack {s : State} {i : Instr} {st : List Word}
    (h : st.length ≤ max s.me.stack.length s.launch.stackCap.toNat) : KeptLane s i { s.me with stack := st } :=
  ⟨rfl, rfl, rfl, rfl, rfl, .inl rfl, h⟩

theorem pushWord_next {i : Instr} {v : Word} {s t : State} (h : pushWord i v s = .next t) : NextForm i s t := by
  unfold pushWord at h
  split at h
  · rename_i hr
    refine retire_next (.same i) (keptLane_stack ?_) h
    simp only [State.roomFor, decide_eq_true_eq] at hr
    simp only [List.length_append, List.length_singleton]
    omega
  · exact trap_next (by decide) h

theorem binary_next {i : Instr} {f : Word → Word → Word} {s t : State} (h : binary i f s = .next t) :
    NextForm i s t := by
  unfold binary at h
  split at h
  · rename_i a b rest hs
    rw [top2?_eq_some] at hs
    exact retire_next (.same i) (keptLane_stack (by rw [hs]; simp)) h
  · exact trap_next (by decide) h

theorem unary_next {i : Instr} {f : Word → Word} {s t : State} (h : unary i f s = .next t) : NextForm i s t := by
  unfold unary at h
  split at h
  · rename_i a rest hs
    rw [top1?_eq_some] at hs
    exact retire_next (.same i) (keptLane_stack (by rw [hs]; simp)) h
  · exact trap_next (by decide) h

theorem branchIf_next {i : Instr} {taken : Word → Bool} {target : Word} {s t : State}
    (h : branchIf i taken target s = .next t) : NextForm i s t := by
  unfold branchIf at h
  split at h
  · rename_i a rest hs
    rw [top1?_eq_some] at hs
    have hk : KeptLane s i { s.me with stack := rest } := keptLane_stack (by rw [hs]; simp)
    split at h
    · exact jump_next hk h
    · exact retire_next (.same i) hk h
  · exact trap_next (by decide) h

theorem execCall_next {target numArgs : Word} {s t : State} (h : execCall target numArgs s = .next t) :
    NextForm (.call target numArgs) s t := by
  unfold execCall at h
  split at h
  · split at h
    · rename_i hr
      refine jump_next (L := calledLane s.me numArgs _) ⟨rfl, rfl, rfl, rfl, rfl, .inl rfl, ?_⟩ h
      simp only [State.roomFor, decide_eq_true_eq] at hr
      simp only [calledLane, List.length_append, List.length_cons, List.length_nil]
      omega
    · exact trap_next (by decide) h
  · exact trap_next (by decide) h

theorem returnRecord?_eq_some {L : Lane} {f n : Nat} (h : returnRecord? L = some (f, n)) :
    L.depth ≠ 0 ∧ L.fp.toInt = (f : Int) ∧ 2 ≤ f ∧ f + 2 ≤ L.stack.length ∧ n + 2 ≤ f ∧
      (L.stack.getD (f - 2) 0).toInt = (n : Int) := by
  unfold returnRecord? at h
  split at h
  · rename_i hc
    obtain ⟨hd, h2, h3⟩ := hc
    simp only [Lane.sp] at h3
    dsimp only at h
    split at h
    · rename_i m hm
      rw [indexBelow?_eq_some] at hm
      simp only [Option.some.injEq, Prod.mk.injEq] at h
      obtain ⟨rfl, rfl⟩ := h
      exact ⟨hd, by omega, by omega, by omega, by omega, hm.1⟩
    · cases h
  · cases h

theorem returnRecord?_intro {L : Lane} {f n : Nat} (hd : L.depth ≠ 0) (hf : L.fp.toInt = (f : Int)) (h2 : 2 ≤ f)
    (hl : f + 2 ≤ L.stack.length) (hn : n + 2 ≤ f) (hc : (L.stack.getD (f - 2) 0).toInt = (n : Int)) :
    returnRecord? L = some (f, n) := by
  have hi : indexBelow? (L.stack.getD (f - 2) 0).toInt (f - 1) = some n :=
    indexBelow?_eq_some.2 ⟨hc, by omega⟩
  unfold returnRecord?
  rw [if_pos ⟨hd, by omega, by simp only [Lane.sp]; omega⟩, hf]
  simp only [Int.toNat_natCast, hi]

theorem execRet_next {s t : State} (h : execRet s = .next t) : NextForm .ret s t := by
  unfold execRet at h
  split at h
  · rename_i rv rest hs
    split at h
    · rename_i f n hr
      obtain ⟨-, -, h2, hl, hn, -⟩ := returnRecord?_eq_some hr
      refine jump_next (L := returnedLane s.me f n rv) ⟨rfl, rfl, rfl, rfl, rfl, .inl rfl, ?_⟩ h
      simp only [returnedLane, List.length_append, List.length_take, List.length_singleton]
      omega
    · exact trap_next (by decide) h
  · exact trap_next (by decide) h

/-- Everything a meaning can do when it answers a next state. -/
theorem exec_next {i : Instr} {s t : State} (h : exec i s = .next t) : NextForm i s t := by
  cases i with
  | iadd => exact binary_next h
  | isub => exact binary_next h
  | imul => exact binary_next h
  | ilt => exact binary_next h
  | ieq => exact binary_next h
  | br target => exact jump_next (keptLane_stack (st := s.me.stack) (by omega)) h
  | brt target => exact branchIf_next h
  | brf target => exact branchIf_next h
  | iconst value => exact pushWord_next h
  | load offset =>
    simp only [exec, execLoad] at h
    split at h
    · exact pushWord_next h
    · exact trap_next (by decide) h
  | gload address =>
    simp only [exec, execGload] at h
    split at h
    · split at h
      · split at h
        · exact pushWord_next h
        · cases h
      · exact trap_next (by decide) h
    · exact trap_next (by decide) h
  | store offset =>
    simp only [exec, execStore] at h
    split at h
    · rename_i v rest hs
      rw [top1?_eq_some] at hs
      split at h
      · exact retire_next (.same _) (keptLane_stack (by rw [hs]; simp)) h
      · exact trap_next (by decide) h
    · exact trap_next (by decide) h
  | gstore address =>
    simp only [exec, execGstore] at h
    split at h
    · rename_i v rest hs
      rw [top1?_eq_some] at hs
      split at h
      · rename_i k hk
        exact retire_next (.gstore _ _ _ (indexBelow?_eq_some.1 hk).2) (keptLane_stack (by rw [hs]; simp)) h
      · exact trap_next (by decide) h
    · exact trap_next (by decide) h
  | print =>
    simp only [exec, execPrint] at h
    split at h
    · rename_i v rest hs
      rw [top1?_eq_some] at hs
      exact retire_next (.print v (by rw [hs]; simp)) (keptLane_stack (by rw [hs]; simp)) h
    · exact trap_next (by decide) h
  | pop =>
    simp only [exec, execPop] at h
    split at h
    · rename_i v rest hs
      rw [top1?_eq_some] at hs
      exact retire_next (.same _) (keptLane_stack (by rw [hs]; simp)) h
    · exact trap_next (by decide) h
  | halt =>
    exact retire_next (L := { s.me with status := .halted }) (.same _)
      ⟨rfl, rfl, rfl, rfl, rfl, .inr ⟨rfl, rfl⟩, Nat.le_max_left _ _⟩ h
  | call target numArgs => exact execCall_next h
  | ret => exact execRet_next h
  | dup =>
    simp only [exec, execDup] at h
    split at h
    · exact pushWord_next h
    · exact trap_next (by decide) h
  | idiv =>
    simp only [exec, execIdiv] at h
    split at h
    · rename_i a b rest hs
      rw [top2?_eq_some] at hs
      split at h
      · exact trap_next (by decide) h
      · exact retire_next (.same _) (keptLane_stack (by rw [hs]; simp)) h
    · exact trap_next (by decide) h
  | lshift => exact unary_next h
  | rshift => exact unary_next h
  | iconst1 => exact pushWord_next h
  | gloadIndexed base =>
    simp only [exec, execGloadIndexed] at h
    split at h
    · rename_i v rest hs
      rw [top1?_eq_some] at hs
      split at h
      · split at h
        · exact retire_next (.same _) (keptLane_stack (by rw [hs]; simp)) h
        · cases h
      · exact trap_next (by decide) h
    · exact trap_next (by decide) h
  | gstoreIndexed base =>
    simp only [exec, execGstoreIndexed] at h
    split at h
    · rename_i v offset rest hs
      rw [top2?_eq_some] at hs
      split at h
      · rename_i k hk
        exact retire_next (.gstoreIndexed _ _ _ (indexBelow?_eq_some.1 hk).2)
          (keptLane_stack (by rw [hs]; simp)) h
      · exact trap_next (by decide) h
    · exact trap_next (by decide) h
  | threadId => exact pushWord_next h
  | parallelGloadIndexed selector =>
    simp only [exec, execParallelGloadIndexed] at h
    split at h
    · rename_i index rest hs
      rw [top1?_eq_some] at hs
      split at h
      · rename_i hp hh
        split at h
        · rename_i k hk
          split at h
          · rename_i v hv
            exact retire_next
              (.laneRead _ _ _ _ (indexBelow?_eq_some.1 hh).2 (indexBelow?_eq_some.1 hk).2 hv)
              (keptLane_stack (by rw [hs]; simp)) h
          · cases h
        · exact trap_next (by decide) h
      · exact trap_next (by decide) h
    · exact trap_next (by decide) h
  | parallelGstoreIndexed selector =>
    simp only [exec, execParallelGstoreIndexed] at h
    split at h
    · rename_i v index rest hs
      rw [top2?_eq_some] at hs
      split at h
      · rename_i hp hh
        split at h
        · rename_i k hk
          exact retire_next (.laneWrite _ _ _ _ (indexBelow?_eq_some.1 hh).2 (indexBelow?_eq_some.1 hk).2)
            (keptLane_stack (by rw [hs]; simp)) h
        · exact trap_next (by decide) h
      · exact trap_next (by decide) h
    · exact trap_next (by decide) h

/-- A meaning stops only at a heap word, of a heap the instruction may reach, that holds no value. -/
theorem exec_fault {i : Instr} {s : State} {r : Fault} (h : exec i s = .fault r) :
    r = .heapWordNoValue ∧
      ((i.legalIn .lane = false ∧ ∃ k, k < s.heapCap 0 ∧ s.heapRead 0 k = none) ∨
       (i.legalIn .seq = false ∧ ∃ a k, a < s.cfg.numHeaps ∧ k < s.heapCap a ∧ s.heapRead a k = none)) := by
  cases i <;>
    simp only [exec, execIadd, execIsub, execImul, execIlt, execIeq, execBr, execBrt, execBrf, execIconst, execLoad,
      execGload, execStore, execGstore, execPrint, execPop, execHalt, execCall, execRet, execDup, execIdiv, execLshift,
      execRshift, execIconst1, execGloadIndexed, execGstoreIndexed, execThreadId, execParallelGloadIndexed,
      execParallelGstoreIndexed, binary, unary, branchIf, pushWord, retire, jump, trap] at h <;>
    (repeat' split at h) <;> try cases h
  · rename_i k hk _ _ hv
    exact ⟨rfl, .inl ⟨rfl, k, (indexBelow?_eq_some.1 hk).2, hv⟩⟩
  · rename_i k hk _ hv
    exact ⟨rfl, .inl ⟨rfl, k, (indexBelow?_eq_some.1 hk).2, hv⟩⟩
  · rename_i a ha _ k hk _ hv
    exact ⟨rfl, .inr ⟨rfl, a, k, (indexBelow?_eq_some.1 ha).2, (indexBelow?_eq_some.1 hk).2, hv⟩⟩

/-- No meaning refuses. -/
theorem exec_not_refused {i : Instr} {s : State} {r : Refusal} : exec i s ≠ .refused r := by
  intro h
  cases i <;>
    simp only [exec, execIadd, execIsub, execImul, execIlt, execIeq, execBr, execBrt, execBrf, execIconst, execLoad,
      execGload, execStore, execGstore, execPrint, execPop, execHalt, execCall, execRet, execDup, execIdiv, execLshift,
      execRshift, execIconst1, execGloadIndexed, execGstoreIndexed, execThreadId, execParallelGloadIndexed,
      execParallelGstoreIndexed, binary, unary, branchIf, pushWord, retire, jump, trap] at h <;>
    (repeat' split at h) <;> cases h

end Sys2Proof.Machine
end

