-- ==== Sys2Proof/Laws/Step.lean ====
section
/-! SUPPORT. Fetch and decode, and what one step of the block can do, said once: `step_next`, `step_fault`,
`step_not_refused`. -/

namespace Sys2Proof.Machine

/-! ### Fetch -/

theorem fetchWord_got {s : State} {i : Int} {w : Word} :
    fetchWord s i = .got w ↔ ∃ k : Nat, i = (k : Int) ∧ k < s.launch.progLen.toNat ∧ s.program.read k = some w := by
  unfold fetchWord
  constructor
  · intro h
    split at h
    · rename_i k hk
      split at h
      · rename_i v hv
        cases h
        rw [indexBelow?_eq_some] at hk
        exact ⟨k, hk.1, hk.2, hv⟩
      · cases h
    · cases h
  · rintro ⟨k, hi, hk, hr⟩
    rw [indexBelow?_eq_some.2 ⟨hi, hk⟩]
    simp [hr]

theorem fetchWords_length {s : State} {n : Nat} : ∀ {i : Int} {ws : List Word},
    fetchWords s i n = .got ws → ws.length = n := by
  induction n with
  | zero => intro i ws h; cases h; rfl
  | succ n ih =>
    intro i ws h
    simp only [fetchWords] at h
    split at h
    · split at h
      · rename_i hw
        cases h
        simp [ih hw]
      · cases h
      · cases h
    · cases h
    · cases h

/-- Operand fetch gives the words that stand there. -/
theorem fetchWords_got {s : State} : ∀ {ws : List Word} {i : Int},
    fetchWords s i ws.length = .got ws ↔ ∀ j (hj : j < ws.length), fetchWord s (i + j) = .got ws[j] := by
  intro ws
  induction ws with
  | nil => intro i; simp [fetchWords]
  | cons w ws ih =>
    intro i
    simp only [List.length_cons, fetchWords]
    constructor
    · intro h
      split at h
      · rename_i v hv
        split at h
        · rename_i vs hvs
          cases h
          intro j hj
          cases j with
          | zero => simpa using hv
          | succ j =>
            have := ih.1 hvs j (by simpa using hj)
            simpa [add_assoc, add_comm, add_left_comm] using this
        · cases h
        · cases h
      · cases h
      · cases h
    · intro h
      have h0 := h 0 (by simp)
      simp only [Nat.cast_zero, add_zero, List.getElem_cons_zero] at h0
      have ht : fetchWords s (i + 1) ws.length = .got ws := by
        rw [ih]
        intro j hj
        have := h (j + 1) (by simpa using hj)
        simpa [add_assoc, add_comm, add_left_comm] using this
      rw [h0]
      simp only [ht]

/-- Decoding at `a` gives `i` just when the mode allows `i` and its words stand at `a` (30_encoding.md R88, R98). -/
theorem decodeAt_instr {s : State} {a : Int} {i : Instr} :
    decodeAt s a = .instr i ↔
      i.legalIn s.launch.mode = true ∧ ∀ j (hj : j < (encode i).length), fetchWord s (a + j) = .got (encode i)[j] := by
  constructor
  · intro h
    unfold decodeAt at h
    split at h
    · cases h
    · cases h
    · rename_i op hop
      split at h
      · cases h
      · rename_i sh hsh
        split at h
        · rename_i hl
          split at h
          · cases h
          · cases h
          · rename_i ws hws
            split at h
            · rename_i i' hb
              cases h
              obtain ⟨ho, hw, hc, hleg⟩ := build_eq_some hsh hb
              have hlen := fetchWords_length hws
              have hdrop : ws.drop sh.count = [] := List.drop_eq_nil_of_le (by omega)
              rw [hdrop, List.append_nil] at hw
              refine ⟨by rw [← hleg]; exact hl, ?_⟩
              subst hw
              intro j hj
              cases j with
              | zero => simpa [encode, ← ho] using hop
              | succ j =>
                have hj' : j < i.operands.length := by simpa [encode] using hj
                rw [hc] at hws
                have := fetchWords_got.1 hws j hj'
                simpa [encode, add_assoc, add_comm, add_left_comm] using this
            · cases h
        · cases h
  · rintro ⟨hl, hw⟩
    obtain ⟨sh, hsh, hc, hb, hleg⟩ := shapeOf_opcode i
    have h0 := hw 0 (by simp [encode])
    simp only [Nat.cast_zero, add_zero, encode, List.getElem_cons_zero] at h0
    have ht : fetchWords s (a + 1) i.operands.length = .got i.operands := by
      rw [fetchWords_got]
      intro j hj
      have := hw (j + 1) (by simpa [encode] using hj)
      simpa [encode, add_assoc, add_comm, add_left_comm] using this
    have hb' := hb []
    rw [List.append_nil] at hb'
    unfold decodeAt
    simp only [h0, hsh, hleg, hl, if_true, hc, ht, hb']

theorem decodeAt_legal {s : State} {a : Int} {i : Instr} (h : decodeAt s a = .instr i) :
    i.legalIn s.launch.mode = true := (decodeAt_instr.1 h).1

/-- A decode-stage fault has a code. -/
theorem decodeAt_fault_code {s : State} {a : Int} {c : FaultCode} {w : Word} (h : decodeAt s a = .fault c w) :
    c ≠ .none := by
  unfold decodeAt at h
  repeat' split at h
  all_goals cases h
  all_goals decide

theorem fetchWord_congr {s t : State} (hl : t.launch.progLen = s.launch.progLen) (hp : t.program = s.program)
    (i : Int) : fetchWord t i = fetchWord s i := by
  unfold fetchWord
  rw [hl, hp]

theorem fetchWords_congr {s t : State} (hl : t.launch.progLen = s.launch.progLen) (hp : t.program = s.program)
    (n : Nat) : ∀ i, fetchWords t i n = fetchWords s i n := by
  induction n with
  | zero => intro i; rfl
  | succ n ih => intro i; simp only [fetchWords, fetchWord_congr hl hp, ih]

/-- Fetch and decode read the program, PROG_LEN and the mode of the launch, and nothing else (30_encoding.md R94,
20_memory.md R61). -/
theorem decodeAt_congr {s t : State} (hm : t.launch.mode = s.launch.mode) (hl : t.launch.progLen = s.launch.progLen)
    (hp : t.program = s.program) (a : Int) : decodeAt t a = decodeAt s a := by
  unfold decodeAt
  simp only [fetchWord_congr hl hp, fetchWords_congr hl hp, hm]

/-- Whether the port holds a lane's next step depends on fetch and decode, the lane, and the port (10_state.md R58). -/
theorem held_congr {s t : State} (hm : t.launch.mode = s.launch.mode) (hl : t.launch.progLen = s.launch.progLen)
    (hp : t.program = s.program) (ho : t.out.length = s.out.length) (hd : t.cfg.outDepth = s.cfg.outDepth) {k : Nat}
    (hk : t.lane k = s.lane k) : t.held k = s.held k := by
  unfold State.held State.noRoom
  rw [decodeAt_congr hm hl hp, hk, ho, hd]

/-! ### One step -/

/-- What a step of the instance in slot `s.cur` can do: a decode-stage fault, nothing while the port holds it, or what
its instruction does after the TRACE record. -/
theorem stepInstance_next {s t : State} (h : stepInstance s = .next t) :
    (∃ c w, c ≠ FaultCode.none ∧ decodeAt s s.me.ip.toInt = .fault c w ∧ t = raise c w s) ∨
    (∃ i, decodeAt s s.me.ip.toInt = .instr i ∧
      (s.noRoom i s.me = true ∧ t = s ∨ s.noRoom i s.me = false ∧ exec i (s.traced i) = .next t)) := by
  unfold stepInstance at h
  split at h
  · cases h
  · rename_i c w hd
    cases h
    exact .inl ⟨c, w, decodeAt_fault_code hd, hd, rfl⟩
  · rename_i i hd
    refine .inr ⟨i, hd, ?_⟩
    split at h
    · rename_i hr
      cases h
      exact .inl ⟨hr, rfl⟩
    · rename_i hr
      exact .inr ⟨by simpa using hr, h⟩

theorem stepLane_next {l : Nat} {s t : State} (h : stepLane l s = .next t) :
    t = s ∨ s.runState = .running ∧ (s.lane l).status = .running ∧ stepInstance { s with cur := l } = .next t := by
  unfold stepLane at h
  split at h
  · rename_i hc
    exact .inr ⟨hc.1, by simpa [State.active] using hc.2, h⟩
  · cases h
    exact .inl rfl

/-- Everything one step of the block can do. -/
theorem step_next {s t : State} (h : step s = .next t) :
    (s.completionDue = true ∧ t = s.complete) ∨
    (s.completionDue = false ∧ ∃ e rest, s.agenda = e :: rest ∧ handle e { s with agenda := rest } = .next t) ∨
    (s.completionDue = false ∧ s.agenda = [] ∧ (s.pick = none ∧ t = s ∨ ∃ l, s.pick = some l ∧ stepLane l s = .next t)) := by
  unfold step blockStep at h
  split at h
  · rename_i hc
    cases h
    exact .inl ⟨hc, rfl⟩
  · rename_i hc
    have hc' : s.completionDue = false := by simpa using hc
    split at h
    · rename_i e rest ha
      exact .inr (.inl ⟨hc', e, rest, ha, h⟩)
    · rename_i ha
      split at h
      · rename_i l hp
        exact .inr (.inr ⟨hc', ha, .inr ⟨l, hp, h⟩⟩)
      · rename_i hp
        cases h
        exact .inr (.inr ⟨hc', ha, .inl ⟨hp, rfl⟩⟩)

theorem stepInstance_not_refused {s : State} {r : Refusal} : stepInstance s ≠ .refused r := by
  intro h
  unfold stepInstance at h
  split at h
  · cases h
  · cases h
  · split at h
    · cases h
    · exact exec_not_refused h

theorem stepLane_not_refused {l : Nat} {s : State} {r : Refusal} : stepLane l s ≠ .refused r := by
  intro h
  unfold stepLane at h
  split at h
  · exact stepInstance_not_refused h
  · cases h

/-- No step refuses. -/
theorem step_not_refused {s : State} {r : Refusal} : step s ≠ .refused r := by
  intro h
  unfold step blockStep at h
  split at h
  · cases h
  · split at h
    · rename_i e rest ha
      cases e <;> simp only [handle] at h <;> first
        | exact stepLane_not_refused h
        | cases h
    · split at h
      · exact stepLane_not_refused h
      · cases h

/-- A step that stops is the step of a running instance. -/
theorem step_fault {s : State} {r : Fault} (h : step s = .fault r) :
    ∃ l rest, s.runState = .running ∧ (s.lane l).status = .running ∧
      stepInstance { s with agenda := rest, cur := l } = .fault r := by
  unfold step blockStep at h
  split at h
  · cases h
  · split at h
    · rename_i e rest ha
      cases e <;> simp only [handle] at h <;> try cases h
      rename_i l
      unfold stepLane at h
      split at h
      · rename_i hc
        exact ⟨l, rest, hc.1, by simpa [State.active, State.lane] using hc.2, h⟩
      · cases h
    · rename_i ha
      split at h
      · rename_i l hp
        unfold stepLane at h
        split at h
        · rename_i hc
          refine ⟨l, s.agenda, hc.1, by simpa [State.active, State.lane] using hc.2, h⟩
        · cases h
      · cases h

end Sys2Proof.Machine
end

