-- ==== Sys2Proof/Laws/Claims.lean ====
section
/-! SUPPORT. When the words of Safety.lean hold, said once for the shared operations. -/

namespace Sys2Proof.Machine

theorem State.cur_lt (s : State) (h : s.me.status = .running) : s.cur < s.lanes.length := s.lt_of_running s.cur h

theorem writesLane_setMe {s : State} (L : Lane) (h : s.me.status = .running) :
    WritesLane (.next (s.setMe L)) s L :=
  ⟨s.setMe L, rfl, s.me_setMe L (s.cur_lt h), fun l hl => s.lane_setMe_ne l L hl, fun _ => rfl, fun _ _ => rfl, rfl⟩

theorem writesLane_retire {s : State} {i : Instr} {L : Lane} (h : s.me.status = .running) :
    WritesLane (retire i L s) s { L with ip := s.me.ip + BitVec.ofNat 32 i.length } :=
  writesLane_setMe _ h

theorem writesLane_jump {s : State} {target : Word} {L : Lane} (h : s.me.status = .running) :
    WritesLane (jump target L s) s { L with ip := target } :=
  writesLane_setMe _ h

theorem faultsWith_raise {s : State} (c : FaultCode) (word : Word) (h : s.me.status = .running) :
    FaultsWith (.next (raise c word s)) s c word :=
  writesLane_setMe _ h

theorem faultsWith_trap {s : State} {c : FaultCode} {i : Instr} (h : s.me.status = .running) :
    FaultsWith (trap c i s) s c i.opcode :=
  writesLane_setMe _ h

theorem writesLaneAndHeap_retire {s : State} {i : Instr} {L : Lane} {a k : Nat} {v : Word}
    (h : s.me.status = .running) (ha : a < s.heaps.length) :
    WritesLaneAndHeap (retire i L (s.heapWrite a k v)) s { L with ip := s.me.ip + BitVec.ofNat 32 i.length } a k v :=
  ⟨(s.heapWrite a k v).setMe { L with ip := s.me.ip + BitVec.ofNat 32 i.length }, rfl,
    State.me_setMe _ _ (s.cur_lt h), fun l hl => State.lane_setMe_ne _ l _ hl, fun _ => rfl,
    s.heapRead_heapWrite_self a k v ha, fun b j hne => s.heapRead_heapWrite_ne a k b j v hne, rfl⟩

theorem pushWord_room {s : State} {i : Instr} {v : Word} (h : s.me.stack.length < s.launch.stackCap.toNat) :
    pushWord i v s = retire i { s.me with stack := s.me.stack ++ [v] } s := by
  unfold pushWord
  rw [if_pos]
  simpa [State.roomFor] using h

theorem pushWord_full {s : State} {i : Instr} {v : Word} (h : s.launch.stackCap.toNat ≤ s.me.stack.length) :
    pushWord i v s = trap .stackOverflow i s := by
  unfold pushWord
  rw [if_neg]
  simp only [State.roomFor, decide_eq_true_eq]
  omega

theorem roomFor_one {s : State} (h : s.me.stack.length < s.launch.stackCap.toNat) : s.roomFor 1 = true := by
  simpa [State.roomFor] using h

theorem roomFor_false {s : State} {n : Nat} (h : s.launch.stackCap.toNat < s.me.stack.length + n) :
    s.roomFor n = false := by
  simpa [State.roomFor] using h

/-- Without a conflict a lane's read gets the word that stands there. -/
theorem laneRead_noConflict {s : State} {h k : Nat} {v : Word} (hc : s.conflicts s.cur h k false = false) :
    s.laneRead h k v = (v, { s with accesses := ⟨s.cur, h, k, false, some v, v⟩ :: s.accesses }) := by
  simp [State.laneRead, hc]

theorem laneWrite_noConflict {s : State} {h k : Nat} {v : Word} (hc : s.conflicts s.cur h k true = false) :
    s.laneWrite h k v =
      { s.heapWrite h k v with accesses := ⟨s.cur, h, k, true, s.heapRead h k, v⟩ :: s.accesses } := by
  simp [State.laneWrite, hc]

theorem racedWord_mem (v : Word) (others : List Word) (draw : Nat) : racedWord v others draw ∈ v :: others := by
  unfold racedWord
  have hlt : Config.racePick draw % (others.length + 1) < (v :: others).length := by
    simpa using Nat.mod_lt _ (Nat.succ_pos _)
  rw [List.getD_eq_getElem _ _ hlt]
  exact List.getElem_mem hlt

theorem conflicts_eq_false {s : State} {l h i : Nat} {w : Bool} :
    s.conflicts l h i w = false ↔
      ∀ a ∈ s.accesses, a.lane ≠ l → a.heap = h → a.index = i → w = false ∧ a.write = false := by
  simp only [State.conflicts, List.any_eq_false, Bool.and_eq_true, bne_iff_ne, ne_eq, beq_iff_eq, Bool.or_eq_true,
    not_and, not_or, Bool.not_eq_true, and_imp]

theorem conflicts_eq_true {s : State} {l h i : Nat} {w : Bool} :
    s.conflicts l h i w = true ↔
      ∃ a ∈ s.accesses, a.lane ≠ l ∧ a.heap = h ∧ a.index = i ∧ (w = true ∨ a.write = true) := by
  simp [State.conflicts, and_assoc]

end Sys2Proof.Machine
end

