-- ==== Sys2Proof/Laws/Flags.lean ====
section
/-! SUPPORT. The shifts of 40_const_arith.md R115, R116 as the shifts of the bit-vector library. -/

namespace Sys2Proof.Machine

theorem lshiftResult_eq (a : Word) : lshiftResult a = a <<< 1 := by
  apply BitVec.eq_of_getLsbD_eq
  intro i hi
  simp only [lshiftResult, BitVec.getLsbD_shiftLeft, BitVec.getLsbD_append, BitVec.getLsbD_extractLsb']
  rcases i with _ | i
  · simp
  · simp [hi]; omega

theorem rshiftResult_eq (a : Word) : rshiftResult a = a.sshiftRight 1 := by
  apply BitVec.eq_of_getLsbD_eq
  intro i hi
  simp only [rshiftResult, BitVec.getLsbD_sshiftRight, BitVec.getLsbD_append, BitVec.getLsbD_extractLsb']
  by_cases h31 : i < 31
  · have h1 : 1 + i < 32 := by omega
    have h2 : ¬ 32 ≤ i := by omega
    simp [h31, h1, h2]
  · have : i = 31 := by omega
    subst this
    simp [BitVec.msb_eq_getLsbD_last]

end Sys2Proof.Machine
end

