-- ==== Sys2Proof/Laws/Frame.lean ====
section
/-! SUPPORT. What a meaning, a lane's step and a host write leave alone, said once over the whole state. -/

namespace Sys2Proof.Machine

/-- Everything outside the lanes that a lane's step can write, put back: equal states differ at most there. -/
theorem stepBase_frame {s u : State} {i : Instr} (h : StepBase s i u) :
    { u with heaps := s.heaps, out := s.out, accesses := s.accesses, race := s.race, draws := s.draws } = s := by
  cases h <;> try rfl
  · unfold State.laneRead; split <;> rfl
  · unfold State.laneWrite; split <;> rfl

theorem stepBase_lanes {s u : State} {i : Instr} (h : StepBase s i u) : u.lanes = s.lanes ∧ u.cur = s.cur := by
  cases h <;> try exact ⟨rfl, rfl⟩
  · unfold State.laneRead; split <;> exact ⟨rfl, rfl⟩
  · unfold State.laneWrite; split <;> exact ⟨rfl, rfl⟩

/-- A meaning writes no lane but the one that steps, and of the rest only heaps, port and the race record. -/
theorem exec_frame {i : Instr} {s t : State} (h : exec i s = .next t) :
    (∃ L, t.lanes = s.lanes.set s.cur L) ∧
    { t with
      lanes := s.lanes, heaps := s.heaps, out := s.out, accesses := s.accesses, race := s.race, draws := s.draws } =
      s := by
  rcases exec_next h with ⟨c, -, rfl⟩ | ⟨u, L, hb, -, rfl⟩
  · exact ⟨⟨_, rfl⟩, rfl⟩
  · obtain ⟨hl, hc⟩ := stepBase_lanes hb
    refine ⟨⟨L, by simp [State.setMe, State.setLane, hl, hc]⟩, ?_⟩
    have := stepBase_frame hb
    rw [← hl] at *
    exact this

/-- The same of one step of the instance in slot `s.cur`. -/
theorem stepInstance_frame {s t : State} (h : stepInstance s = .next t) :
    (∃ L, t.lanes = s.lanes.set s.cur L) ∧
    { t with
      lanes := s.lanes, heaps := s.heaps, out := s.out, accesses := s.accesses, race := s.race, draws := s.draws } =
      s := by
  rcases stepInstance_next h with ⟨c, w, -, -, rfl⟩ | ⟨i, -, ⟨-, rfl⟩ | ⟨-, he⟩⟩
  · exact ⟨⟨_, rfl⟩, rfl⟩
  · refine ⟨⟨t.lanes.getD t.cur (Lane.inactive 0), ?_⟩, rfl⟩
    by_cases hc : t.cur < t.lanes.length
    · simp [List.getD_eq_getElem?_getD, hc]
    · rw [List.set_eq_of_length_le (Nat.le_of_not_lt hc)]
  · have := exec_frame he
    unfold State.traced at this
    split at this
    · exact ⟨this.1, congrArg (fun u : State => { u with out := s.out }) this.2⟩
    · exact this

/-- The same of a dispatcher's step of slot `l`. -/
theorem stepLane_frame {l : Nat} {s t : State} (h : stepLane l s = .next t) :
    (∃ L, t.lanes = s.lanes.set l L) ∧
    { t with
      lanes := s.lanes, heaps := s.heaps, out := s.out, accesses := s.accesses, race := s.race, draws := s.draws,
      cur := s.cur } = s := by
  rcases stepLane_next h with rfl | ⟨-, -, hi⟩
  · refine ⟨⟨t.lanes.getD l (Lane.inactive 0), ?_⟩, rfl⟩
    by_cases hc : l < t.lanes.length
    · simp [List.getD_eq_getElem?_getD, hc]
    · rw [List.set_eq_of_length_le (Nat.le_of_not_lt hc)]
  · obtain ⟨hl, hf⟩ := stepInstance_frame hi
    exact ⟨hl, congrArg (fun u : State => { u with cur := s.cur }) hf⟩

/-- Another slot than the one set. -/
theorem State.lane_of_set {s t : State} {l k : Nat} {L : Lane} (h : t.lanes = s.lanes.set l L) (hk : k ≠ l) :
    t.lane k = s.lane k := by
  simp [State.lane, List.getD_eq_getElem?_getD, h, List.getElem?_set_ne (Ne.symm hk)]

/-- During a launch a host write sets LANE_SEL, sets WRITE_DROPPED, or does nothing (10_state.md R52). -/
theorem busWrite_running {s : State} (h : s.runState = .running) (addr : Nat) (data : List Byte) :
    (∃ v, s.busWrite addr data = { s with laneSel := v }) ∨ s.busWrite addr data = { s with writeDropped := true } ∨
      s.busWrite addr data = s := by
  unfold State.busWrite
  split
  · exact .inr (.inr rfl)
  · split
    · dsimp only
      split
      · unfold State.writeReg
        split
        · exact .inl ⟨_, rfl⟩
        · split
          · exact .inr (.inl (by simp [h]))
          · exact .inr (.inr rfl)
      · exact .inr (.inl (by simp [h]))
      · exact .inr (.inl (by simp [h]))
    · exact .inr (.inr rfl)

/-- A host read changes the model's own bookkeeping alone (log 11, log 13). -/
theorem busRead_frame (s : State) (addr width : Nat) :
    { s.busRead addr width with busData := s.busData, cycles := s.cycles, draws := s.draws } = s := by
  unfold State.busRead
  split
  · rfl
  · split
    · dsimp only
      unfold State.answer
      split <;> try rfl
      all_goals (unfold State.lookAtCycles; split <;> rfl)
    · rfl

end Sys2Proof.Machine
end

