-- ==== Sys2Proof/Laws/HostBus.lean ====
section
/-! SUPPORT. The bus read both ways: bytes and words, addresses and windows, the register banks. -/

namespace Sys2Proof.Machine

/-- The bytes of the word four bytes make are those bytes, in either byte order (20_memory.md R70). -/
theorem bytesOfWord_wordOfBytes (o : ByteOrder) (a b c d : Byte) :
    bytesOfWord o (wordOfBytes o [a, b, c, d]) = [a, b, c, d] := by
  cases o
  all_goals
    simp only [bytesOfWord, wordOfBytes, List.getD_cons_zero, List.getD_cons_succ, List.cons.injEq, and_true]
    refine ⟨?_, ?_, ?_, ?_⟩
    all_goals
      apply BitVec.eq_of_getLsbD_eq
      intro i hi
      simp only [BitVec.getLsbD_extractLsb', BitVec.getLsbD_append]
      interval_cases i <;> rfl

/-- The word that a word's bytes make is that word, in either byte order (20_memory.md R70). -/
theorem wordOfBytes_bytesOfWord (o : ByteOrder) (v : Word) : wordOfBytes o (bytesOfWord o v) = v := by
  cases o
  all_goals
    simp only [bytesOfWord, wordOfBytes, List.getD_cons_zero, List.getD_cons_succ]
    apply BitVec.eq_of_getLsbD_eq
    intro i hi
    simp only [BitVec.getLsbD_extractLsb', BitVec.getLsbD_append]
    interval_cases i <;> rfl

@[simp] theorem length_bytesOfWord (o : ByteOrder) (v : Word) : (bytesOfWord o v).length = 4 := by cases o <;> rfl

/-- An address in a heap window names a heap slot, at an offset within its words. -/
theorem locate_heap {p : Params} {a h off : Nat} (hl : locate p a = some (.heap h, off)) :
    h < p.numHeaps ∧ off < 4 * p.maxHeapWords := by
  unfold locate at hl
  split at hl
  · cases hl
  · split at hl
    · cases hl
    · rw [List.findSome?_eq_some_iff] at hl
      obtain ⟨l1, x, l2, h1, h2, -⟩ := hl
      rw [Option.map_eq_some_iff] at h2
      obtain ⟨o, h4, h5⟩ := h2
      simp only [Prod.mk.injEq, Window.heap.injEq] at h5
      obtain ⟨rfl, rfl⟩ := h5
      have hx : x ∈ List.range p.numHeaps := by rw [h1]; simp
      unfold offsetIn? at h4
      split at h4
      · cases h4; exact ⟨by simpa using hx, by omega⟩
      · cases h4

/-- An address in the program window has an offset within its words. -/
theorem locate_program {p : Params} {a off : Nat} (hl : locate p a = some (.program, off)) :
    off < 4 * p.progCap := by
  unfold locate at hl
  split at hl
  · cases hl
  · split at hl
    · rename_i h4
      unfold offsetIn? at h4
      split at h4
      · cases h4; cases hl; omega
      · cases h4
    · rw [List.findSome?_eq_some_iff] at hl
      obtain ⟨l1, x, l2, -, h2, -⟩ := hl
      rw [Option.map_eq_some_iff] at h2
      obtain ⟨o, -, h5⟩ := h2
      cases h5

/-- Away from the single registers, a register reads its bank or 0 (10_state.md R38, R50). -/
theorem readReg_bank (s : State) {off : Nat} (h1 : 60 ≤ off) (h2 : off < 128 ∨ 168 ≤ off) :
    s.readReg off =
      if 0x040 ≤ off ∧ off < 0x040 + 4 * s.cfg.numHeaps then .value (s.heapCaps.getD ((off - 0x040) / 4) 0)
      else if 0x1000 ≤ off ∧ off < 0x1000 + 4 * s.cfg.maxStackCap then
        s.laneView (stackCellRead ((off - 0x1000) / 4))
      else .value 0 := by
  unfold State.readReg
  split
  any_goals omega
  rfl

/-- LANE_STACK[i] is the view of cell i of the selected slot (10_state.md R48). -/
theorem readReg_laneStack (s : State) {i : Nat} (h16 : s.cfg.numHeaps ≤ 16) (hi : i < s.cfg.maxStackCap) :
    s.readReg (0x1000 + 4 * i) = s.laneView (stackCellRead i) := by
  rw [readReg_bank s (by omega) (by omega), if_neg (by omega), if_pos (by omega)]
  congr 2
  omega

/-- The slots a launch gives an instance: slot 0 in SEQ, the slots below LANE_COUNT in LANE (70 R176). -/
theorem freshLanes_getElem? (c : Launch) (l : Nat) :
    (freshLanes c)[l]? = if l < (if c.mode = .lane then c.laneCount.toNat else 1) then some (freshLane c l) else none := by
  have h (n : Nat) : ((List.range n).map (freshLane c))[l]? = if l < n then some (freshLane c l) else none := by
    rw [List.getElem?_map]
    split
    · rw [List.getElem?_range ‹_›]; rfl
    · rw [List.getElem?_eq_none (by simp only [List.length_range]; omega)]; rfl
  unfold freshLanes
  rw [h]
  cases c.mode <;> rfl

end Sys2Proof.Machine
end

