-- ==== Sys2Proof/Tests/Slice0.lean ====
section
/-! SUPPORT. Tests: the vectors of spec/95_test_vectors.md (each theorem names its own), words written out from the opcode
map of 30_encoding.md R92, and, for every statement with hypotheses, a state that meets them (`witness_…`). -/

namespace Sys2Proof.Tests

open Sys2Proof.Machine

/-! ### Small states -/

/-- A launch in mode `m` with program `prog` at word 0, STACK_CAP 64 and HEAP_CAP 4, in which only the lane of slot
`lane` runs, at ip 0 with that stack. H0 = 10 20 30 40, H1 = 0 1 2 3; of H2 only the word at 3 holds a value, 5. -/
def box (m : Mode) (prog : List Int) (lane : Nat) (stack : List Int) : State :=
  { State.reset with
    runState := .running
    launch := { mode := m, traceEn := false, entry := 0, progLen := 40, stackCap := 64, laneCount := 4, groupSize := 2,
                heapCaps := [4, 4, 4] }
    lanes := (List.range 4).map fun l =>
      { Lane.inactive l with
        status := if l = lane then .running else .halted
        stack := if l = lane then stack.map wrap32 else [] }
    program := prog.zipIdx.map fun c => (c.2, wrap32 c.1)
    heaps := [[(0, 10), (1, 20), (2, 30), (3, 40)], [(0, 0), (1, 1), (2, 2), (3, 3)], [(3, 5)]]
    cur := lane }

/-- Another STACK_CAP. -/
def capped (cap : Nat) (s : State) : State := { s with launch := { s.launch with stackCap := BitVec.ofNat 32 cap } }

/-- Another ip, fp and depth for the lane that steps. -/
def at_ (ip fp depth : Int) (s : State) : State :=
  s.setMe { s.me with ip := wrap32 ip, fp := wrap32 fp, depth := wrap32 depth }

/-- The lane that steps traces. -/
def tracing (s : State) : State := s.setMe { s.me with trace := true }

/-- Status, stack, ip and fault code of the lane that stepped. -/
def see (r : Result) : Option (Status × List Int × Int × FaultCode) :=
  match r with
  | .next t => some (t.me.status, t.me.stack.map BitVec.toInt, t.me.ip.toInt, t.me.faultCode)
  | .fault _ => none
  | .refused _ => none

/-- Anything of the next state. -/
def look {α : Type} (f : State → α) (r : Result) : Option α :=
  match r with
  | .next t => some (f t)
  | .fault _ => none
  | .refused _ => none

/-! ### Decoding: words written out from R92 -/

theorem test_decode_arith :
    decode [0x00000001] = .ok (.iadd, []) ∧ decode [0x00000002] = .ok (.isub, []) ∧
    decode [0x00000003] = .ok (.imul, []) ∧ decode [0x00000004] = .ok (.ilt, []) ∧
    decode [0x00000005] = .ok (.ieq, []) ∧ decode [0x00000014] = .ok (.idiv, []) ∧
    decode [0x00000015] = .ok (.lshift, []) ∧ decode [0x00000016] = .ok (.rshift, []) ∧
    decode [0x00000009, 0x80000000] = .ok (.iconst intMin, []) ∧ decode [0x00000017] = .ok (.iconst1, []) :=
  ⟨rfl, rfl, rfl, rfl, rfl, rfl, rfl, rfl, rfl, rfl⟩

theorem test_decode_stack_output :
    decode [0x00000013, 0x0000000F] = .ok (.dup, [15]) ∧ decode [0x0000000F] = .ok (.pop, []) ∧
    decode [0x0000000E] = .ok (.print, []) ∧ decode [0x00000010] = .ok (.halt, []) := ⟨rfl, rfl, rfl, rfl⟩

theorem test_decode_branch_call :
    decode [0x00000006, 0x00000008] = .ok (.br 8, []) ∧ decode [0x00000007, 0xFFFFFFFF] = .ok (.brt (-1), []) ∧
    decode [0x00000008, 0x0000001E] = .ok (.brf 30, []) ∧
    decode [0x00000011, 0x00000006, 0x00000002] = .ok (.call 6 2, []) ∧ decode [0x00000012] = .ok (.ret, []) :=
  ⟨rfl, rfl, rfl, rfl, rfl⟩

theorem test_decode_frame_heap :
    decode [0x0000000A, 0xFFFFFFFD] = .ok (.load (-3), []) ∧ decode [0x0000000C, 0x00000001] = .ok (.store 1, []) ∧
    decode [0x0000000B, 0x00000003] = .ok (.gload 3, []) ∧ decode [0x0000000D, 0x00000002] = .ok (.gstore 2, []) ∧
    decode [0x00000018, 0xFFFFFFFE] = .ok (.gloadIndexed (-2), []) ∧
    decode [0x00000019, 0x00000005] = .ok (.gstoreIndexed 5, []) := ⟨rfl, rfl, rfl, rfl, rfl, rfl⟩

theorem test_decode_lane :
    decode [0x0000001A] = .ok (.threadId, []) ∧
    decode [0x0000001B, 0x00000001] = .ok (.parallelGloadIndexed 1, []) ∧
    decode [0x0000001C, 0x00000002] = .ok (.parallelGstoreIndexed 2, []) := ⟨rfl, rfl, rfl⟩

/-- E1 to E3, R95: no other opcode word is an instruction, whatever its low bits; E10: a missing operand word. -/
theorem test_decode_refuses :
    decode [0] = .error (.unknownOpcode 0) ∧ decode [29] = .error (.unknownOpcode 29) ∧
    decode [0xFFFFFFFF] = .error (.unknownOpcode 0xFFFFFFFF) ∧
    decode [0x00010001] = .error (.unknownOpcode 0x00010001) ∧ decode [0x11, 0] = .error .truncated :=
  ⟨rfl, rfl, rfl, rfl, rfl⟩

/-- The opcode table's numbering of bits: the second word is bits 63 to 32. -/
theorem test_decodeTableWord :
    decodeTableWord 96 0x000000020000000600000011 = some (.call 6 2) ∧
    decodeTableWord 64 0xFFFFFFFD0000000A = some (.load (-3)) ∧ decodeTableWord 32 0x0000000A = some (.load 0) ∧
    decodeTableWord 32 0x0000001D = none := by decide

/-! ### Well-formedness: an ill-formed term for each check -/

theorem test_legalIn_refuses :
    Instr.threadId.legalIn .seq = false ∧ (Instr.parallelGloadIndexed 0).legalIn .seq = false ∧
    (Instr.parallelGstoreIndexed 0).legalIn .seq = false ∧ (Instr.gload 0).legalIn .lane = false ∧
    (Instr.gstore 0).legalIn .lane = false ∧ (Instr.gloadIndexed 0).legalIn .lane = false ∧
    (Instr.gstoreIndexed 0).legalIn .lane = false := by decide

theorem test_params_wf : Params.reference.wf = true := by decide

theorem test_params_wf_refuses :
    ({ Params.reference with numHeaps := 0, heapWindowBase := [] }).wf = false ∧
    ({ Params.reference with numHeaps := 17, heapWindowBase := List.replicate 17 0 }).wf = false ∧
    ({ Params.reference with progCap := 0 }).wf = false ∧ ({ Params.reference with progCap := 2 ^ 31 }).wf = false ∧
    ({ Params.reference with maxStackCap := 0 }).wf = false ∧
    ({ Params.reference with maxStackCap := 2 ^ 31 }).wf = false ∧
    ({ Params.reference with maxHeapWords := 0 }).wf = false ∧
    ({ Params.reference with maxHeapWords := 2 ^ 31 }).wf = false ∧
    ({ Params.reference with maxLanes := 0 }).wf = false ∧ ({ Params.reference with maxLanes := 2 ^ 31 }).wf = false ∧
    ({ Params.reference with maxGroupSize := 0, groupPolicy := 0 }).wf = false ∧
    ({ Params.reference with maxGroupSize := 2 ^ 32 }).wf = false ∧
    ({ Params.reference with outDepth := 1 }).wf = false ∧ ({ Params.reference with outDepth := 2 ^ 32 }).wf = false ∧
    ({ Params.reference with groupPolicy := 0 }).wf = false ∧
    ({ Params.reference with groupPolicy := 257 }).wf = false ∧
    ({ Params.reference with heapWindowBase := [0] }).wf = false := by decide

theorem test_memory_wf_refuses :
    Memory.wf [(3, 1), (2, 1)] = false ∧ Memory.wf [(2, 1), (2, 1)] = false ∧ Memory.wf [(2, 1), (5, 0)] = true := by
  decide

/-! ### Constants and arithmetic: A vectors -/

theorem test_iconst_A2 : see (step (box .seq [9, -2147483648] 0 [])) = some (.running, [-2147483648], 2, .none) := by
  decide

theorem test_iconst_A4 : see (exec (.iconst 0) (capped 1 (box .seq [] 0 [7]))) =
    some (.faulted, [7], 0, .stackOverflow) := by decide

theorem test_iconst1_A3 : see (step (box .lane [23] 0 [])) = some (.running, [1], 1, .none) := by decide

theorem test_iconst1_A5 : see (step (capped 0 (box .seq [23] 0 []))) = some (.faulted, [], 0, .stackOverflow) := by decide

theorem test_iadd_A7 : see (step (box .seq [1] 0 [9, 1, 2147483647])) = some (.running, [9, -2147483648], 1, .none) := by
  decide

theorem test_iadd_A9 : see (step (box .seq [1] 0 [5])) = some (.faulted, [5], 0, .stackUnderflow) := by decide

theorem test_isub_A10 : see (step (box .seq [2] 0 [3, 10])) = some (.running, [7], 1, .none) := by decide

theorem test_isub_A12 : see (step (box .seq [2] 0 [1, -2147483648])) = some (.running, [2147483647], 1, .none) := by decide

theorem test_imul_A18 : see (step (box .seq [3] 0 [46341, 46341])) = some (.running, [-2147479015], 1, .none) := by decide

theorem test_imul_A17 : see (step (box .seq [3] 0 [-1, -2147483648])) = some (.running, [-2147483648], 1, .none) := by
  decide

theorem test_idiv_A21_A24 :
    see (step (box .seq [20] 0 [2, -7])) = some (.running, [-3], 1, .none) ∧
    see (step (box .seq [20] 0 [-1, -2147483648])) = some (.running, [-2147483648], 1, .none) := by decide

theorem test_idiv_A27 : see (step (box .seq [20] 0 [0, 5])) = some (.faulted, [0, 5], 0, .divisionByZero) := by decide

theorem test_ilt_A33 : see (step (box .seq [4] 0 [0, -1])) = some (.running, [1], 1, .none) := by decide

theorem test_ilt_A30_A32 :
    see (step (box .seq [4] 0 [6, 1])) = some (.running, [1], 1, .none) ∧
    see (step (box .seq [4] 0 [4, 4])) = some (.running, [0], 1, .none) := by decide

theorem test_ieq_A37_A38 :
    see (step (box .seq [5] 0 [5, 6])) = some (.running, [0], 1, .none) ∧
    see (step (box .seq [5] 0 [-2147483648, -2147483648])) = some (.running, [1], 1, .none) := by decide

theorem test_lshift_A40_A43 :
    see (step (box .seq [21] 0 [0x40000000])) = some (.running, [-2147483648], 1, .none) ∧
    see (step (box .seq [21] 0 [2147483647])) = some (.running, [-2], 1, .none) := by decide

theorem test_rshift_A47_A49 :
    see (step (box .seq [22] 0 [-3])) = some (.running, [-2], 1, .none) ∧
    see (step (box .seq [22] 0 [-2147483648])) = some (.running, [-1073741824], 1, .none) := by decide

/-! ### Stack: K vectors -/

theorem test_dup_K1 : see (step (box .seq [19] 0 [200])) = some (.running, [200, 200], 1, .none) := by decide

theorem test_dup_K3_K4 :
    see (step (capped 0 (box .seq [19] 0 []))) = some (.faulted, [], 0, .stackUnderflow) ∧
    see (step (capped 1 (box .seq [19] 0 [9]))) = some (.faulted, [9], 0, .stackOverflow) := by decide

theorem test_pop_K5_K7 :
    see (step (box .seq [15] 0 [7, 9])) = some (.running, [7], 1, .none) ∧
    see (step (box .seq [15] 0 [])) = some (.faulted, [], 0, .stackUnderflow) := by decide

/-! ### Branches: B vectors, at address 4 -/

theorem test_br_B3 : see (exec (.br 100) (at_ 4 0 0 (box .seq [] 0 []))) = some (.running, [], 100, .none) := by decide

theorem test_br_B3_then : see (step (at_ 100 0 0 (box .seq [] 0 []))) = some (.faulted, [], 100, .ipOutOfRange) := by decide

theorem test_brt_B4_B5 :
    see (exec (.brt 12) (at_ 4 0 0 (box .seq [] 0 [3, 1]))) = some (.running, [3], 12, .none) ∧
    see (exec (.brt 12) (at_ 4 0 0 (box .seq [] 0 [3, 2]))) = some (.running, [3], 6, .none) := by decide

theorem test_brf_B8_B10 :
    see (exec (.brf 30) (at_ 4 0 0 (box .seq [] 0 [0]))) = some (.running, [], 30, .none) ∧
    see (exec (.brf 30) (at_ 4 0 0 (box .seq [] 0 [7]))) = some (.running, [], 6, .none) := by decide

/-! ### Frame and heap: M vectors -/

theorem test_load_M8 :
    see (step (at_ 0 3 0 (box .seq [10, -3] 0 [128, 1, 0, 11]))) = some (.running, [128, 1, 0, 11, 128], 2, .none) := by
  decide

theorem test_load_M3_M7 :
    see (step (box .seq [10, 2] 0 [5, 6])) = some (.faulted, [5, 6], 0, .stackIndexOutOfRange) ∧
    see (step (capped 2 (box .seq [10, 7] 0 [5, 6]))) = some (.faulted, [5, 6], 0, .stackIndexOutOfRange) := by decide

theorem test_store_M13 :
    see (step (at_ 0 3 1 (box .seq [12, -3] 0 [7, 1, 0, 11, 9]))) = some (.running, [9, 1, 0, 11], 2, .none) := by decide

theorem test_store_M10 : see (step (box .seq [12, 1] 0 [1, 2])) = some (.faulted, [1, 2], 0, .stackIndexOutOfRange) := by
  decide

theorem test_gload_M14 : see (step (box .seq [11, 3] 0 [])) = some (.running, [40], 2, .none) := by decide

theorem test_gload_M17 : see (step (capped 1 (box .seq [11, 9] 0 [1]))) = some (.faulted, [1], 0, .heapIndexOutOfRange) := by
  decide

theorem test_gstore_M19 :
    look (fun t => (t.heap 0, t.me.stack)) (step (box .seq [13, 2] 0 [5])) =
      some ([(0, 10), (1, 20), (2, 5), (3, 40)], []) := by decide

theorem test_gstore_M20 : see (step (box .seq [13, 4] 0 [5])) = some (.faulted, [5], 0, .heapIndexOutOfRange) := by decide

theorem test_gloadIndexed_M23 : see (step (box .seq [24, -2] 0 [5])) = some (.running, [40], 2, .none) := by decide

/-- The sum -2^32 is exact: it does not wrap to index 0. -/
theorem test_gloadIndexed_M25 :
    see (step (box .seq [24, -2147483648] 0 [-2147483648])) =
      some (.faulted, [-2147483648], 0, .heapIndexOutOfRange) := by decide

theorem test_gstoreIndexed_M27 :
    look (fun t => (t.heap 0, t.me.stack)) (step (box .seq [25, 2] 0 [1, 99])) =
      some ([(0, 10), (1, 20), (2, 30), (3, 99)], []) := by decide

theorem test_gstoreIndexed_M28 :
    see (step (box .seq [25, 1] 0 [3, 99])) = some (.faulted, [3, 99], 0, .heapIndexOutOfRange) := by decide

/-! ### Calls: C vectors -/

theorem test_call_C1 :
    look (fun t => (t.me.stack, t.me.fp, t.me.depth, t.me.ip)) (exec (.call 0 1) (at_ 8 0 0 (box .seq [] 0 [128]))) =
      some ([128, 1, 0, 11], 3, 1, 0) := by decide

theorem test_call_C5_C7 :
    see (step (capped 4 (box .seq [17, 0, 1] 0 [128]))) = some (.running, [128, 1, 0, 3], 0, .none) ∧
    see (step (capped 3 (box .seq [17, 0, 1] 0 [128]))) = some (.faulted, [128], 0, .stackOverflow) ∧
    see (step (capped 3 (box .seq [17, 0, 5] 0 [128]))) = some (.faulted, [128], 0, .malformedCallFrame) := by decide

theorem test_ret_C10 :
    look (fun t => (t.me.stack, t.me.fp, t.me.depth, t.me.ip)) (step (at_ 0 4 1 (box .seq [18] 0 [5, 6, 2, 0, 30, 1, 2, 3])))
      = some ([3], 0, 0, 30) := by decide

theorem test_ret_C13_C14_C15 :
    see (step (at_ 0 3 1 (box .seq [18] 0 [128, 1, 0, 11]))) =
      some (.faulted, [128, 1, 0, 11], 0, .malformedCallFrame) ∧
    see (step (at_ 0 3 1 (box .seq [18] 0 [128, 5, 0, 11, 256]))) =
      some (.faulted, [128, 5, 0, 11, 256], 0, .malformedCallFrame) ∧
    see (step (at_ 0 1 1 (box .seq [18] 0 [9, 9]))) = some (.faulted, [9, 9], 0, .malformedCallFrame) := by decide

/-! ### Output and halt: O vectors -/

theorem test_print_O2 :
    look (fun t => (t.me.stack, t.out)) (step (box .seq [14] 0 [-5])) = some ([], [.print 0 (-5)]) := by decide

/-- O4: the TRACE record comes before the fault, and no PRINT record. -/
theorem test_print_O4 :
    look (fun t => (t.me.faultCode, t.out)) (step (tracing (box .seq [14] 0 []))) =
      some (.stackUnderflow, [.trace 0 0 14 [] (-1) []]) := by decide

theorem test_halt_O6 :
    look (fun t => (t.me.status, t.me.ip, t.me.fp, t.me.depth)) (exec .halt (at_ 10 3 1 (box .seq [] 0 [1, 2]))) =
      some (.halted, 11, 3, 1) := by decide

/-! ### Lane instructions: L vectors -/

theorem test_threadId_L1 :
    look (fun t => t.me.stack) (exec .threadId (box .lane [] 3 [])) = some [3] := by decide

theorem test_threadId_E4 : see (step (box .seq [26] 0 [])) = some (.faulted, [], 0, .unknownOpcode) := by decide

theorem test_parallelGload_L4 :
    see (step (box .lane [27, 1] 2 [2, 2])) = some (.running, [2, 2], 2, .none) := by decide

theorem test_parallelGload_L7_L8_L9 :
    see (step (box .lane [27, 3] 0 [1])) = some (.faulted, [1], 0, .heapSelectorOutOfRange) ∧
    see (step (box .lane [27, -1] 0 [9])) = some (.faulted, [9], 0, .heapSelectorOutOfRange) ∧
    see (step (box .lane [27, 7] 0 [])) = some (.faulted, [], 0, .stackUnderflow) := by decide

theorem test_parallelGstore_L10 :
    look (fun t => (t.heap 2, t.me.stack, t.race)) (step (box .lane [28, 2] 3 [3, 9])) = some ([(3, 9)], [], false) := by
  decide

theorem test_parallelGstore_L11 :
    see (step (box .lane [28, 2] 0 [4, 9])) = some (.faulted, [4, 9], 0, .heapIndexOutOfRange) := by decide

/-- L14: the second lane to store at the same word makes a race. -/
theorem test_parallelGstore_L14 :
    look (fun t => t.race) (exec (.parallelGstoreIndexed 2)
      { box .lane [] 1 [0, 6] with accesses := [⟨0, 2, 0, true, none, 5⟩] }) = some true := by decide

/-! ### Decode stage: E vectors -/

theorem test_step_E8_E9 :
    see (step { box .seq [] 0 [] with launch := { (box .seq [] 0 []).launch with progLen := 0 } }) =
      some (.faulted, [], 0, .ipOutOfRange) ∧
    look (fun t => (t.me.faultCode, t.me.faultWord, t.out))
      (step { tracing (box .seq [9] 0 []) with launch := { (box .seq [] 0 []).launch with progLen := 1 } }) =
      some (.ipOutOfRange, 9, []) := by decide

/-- E14, E15: no TRACE record for a decode failure, one for an instruction that faults. -/
theorem test_step_E14_E15 :
    look (fun t => (t.me.faultCode, t.out)) (step (tracing (box .seq [29] 0 []))) = some (.unknownOpcode, []) ∧
    look (fun t => (t.me.faultCode, t.out)) (step (tracing (box .seq [4] 0 []))) =
      some (.stackUnderflow, [.trace 0 0 4 [] (-1) []]) := by decide

/-- The record S3's step 3 emits, and the state after it. -/
theorem test_step_S3 :
    look (fun t => (t.me.stack, t.out)) (step (tracing (at_ 0 3 1 (box .seq [10, -3] 0 [128, 1, 0, 11])))) =
      some ([128, 1, 0, 11, 128], [.trace 0 0 10 [-3] 3 [128, 1, 0, 11]]) := by decide

/-- 70 R180: a program word that holds no value stops the launch. -/
theorem test_step_noValue : step (box .seq [] 0 []) = .fault .programWordNoValue := rfl

/-! ### Launch, registers, reset: X vectors -/

/-- The host writes a little-endian word to the register file of the reference build. -/
def put (off : Nat) (v : Word) (s : State) : State := s.busWrite off (bytesOfWord .little v)

/-- X1: LANE_STATUS after DivisionByZero. -/
theorem test_lane_status_X1 :
    ({ Lane.inactive 0 with status := .faulted, faultCode := .divisionByZero }).statusWord = 0x00000703 := by decide

/-- X6, X10: STATUS after a refused START. -/
theorem test_launch_X6_X10 :
    (put 0 3 State.reset).statusWord = 0x00000013 ∧ (put 0 1 (put 0x10 257 State.reset)).statusWord = 0x00000043 := by
  decide

/-- X11, X12: mode SEQ checks heap 0 alone. -/
theorem test_launch_X11_X12 :
    (put 0 3 (put 0x14 4 (put 0x48 65537 State.reset))).launchErr = .heapCap ∧
    (put 0 1 (put 0x40 4 (put 0x48 65537 State.reset))).runState = .running := by decide

/-- X14, X15. -/
theorem test_writes_X14_X15 :
    (put 8 7 (box .seq [] 0 [])).statusWord = 9 ∧ (put 8 7 (box .seq [] 0 [])).entry = 0 ∧
    (put 0 1 (box .seq [] 0 [])).statusWord = 9 := by decide

/-- X16: LANE_SP of an unused slot. -/
theorem test_reset_X16 :
    (State.reset.busRead 0x08C 4).busData = [0xFF, 0xFF, 0xFF, 0xFF] ∧ State.reset.statusWord = 0 ∧
    State.reset.ctrlWord = 0 := by decide

/-- X17, X19. -/
theorem test_heapCmd_X17_X19 :
    (put 0x1C 0x21 (put 0x44 5 State.reset)).heap 1 = [(0, 0), (1, 1), (2, 2), (3, 3), (4, 4)] ∧
    put 0x1C 0x29 (put 0x44 5 State.reset) = put 0x44 5 State.reset := by decide

/-- X3: groups {0,1}, {2,3}, {4, masked 5}. -/
theorem test_groups_X3 :
    let s := { box .lane [] 0 [] with launch := { (box .lane [] 0 []).launch with laneCount := 5 } }
    s.groupCount = 3 ∧ s.groupPositions 2 = [4, 5] ∧ s.masked 4 = false ∧ s.masked 5 = true := by decide

/-- A reset discards the records not yet accepted and ends the launch. -/
theorem test_reset_event :
    step { box .seq [14] 0 [1] with agenda := [.reset], out := [.print 0 1] } = .next State.reset := rfl

theorem test_withFetchWord_call :
    see (step (State.reset.withFetchWord 96 0x000000010000000500000011)) =
      some (.faulted, [], 0, .malformedCallFrame) := by decide

theorem test_withFetchWord_halt : see (step (State.reset.withFetchWord 32 16)) = some (.halted, [], 1, .none) := by decide

theorem test_withFetchWord_threadId :
    see (step (State.reset.withFetchWord 32 26)) = some (.faulted, [], 0, .stackOverflow) := by decide

/-! ### Witnesses: each clause of a statement that has hypotheses, met by a state at the edge of its range -/

theorem witness_BinaryOperatorsReplaceTopTwo :
    (let s := box .seq [] 0 [7, 3, 10];
      s.me.status = .running ∧ s.me.stack = [7] ++ [3, 10]) ∧
    (let s := box .seq [] 0 [5];
      s.me.status = .running ∧ s.me.stack.length < 2 ∧
      Instr.ieq ∈ [Instr.iadd, .isub, .imul, .ilt, .ieq]) := by decide

theorem witness_DivisionTruncatesOrFaults :
    (let s := box .seq [] 0 [-1, -2147483648];
      s.me.status = .running ∧ s.me.stack = [] ++ [-1, intMin] ∧ (-1 : Word) ≠ 0) ∧
    (let s := box .seq [] 0 [0, 5];
      s.me.status = .running ∧ s.me.stack = [] ++ [0, 5]) ∧
    (let s := box .seq [] 0 [0];
      s.me.status = .running ∧ s.me.stack.length < 2) := by decide

theorem witness_ShiftsMoveByOneBit :
    (let s := box .seq [] 0 [-1];
      s.me.status = .running ∧ s.me.stack = [] ++ [-1]) ∧
    (let s := box .seq [] 0 [];
      s.me.status = .running ∧ s.me.stack = []) := by decide

theorem witness_ConstantsArePushed :
    (let s := capped 1 (box .seq [] 0 []);
      s.me.status = .running ∧ s.me.stack.length < s.launch.stackCap.toNat) ∧
    (let s := capped 1 (box .seq [] 0 [7]);
      s.me.status = .running ∧ s.launch.stackCap.toNat ≤ s.me.stack.length) := by
  decide

theorem witness_DupCopiesAndPopRemoves :
    (let s := capped 2 (box .seq [] 0 [7]);
      s.me.status = .running ∧ s.me.stack = [] ++ [7] ∧
      s.me.stack.length < s.launch.stackCap.toNat) ∧
    (let s := capped 1 (box .seq [] 0 [7]);
      s.me.status = .running ∧ s.me.stack = [] ++ [7] ∧
      s.launch.stackCap.toNat ≤ s.me.stack.length) ∧
    (let s := box .seq [] 0 [];
      s.me.status = .running ∧ s.me.stack = []) := by decide

theorem witness_BranchesTestExactly :
    (let s := box .seq [] 0 [3, 1];
      s.me.status = .running ∧ s.me.stack = [3] ++ [1]) ∧
    (let s := box .seq [] 0 [];
      s.me.status = .running ∧ s.me.stack = []) := by decide

/-- The frame index 3 is the last live cell, 0 the first; 4 and -1 are out of range. -/
theorem witness_LoadCopiesFrameCell :
    (let s := at_ 0 3 1 (box .seq [] 0 [128, 1, 0, 11]);
      s.me.status = .running ∧ s.me.fp.toInt + (0 : Word).toInt = (3 : Nat) ∧ s.me.stack[3]? = some 11 ∧
      s.me.fp.toInt + (-3 : Word).toInt = (0 : Nat) ∧ s.me.stack[0]? = some 128 ∧
      s.me.stack.length < s.launch.stackCap.toNat ∧
      ¬ (0 ≤ s.me.fp.toInt + (1 : Word).toInt ∧ s.me.fp.toInt + (1 : Word).toInt < s.me.stack.length) ∧
      ¬ (0 ≤ s.me.fp.toInt + (-4 : Word).toInt ∧ s.me.fp.toInt + (-4 : Word).toInt < s.me.stack.length)) ∧
    (let s := capped 2 (box .seq [] 0 [5, 6]);
      s.me.status = .running ∧ s.me.fp.toInt + (1 : Word).toInt = (1 : Nat) ∧ s.me.stack[1]? = some 6 ∧
      s.launch.stackCap.toNat ≤ s.me.stack.length) := by decide

/-- With cells 1 and 2 live the store may reach cell 0, not the cell it pops. -/
theorem witness_StoreWritesFrameCell :
    (let s := box .seq [] 0 [1, 2];
      s.me.status = .running ∧ s.me.stack = [1] ++ [2] ∧ s.me.fp.toInt + (0 : Word).toInt = (0 : Nat) ∧
      0 < ([1] : List Word).length ∧
      ¬ (0 ≤ s.me.fp.toInt + (1 : Word).toInt ∧ s.me.fp.toInt + (1 : Word).toInt < ([1] : List Word).length) ∧
      ¬ (0 ≤ s.me.fp.toInt + (-1 : Word).toInt ∧ s.me.fp.toInt + (-1 : Word).toInt < ([1] : List Word).length)) ∧
    (let s := box .seq [] 0 [];
      s.me.status = .running ∧ s.me.stack = []) := by decide

/-- `box` with nothing in any heap. -/
def hollow (s : State) : State := { s with heaps := [[], [], []] }

theorem witness_HeapLoadsReadHeapZero :
    (let s := box .seq [] 0 [];
      s.me.status = .running ∧ (3 : Word).toInt = (3 : Nat) ∧ 3 < s.heapCap 0 ∧
      s.me.stack.length < s.launch.stackCap.toNat ∧ s.heapRead 0 3 = some 40 ∧ (hollow s).heapRead 0 3 = none ∧
      (hollow s).me.status = .running ∧ 3 < (hollow s).heapCap 0 ∧
      ¬ (0 ≤ (4 : Word).toInt ∧ (4 : Word).toInt < s.heapCap 0) ∧
      ¬ (0 ≤ (-1 : Word).toInt ∧ (-1 : Word).toInt < s.heapCap 0) ∧ s.me.stack = []) ∧
    (let s := capped 1 (box .seq [] 0 [1]);
      s.me.status = .running ∧ (0 : Word).toInt = (0 : Nat) ∧ 0 < s.heapCap 0 ∧
      s.launch.stackCap.toNat ≤ s.me.stack.length) ∧
    (let s := box .seq [] 0 [5];
      s.me.status = .running ∧ s.me.stack = [] ++ [5] ∧ (-2 : Word).toInt + (5 : Word).toInt = (3 : Nat) ∧
      3 < s.heapCap 0 ∧ s.heapRead 0 3 = some 40 ∧ (hollow s).heapRead 0 3 = none ∧
      ¬ (0 ≤ (-1 : Word).toInt + (5 : Word).toInt ∧ (-1 : Word).toInt + (5 : Word).toInt < s.heapCap 0) ∧
      ¬ (0 ≤ (-6 : Word).toInt + (5 : Word).toInt ∧ (-6 : Word).toInt + (5 : Word).toInt < s.heapCap 0)) := by decide

theorem witness_HeapStoresWriteHeapZero :
    (let s := box .seq [] 0 [5];
      s.me.status = .running ∧ s.me.stack = [] ++ [5] ∧ (3 : Word).toInt = (3 : Nat) ∧ 3 < s.heapCap 0 ∧
      0 < s.heaps.length ∧ ¬ (0 ≤ (4 : Word).toInt ∧ (4 : Word).toInt < s.heapCap 0) ∧ s.me.stack.length < 2) ∧
    (let s := box .seq [] 0 [];
      s.me.status = .running ∧ s.me.stack = []) ∧
    (let s := box .seq [] 0 [1, 99];
      s.me.status = .running ∧ s.me.stack = [] ++ [1, 99] ∧ (2 : Word).toInt + (1 : Word).toInt = (3 : Nat) ∧
      3 < s.heapCap 0 ∧ 0 < s.heaps.length ∧
      ¬ (0 ≤ (3 : Word).toInt + (1 : Word).toInt ∧ (3 : Word).toInt + (1 : Word).toInt < s.heapCap 0)) := by decide

/-- `s` after `.next`. -/
def nextOf (r : Result) (s : State) : State :=
  match r with
  | .next t => t
  | .fault _ => s
  | .refused _ => s

theorem witness_HeapLoadAfterStore :
    (let s := box .seq [] 0 [1, 99];
      let t := nextOf (exec (.gstoreIndexed 2) s) s;
      let u := t.setMe { t.me with stack := [3] };
      s.me.status = .running ∧ 0 < s.heaps.length ∧ s.me.stack = [] ++ [1, 99] ∧
      exec (.gstoreIndexed 2) s = .next t ∧ t.me.status = .running ∧ u.me.status = .running ∧ u.heaps = t.heaps ∧
      u.launch = t.launch ∧ u.me.stack = [] ++ [3] ∧ (0 : Word).toInt + (3 : Word).toInt = (2 : Word).toInt + (1 : Word).toInt) ∧
    (let s := capped 1 (box .seq [] 0 [99]);
      let t := nextOf (exec (.gstore 3) s) s;
      s.me.status = .running ∧ 0 < s.heaps.length ∧ s.me.stack = [] ++ [99] ∧
      s.me.stack.length ≤ s.launch.stackCap.toNat ∧ exec (.gstore 3) s = .next t ∧ t.me.status = .running) :=
  ⟨⟨by decide, by decide, by decide, rfl, by decide, by decide, by decide, by decide, by decide, by decide⟩,
    by decide, by decide, by decide, by decide, rfl, by decide⟩

theorem witness_CallPushesFrameRecord :
    (let s := capped 4 (box .seq [] 0 [128]);
      s.me.status = .running ∧ 0 ≤ (1 : Word).toInt ∧ (1 : Word).toInt ≤ s.me.stack.length ∧
      s.me.stack.length + 3 ≤ s.launch.stackCap.toNat ∧
      ¬ (0 ≤ (2 : Word).toInt ∧ (2 : Word).toInt ≤ s.me.stack.length) ∧
      ¬ (0 ≤ (-1 : Word).toInt ∧ (-1 : Word).toInt ≤ s.me.stack.length)) ∧
    (let s := capped 3 (box .seq [] 0 [128]);
      s.me.status = .running ∧ 0 ≤ (1 : Word).toInt ∧ (1 : Word).toInt ≤ s.me.stack.length ∧
      s.launch.stackCap.toNat < s.me.stack.length + 3) := by decide

/-- C8, and C11, C13, C14, C15 for the four disjuncts of the fault. -/
theorem witness_RetPopsFrameRecord :
    (let s := at_ 0 3 1 (box .seq [] 0 [128, 1, 0, 11, 256]);
      s.me.status = .running ∧ s.me.depth ≠ 0 ∧ s.me.fp.toInt = (3 : Nat) ∧ 2 ≤ 3 ∧ 3 + 2 ≤ s.me.stack.length ∧
      s.me.stack.getLast? = some 256 ∧ s.me.stack[3 - 2]? = some 1 ∧ s.me.stack[3 - 1]? = some 0 ∧
      s.me.stack[3]? = some 11 ∧ (1 : Word).toInt = (1 : Nat) ∧ 1 + 2 ≤ 3) ∧
    (let s := box .seq [] 0 [5, 5, 5, 5];
      s.me.status = .running ∧ s.me.stack ≠ [] ∧ s.me.depth = 0) ∧
    (let s := at_ 0 3 1 (box .seq [] 0 [128, 1, 0, 11]);
      s.me.status = .running ∧ s.me.stack ≠ [] ∧ (s.me.stack.length : Int) - 2 < s.me.fp.toInt) ∧
    (let s := at_ 0 3 1 (box .seq [] 0 [128, 5, 0, 11, 256]);
      s.me.status = .running ∧ s.me.stack ≠ [] ∧ s.me.fp.toInt = (3 : Nat) ∧ s.me.stack[3 - 2]? = some 5 ∧
      ¬ (0 ≤ (5 : Word).toInt ∧ (5 : Word).toInt ≤ ((3 : Nat) : Int) - 2)) ∧
    (let s := at_ 0 1 1 (box .seq [] 0 [9, 9]);
      s.me.status = .running ∧ s.me.stack ≠ [] ∧ s.me.fp.toInt < 2) ∧
    (let s := box .seq [] 0 [];
      s.me.status = .running ∧ s.me.stack = []) := by decide

/-- The callee has overwritten every cell under the record. -/
theorem witness_CallThenRetRestoresCaller :
    let s := box .seq [] 0 [5, 6, 7]
    let t := nextOf (exec (.call 20 2) s) s
    let below : List Word := [-1, 8, 3]
    let u := t.setMe { t.me with stack := below ++ [2, s.me.fp, s.me.ip + 3] ++ [1, 2] ++ [9] }
    s.me.status = .running ∧ s.me.stack.length < 2 ^ 31 - 3 ∧ s.me.depth ≠ -1 ∧
    exec (.call 20 2) s = .next t ∧ t.me.status = .running ∧ u.me.status = .running ∧
    below.length = s.me.stack.length ∧ u.me.stack = below ++ [2, s.me.fp, s.me.ip + 3] ++ [1, 2] ++ [9] ∧
    u.me.fp = t.me.fp ∧ u.me.depth = t.me.depth :=
  ⟨by decide, by decide, by decide, rfl, by decide, by decide, by decide, by decide, by decide, by decide⟩

theorem witness_PrintEmitsAndHaltStops :
    (let s := box .seq [] 0 [7];
      s.me.status = .running ∧ s.me.stack = [] ++ [7]) ∧
    (let s := box .seq [] 0 [];
      s.me.status = .running ∧ s.me.stack = []) := by decide

theorem witness_ThreadIdPushesIdentity :
    (let s := capped 1 (box .lane [] 3 []);
      s.me.status = .running ∧ s.me.stack.length < s.launch.stackCap.toNat) ∧
    (let s := capped 0 (box .lane [] 3 []);
      s.me.status = .running ∧ s.launch.stackCap.toNat ≤ s.me.stack.length) := by decide

/-- Lane 0's read of H1[3] is on record: another lane's read of the word conflicts with nothing, its write does not
touch H2[3]. -/
def shared (s : State) : State := { s with accesses := [⟨0, 1, 3, false, some 3, 3⟩] }

theorem witness_ParallelLoadReadsSelectedHeap :
    (let s := shared (box .lane [] 2 [3]);
      s.me.status = .running ∧ s.me.stack = [] ++ [3] ∧ (1 : Word).toInt = (1 : Nat) ∧ 1 < s.cfg.numHeaps ∧
      (3 : Word).toInt = (3 : Nat) ∧ 3 < s.heapCap 1 ∧ s.heapRead 1 3 = some 3 ∧
      (∀ a ∈ s.accesses, a.lane ≠ s.cur → a.heap = 1 → a.index = 3 → a.write = false)) ∧
    (let s := box .lane [] 2 [0];
      s.me.status = .running ∧ s.me.stack = [] ++ [0] ∧ (2 : Word).toInt = (2 : Nat) ∧ 2 < s.cfg.numHeaps ∧
      0 < s.heapCap 2 ∧ s.heapRead 2 0 = none) ∧
    (let s := box .lane [] 2 [4];
      s.me.status = .running ∧ s.me.stack = [] ++ [4] ∧ ¬ (0 ≤ (4 : Word).toInt ∧ (4 : Word).toInt < s.heapCap 1) ∧
      s.me.stack ≠ [] ∧ ¬ (0 ≤ (3 : Word).toInt ∧ (3 : Word).toInt < s.cfg.numHeaps) ∧
      ¬ (0 ≤ (-1 : Word).toInt ∧ (-1 : Word).toInt < s.cfg.numHeaps)) ∧
    (let s := box .lane [] 2 [];
      s.me.status = .running ∧ s.me.stack = []) := by decide

theorem witness_ParallelStoreWritesSelectedHeap :
    (let s := shared (box .lane [] 3 [3, 9]);
      s.me.status = .running ∧ s.me.stack = [] ++ [3, 9] ∧ (2 : Word).toInt = (2 : Nat) ∧ 2 < s.cfg.numHeaps ∧
      s.heaps.length = s.cfg.numHeaps ∧ (3 : Word).toInt = (3 : Nat) ∧ 3 < s.heapCap 2 ∧
      (∀ a ∈ s.accesses, a.lane ≠ s.cur → ¬ (a.heap = 2 ∧ a.index = 3))) ∧
    (let s := box .lane [] 3 [4, 9];
      s.me.status = .running ∧ s.me.stack = [] ++ [4, 9] ∧ 2 ≤ s.me.stack.length ∧
      ¬ (0 ≤ (4 : Word).toInt ∧ (4 : Word).toInt < s.heapCap 2) ∧
      ¬ (0 ≤ (3 : Word).toInt ∧ (3 : Word).toInt < s.cfg.numHeaps)) ∧
    (let s := box .lane [] 3 [9];
      s.me.status = .running ∧ s.me.stack.length < 2) := by decide

/-- Lane 0 wrote H1[3]. -/
def raced (s : State) : State := { s with accesses := [⟨0, 1, 3, true, some 8, 3⟩] }

theorem witness_ConflictingAccessIsARace :
    (let s := raced (box .lane [] 2 [3]);
      let other : Access := ⟨0, 1, 3, true, some 8, 3⟩;
      s.me.status = .running ∧ s.me.stack = [] ++ [3] ∧ (1 : Word).toInt = (1 : Nat) ∧ 1 < s.cfg.numHeaps ∧
      (3 : Word).toInt = (3 : Nat) ∧ 3 < s.heapCap 1 ∧ s.heapRead 1 3 = some 3 ∧ other ∈ s.accesses ∧
      other.lane ≠ s.cur ∧ other.heap = 1 ∧ other.index = 3 ∧ other.write = true) ∧
    (let s := shared (box .lane [] 2 [3, 9]);
      let other : Access := ⟨0, 1, 3, false, some 3, 3⟩;
      s.me.status = .running ∧ s.me.stack = [] ++ [3, 9] ∧ 1 < s.cfg.numHeaps ∧ s.heaps.length = s.cfg.numHeaps ∧
      3 < s.heapCap 1 ∧ other ∈ s.accesses ∧ other.lane ≠ s.cur ∧ other.heap = 1 ∧ other.index = 3) := by decide

theorem witness_ListingOfAssembledProgram : ([Instr.load (-3), .call 0 1, .halt] : List Instr).length ≤ 3 := by decide

/-- It is slot l's turn, with an empty agenda. -/
theorem nextLane_of_pick {s : State} {l : Nat} (hr : s.runState = .running) (hl : (s.lane l).status = .running)
    (ha : s.agenda = []) (hp : s.pick = some l) : NextLane s l := ⟨hr, hl, .inr ⟨ha, hp⟩⟩

/-- A step that emits two records, with room for just two. -/
theorem witness_StepRunsDecodedInstruction :
    let s := { tracing (box .seq [14] 0 [7]) with out := List.replicate 14 (.print 0 0) }
    NextLane s 0 ∧ (s.lane 0).ip.toInt = (0 : Nat) ∧ s.holdsAt 0 .print ∧ Instr.print.legalIn s.launch.mode = true ∧
      s.out.length + recordsOf .print (s.lane 0) ≤ s.cfg.outDepth := by
  refine ⟨nextLane_of_pick rfl (by decide) rfl (by decide), by decide, ?_, by decide, by decide⟩
  intro j hj
  obtain rfl : j = 0 := by simpa [encode, Instr.operands] using hj
  exact ⟨by decide, rfl⟩

theorem witness_FullPortHoldsTheStep :
    let s := { tracing (box .seq [14] 0 [7]) with out := List.replicate 15 (.print 0 0), agenda := [.lane 0, .accept] }
    NextLane s 0 ∧ (s.lane 0).ip.toInt = (0 : Nat) ∧ s.holdsAt 0 .print ∧ Instr.print.legalIn s.launch.mode = true ∧
      s.cfg.outDepth < s.out.length + recordsOf .print (s.lane 0) := by
  refine ⟨⟨rfl, by decide, .inl ⟨_, rfl⟩⟩, by decide, ?_, by decide, by decide⟩
  intro j hj
  obtain rfl : j = 0 := by simpa [encode, Instr.operands] using hj
  exact ⟨by decide, rfl⟩

/-- The first word past the program; GLOAD in mode LANE; a CALL whose second operand word is past the program. -/
theorem witness_DecodeStageFaults :
    (let s := at_ 40 0 0 (box .seq [] 0 []);
      NextLane s 0 ∧ ¬ (0 ≤ (s.lane 0).ip.toInt ∧ (s.lane 0).ip.toInt < s.launch.progLen.toNat)) ∧
    (let s := box .lane [11, 0] 2 [];
      NextLane s 2 ∧ (s.lane 2).ip.toInt = (0 : Nat) ∧ 0 < s.launch.progLen.toNat ∧ s.program.read 0 = some 11 ∧
      opcodeLegal s.launch.mode 11 = false) ∧
    (let s := { box .seq [17, 0] 0 [] with launch := { (box .seq [] 0 []).launch with progLen := 2 } };
      NextLane s 0 ∧ (s.lane 0).ip.toInt = (0 : Nat) ∧ 0 < s.launch.progLen.toNat ∧ s.program.read 0 = some 17 ∧
      opcodeLegal s.launch.mode 17 = true ∧ operandCount 17 = some 2 ∧ s.launch.progLen.toNat ≤ 0 + 2 ∧
      ∀ j, 0 < j → j < s.launch.progLen.toNat → (s.program.read j).isSome = true) := by
  refine ⟨⟨nextLane_of_pick rfl (by decide) rfl (by decide), by decide⟩,
    ⟨nextLane_of_pick rfl (by decide) rfl (by decide), by decide, by decide, by decide, by decide⟩,
    nextLane_of_pick rfl (by decide) rfl (by decide), by decide, by decide, by decide, by decide, by decide, by decide, ?_⟩
  intro j h1 h2
  obtain rfl : j = 1 := Nat.le_antisymm (Nat.lt_succ_iff.mp h2) h1
  decide

theorem witness_FaultsArePrecise :
    let s := box .seq [] 0 [0, 5]
    let t := nextOf (exec .idiv s) s
    s.me.status = .running ∧ exec .idiv s = .next t ∧ t.me.status = .faulted := ⟨by decide, rfl, by decide⟩

/-- Lane 2 steps; lane 1 has halted, lane 3 has faulted. -/
def mixed : State :=
  let s := box .lane [26] 2 []
  s.setLane 3 { s.lane 3 with status := .faulted, faultCode := .divisionByZero }

theorem witness_FinishedLanesStay :
    mixed.runState = .running ∧ mixed.agenda.head? ≠ some .reset ∧ step mixed = .next (nextOf (step mixed) mixed) ∧
      (mixed.lane 1).status = .halted ∧ (mixed.lane 3).status = .faulted :=
  ⟨by decide, by decide, rfl, by decide, by decide⟩

theorem witness_LanesArePrivate :
    NextLane mixed 2 ∧ step mixed = .next (nextOf (step mixed) mixed) ∧ (3 : Nat) ≠ 2 :=
  ⟨nextLane_of_pick rfl (by decide) rfl (by decide), rfl, by decide⟩

/-- Lane 2 steps among quite other lanes; and an instance whose next word holds no value. -/
theorem witness_LaneStepReadsNoOtherLane :
    (let others := [Lane.inactive 0, Lane.inactive 9, mixed.lane 2, { mixed.lane 2 with ip := 5 }];
      others.length = mixed.lanes.length ∧ others[2]? = mixed.lanes[2]? ∧
      stepLane 2 mixed = .next (nextOf (stepLane 2 mixed) mixed)) ∧
    (let s := box .lane [] 3 [];
      let others := [Lane.inactive 0, Lane.inactive 9, Lane.inactive 2, s.lane 3];
      others.length = s.lanes.length ∧ others[3]? = s.lanes[3]? ∧ stepLane 3 s = .fault .programWordNoValue) :=
  ⟨⟨by decide, by decide, rfl⟩, by decide, by decide, rfl⟩

theorem witness_GroupsPartitionLanes :
    let s := { box .lane [] 0 [] with launch := { (box .lane [] 0 []).launch with laneCount := 5 } }
    s.launch.mode = .lane ∧ 0 < s.groupLen ∧ 4 < s.launch.lanesUsed ∧ 2 < s.groupCount := by decide

theorem witness_IssueStepsTheMask :
    let s := { box .lane [26] 2 [] with agenda := [.issue 1 0, .accept] }
    0 < s.groupLen ∧ s.agenda = .issue 1 0 :: [.accept] ∧ s.completionDue = false := by decide

theorem witness_GroupSizeChangesNoStep : stepLane 2 mixed = .next (nextOf (stepLane 2 mixed) mixed) := rfl

/-- Lanes 1 and 2 both at a store, to different words of H2. -/
def pair : State :=
  let s := box .lane [28, 2] 2 [2, 9]
  s.setLane 1 { s.lane 1 with status := .running, stack := [1, 7] }

theorem witness_LaneStepsCommute :
    let after (l : Nat) (s : State) := nextOf (stepLane l s) s
    (1 : Nat) ≠ 2 ∧ pair.launch.mode = .lane ∧ stepLane 1 pair = .next (after 1 pair) ∧
    stepLane 2 (after 1 pair) = .next (after 2 (after 1 pair)) ∧ stepLane 2 pair = .next (after 2 pair) ∧
    stepLane 1 (after 2 pair) = .next (after 1 (after 2 pair)) ∧ (after 2 (after 1 pair)).race = false ∧
    (after 1 (after 2 pair)).race = false ∧ (after 2 (after 1 pair)).out = pair.out ∧
    (after 1 (after 2 pair)).out = pair.out ∧ pair ≠ after 1 (after 2 pair) :=
  ⟨by decide, by decide, rfl, rfl, rfl, rfl, by decide, by decide, by decide, by decide, by decide⟩

theorem witness_EmptyAgendaTakesTurns : pair.cur < pair.lanes.length ∧ (pair.lane 1).status = .running := by decide

/-- IADD is legal in both modes; THREAD_ID in one only, so a state at one is no witness. -/
theorem witness_SeqAndLaneStepAlike :
    let s := box .seq [1] 0 [3, 4]
    fetchWord s s.me.ip.toInt = .got 1 ∧ opcodeLegal .seq 1 = opcodeLegal .lane 1 ∧
    stepInstance (s.inMode .seq) = .next (nextOf (stepInstance (s.inMode .seq)) s) ∧
    stepInstance ((box .seq [] 0 []).inMode .seq) = .fault .programWordNoValue :=
  ⟨by decide, by decide, rfl, rfl⟩

theorem witness_TracingChangesNoResult :
    let s := tracing (box .seq [14] 0 [7])
    s.held s.cur = false ∧ stepInstance s = .next (nextOf (stepInstance s) s) ∧
    (box .seq [] 0 []).held 0 = false ∧ stepInstance (box .seq [] 0 []) = .fault .programWordNoValue :=
  ⟨by decide, rfl, by decide, rfl⟩

theorem witness_ResetEventLeavesResetState :
    let s := { box .seq [] 0 [] with agenda := [.reset, .accept] }
    s.agenda = .reset :: [.accept] ∧ s.completionDue = false := by decide

/-- Each kind of event, in a launch and outside one, with an empty and a full buffer; and offsets of the register window,
its last among them, that read as a value, as unspecified, and as the halves of CYCLES. -/
theorem witness_HostEventsTakeEffect :
    (let s := { State.reset with agenda := [.busWrite 0x008 [1, 2, 3, 4], .accept] };
      s.completionDue = false ∧ s.agenda = .busWrite 0x008 [1, 2, 3, 4] :: [.accept]) ∧
    (let s := { box .lane [] 0 [] with agenda := [.busRead 0x084 4] };
      s.completionDue = false ∧ s.agenda = .busRead 0x084 4 :: []) ∧
    (let s := { State.reset with agenda := [.accept], out := List.replicate 16 (.print 0 1) };
      s.completionDue = false ∧ s.agenda = .accept :: [] ∧ s.out = .print 0 1 :: List.replicate 15 (.print 0 1)) ∧
    (let s := { State.reset with agenda := [.accept] };
      s.completionDue = false ∧ s.agenda = .accept :: [] ∧ s.out = []) ∧
    locate State.reset.cfg 0x13FC = some (.regs, 0x13FC) ∧ 0x13FC % 4 = 0 ∧
    locate State.reset.cfg 0 = some (.regs, 0) ∧ State.reset.readReg 0 = .value 0 ∧ (box .lane [] 0 []).readReg 0x13FC = .unspecified ∧
    State.reset.runState ≠ .running ∧ locate State.reset.cfg 0x0A0 = some (.regs, 0x0A0) ∧
    locate State.reset.cfg 0x0A4 = some (.regs, 0x0A4) := by decide

theorem witness_RegistersReadTheirResetColumn :
    2 < Params.reference.numHeaps ∧ Params.reference.numHeaps ≤ 16 ∧ 0 < Params.reference.maxLanes := by decide

theorem witness_ConfigRegistersReadBack :
    State.reset.runState ≠ .running ∧ 2 < State.reset.cfg.numHeaps ∧ State.reset.cfg.numHeaps ≤ 16 ∧
      2 < State.reset.heapCaps.length ∧ (0xFFFFFFFE : Word).getLsbD 0 = false := by decide

theorem witness_LaneRegistersShowTheSlot :
    (let s := { State.reset with laneSel := 1023 };
      s.runState ≠ .running ∧ s.cfg.numHeaps ≤ 16 ∧ s.laneSel.toNat < s.cfg.maxLanes ∧ 255 < s.cfg.maxStackCap) ∧
    (let s := { State.reset with laneSel := 1024 };
      s.runState ≠ .running ∧ s.cfg.numHeaps ≤ 16 ∧ s.cfg.maxLanes ≤ s.laneSel.toNat ∧ 255 < s.cfg.maxStackCap) ∧
    (let s := box .lane [] 0 [];
      s.runState = .running ∧ s.cfg.numHeaps ≤ 16 ∧ 255 < s.cfg.maxStackCap) := by decide

theorem witness_ReservedAccessesDoNothing :
    locate State.reset.cfg 0x13FF = some (.regs, 0x13FF) ∧ (0x13FF % 4 ≠ 0) ∧
    locate State.reset.cfg 0 = some (.regs, 0) ∧ ([1, 2] : List Byte).length ≠ 4 ∧ (2 : Nat) ≠ 4 ∧
    State.reset.cfg.numHeaps ≤ 16 ∧ 0x040 + 4 * State.reset.cfg.numHeaps ≤ 0x04C ∧ (0x07C < 0x080) ∧
    (0x0A8 ≤ 0xFFC ∧ 0xFFC < 0x1000) ∧ 0x1000 + 4 * State.reset.cfg.maxStackCap ≤ 0x1400 ∧
    255 < State.reset.cfg.maxStackCap := by decide

/-- The last byte of the register window, the last program word and the last word of HEAP[2], each in no earlier window;
and a word's bytes in the order of the state. -/
theorem witness_WindowsReadBack :
    (let p := Params.reference;
      let inside (base size addr : Nat) : Prop := base ≤ addr ∧ addr < base + size;
      inside p.blockBase (0x1000 + 4 * p.maxStackCap) 0x13FF ∧
      ¬ inside p.blockBase (0x1000 + 4 * p.maxStackCap) 0x13FFC ∧ 0x13FFC = p.progWindowBase + 4 * 4095 ∧
      4095 < p.progCap ∧
      ¬ inside p.blockBase (0x1000 + 4 * p.maxStackCap) 0x33FFFC ∧
      ¬ inside p.progWindowBase (4 * p.progCap) 0x33FFFC ∧ 2 < p.numHeaps ∧
      (∀ k, k < 2 → ¬ inside (p.heapWindowBase.getD k 0) (4 * p.maxHeapWords) 0x33FFFC) ∧
      0x33FFFC = p.heapWindowBase.getD 2 0 + 4 * 65535 ∧ 65535 < p.maxHeapWords) ∧
    State.reset.runState ≠ .running ∧ State.reset.heaps.length = State.reset.cfg.numHeaps ∧
    locate State.reset.cfg 0x13FFC = some (.program, 0x3FFC) ∧
    locate State.reset.cfg 0x300000 = some (.heap 2, 0) ∧ 0x3FFC % 4 = 0 ∧ ([1, 2, 3, 4] : List Byte).length = 4 ∧
    State.reset.cfg.hostByteOrder = .little ∧
    (∀ i, i < 4 → ([1, 2, 3, 4] : List Byte)[i]? = some ((0x04030201 : Word).extractLsb' (8 * i) 8)) := by
  decide

theorem witness_HeapCommandFills :
    State.reset.runState ≠ .running ∧ State.reset.heaps.length = State.reset.cfg.numHeaps ∧
    (let v : Word := 0x21;
      (v.extractLsb' 0 4).toNat < State.reset.cfg.numHeaps ∧ (v.extractLsb' 4 2).toNat = 2) ∧
    (let v : Word := 0x29;
      ¬ (v.extractLsb' 0 4).toNat < State.reset.cfg.numHeaps) ∧
    (let v : Word := 0x31;
      ¬ ((v.extractLsb' 4 2).toNat = 1 ∨ (v.extractLsb' 4 2).toNat = 2)) := by decide

theorem witness_WritesAreDroppedWhileRunning :
    let s := box .lane [] 0 []
    s.runState = .running ∧ s.cfg.numHeaps ≤ 16 ∧ 2 < s.cfg.numHeaps ∧
    locate s.cfg 0x100000 = some (.heap 0, 0) ∧ ([1, 2, 3, 4] : List Byte).length = 4 := by decide

/-- One configuration for each check of R175 to fail first, and one that passes. -/
theorem witness_LaunchChecksInOrder :
    let p := Params.reference
    State.reset.runState ≠ .running ∧ (3 : Word).getLsbD 0 = true ∧ (3 : Word).getLsbD 1 = true ∧
    (1 : Word).getLsbD 1 = false ∧ State.reset.laneCount = 0 ∧ p.maxLanes < (1025 : Word).toNat ∧
    p.maxGroupSize < (257 : Word).toNat ∧ p.progCap < (4097 : Word).toNat ∧ p.maxStackCap < (257 : Word).toNat ∧
    p.maxHeapWords < (65537 : Word).toNat ∧ ¬ p.maxLanes < (1024 : Word).toNat := by decide

theorem witness_AcceptedLaunchInitialises :
    let s := { State.reset with laneCount := 4 }
    s.runState ≠ .running ∧ (3 : Word).getLsbD 0 = true ∧ (s.writeReg 0 3).runState = .running ∧
    (1 : Word).getLsbD 0 = true ∧ (s.writeReg 0 1).runState = .running := by decide

/-- Every slot has finished, and the one record in the buffer is an earlier launch's. -/
theorem witness_CompletionIsTheNextStep :
    let s := { box .lane [] 9 [] with out := [.print 0 1], outOld := 1 }
    s.runState = .running ∧ (∀ l, (s.lane l).status ≠ .running) ∧ s.out.length ≤ s.outOld := by
  refine ⟨rfl, fun l => ?_, by decide⟩
  by_cases hl : l < 4
  · have h : ∀ k < 4, ((box .lane [] 9 []).lane k).status ≠ .running := by decide
    exact h l hl
  · have h : (box .lane [] 9 []).lanes.length ≤ l := Nat.le_of_not_lt hl
    show ((box .lane [] 9 []).lanes.getD l (Lane.inactive l)).status ≠ .running
    rw [List.getD_eq_getElem?_getD, List.getElem?_eq_none h]
    exact Status.noConfusion

/-- A reset of a running block, a START that is refused, and a completion each change STATE. -/
theorem witness_OnlyTheseEventsChangeState :
    look (fun t => t.runState) (step { box .lane [] 0 [] with agenda := [.reset] }) = some .idle ∧
    look (fun t => t.runState) (step { State.reset with agenda := [.busWrite 0 [3, 0, 0, 0]] }) = some .rejected ∧
    look (fun t => t.runState) (step (box .lane [] 9 [])) = some .done := by decide

theorem witness_LaunchInputsAreFixed :
    mixed.runState = .running ∧ mixed.agenda.head? ≠ some .reset ∧ step mixed = .next (nextOf (step mixed) mixed) :=
  ⟨by decide, by decide, rfl⟩

theorem witness_NoRecordIsLost :
    let s := tracing (box .seq [14] 0 [7])
    s.agenda.head? ≠ some .reset ∧ step s = .next (nextOf (step s) s) := ⟨by decide, rfl⟩

/-- A state of a launch, three of its four lanes finished. -/
theorem witness_EveryStepKeepsTheInvariant :
    let s := box .lane [26] 2 []
    s.Inv ∧ step s = .next (nextOf (step s) s) :=
  ⟨⟨by decide, by decide, by decide, by decide, by decide, by decide, by decide, by decide⟩, rfl⟩

/-- The last slot of a launch in mode LANE, and the one slot of a launch in mode SEQ. -/
theorem witness_IdentitiesAreBelowLaneCount :
    (let s := box .lane [] 0 [];
      s.Inv ∧ (s.lane 3).status ≠ .inactive ∧ s.launch.mode = .lane) ∧
    (let s := { box .seq [] 0 [] with lanes := (box .seq [] 0 []).lanes.take 1 };
      s.Inv ∧ (s.lane 0).status ≠ .inactive ∧ s.launch.mode = .seq) :=
  ⟨⟨⟨by decide, by decide, by decide, by decide, by decide, by decide, by decide, by decide⟩, by decide, by decide⟩,
    ⟨by decide, by decide, by decide, by decide, by decide, by decide, by decide, by decide⟩, by decide, by decide⟩

theorem witness_ResetHasTheInvariant : Params.reference.wf = true := by decide

/-- A launch with a program of two words, both written, and no heap words in use. -/
def duty : State :=
  let s := box .seq [9, 5] 0 []
  { s with launch := { s.launch with progLen := 2, heapCaps := [0, 0, 0] } }

theorem witness_InitialisedStepAnswersNext : duty.runState = .running ∧ duty.initialised := by
  refine ⟨rfl, ?_, ?_⟩
  · intro i hi
    have h : ∀ k < 2, (duty.program.read k).isSome = true := by decide
    exact h i hi
  · intro h hh i hi
    obtain rfl : h = 0 := by simpa [duty, box, heapsUsed] using hh
    exact absurd hi (Nat.not_lt_zero i)

theorem witness_InitialisedIsKept :
    duty.runState = .running ∧ duty.initialised ∧ duty.agenda.head? ≠ some .reset ∧
      step duty = .next (nextOf (step duty) duty) :=
  ⟨rfl, witness_InitialisedStepAnswersNext.2, by decide, rfl⟩

end Sys2Proof.Tests
end

/-! PROOFS of the family 10_state.md: the state, its invariant, the port and the host's registers. -/

namespace Sys2Proof.Machine

/-! ### The TRACE record -/

@[simp] theorem State.traced_lanes (s : State) (i : Instr) : (s.traced i).lanes = s.lanes := by
  unfold State.traced; split <;> rfl

@[simp] theorem State.traced_cur (s : State) (i : Instr) : (s.traced i).cur = s.cur := by
  unfold State.traced; split <;> rfl

/-! ### Changes of state that no meaning can see -/

/-- The answer with its next state, if it has one, changed by `f`. -/
def onNext (f : State → State) : Result → Result
  | .next t => .next (f t)
  | .fault r => .fault r
  | .refused r => .refused r

/-- The lane with its trace flag changed by `tr`. -/
def Lane.retrace (tr : Bool → Bool) (L : Lane) : Lane := { L with trace := tr L.trace }

/-- On the states of `P`, the change `f` leaves everything that a meaning reads, but for the trace flag of the lane that
steps, which it changes by `tr`; and it may as well be made after each write of a meaning as before it. -/
structure Unseen (P : State → Prop) (tr : Bool → Bool) (f : State → State) : Prop where
  stable : ∀ {s u : State}, P s → u.lanes = s.lanes → u.cur = s.cur → P u
  me : ∀ {s : State}, P s → (f s).me = s.me.retrace tr
  cur : ∀ s : State, (f s).cur = s.cur
  stackCap : ∀ s : State, (f s).launch.stackCap = s.launch.stackCap
  heapCaps : ∀ s : State, (f s).launch.heapCaps = s.launch.heapCaps
  numHeaps : ∀ s : State, (f s).cfg.numHeaps = s.cfg.numHeaps
  heaps : ∀ s : State, (f s).heaps = s.heaps
  accesses : ∀ s : State, (f s).accesses = s.accesses
  draws : ∀ s : State, (f s).draws = s.draws
  setMe : ∀ {s : State} (L : Lane), P s → f (s.setMe L) = (f s).setMe (L.retrace tr)
  shared : ∀ (s : State) hs as r d, f { s with heaps := hs, accesses := as, race := r, draws := d } =
    { f s with heaps := hs, accesses := as, race := r, draws := d }
  race : ∀ s : State, (f s).race = s.race
  print : ∀ (s : State) l v, f (s.emit (.print l v)) = (f s).emit (.print l v)

namespace Unseen

variable {P : State → Prop} {tr : Bool → Bool} {f : State → State} {s : State}

theorem roomFor (h : Unseen P tr f) (hs : P s) (n : Nat) : (f s).roomFor n = s.roomFor n := by
  simp only [State.roomFor, h.me hs, h.stackCap, Lane.retrace]

theorem heapCap (h : Unseen P tr f) (a : Nat) : (f s).heapCap a = s.heapCap a := by
  simp only [State.heapCap, h.heapCaps]

theorem heapRead (h : Unseen P tr f) (a k : Nat) : (f s).heapRead a k = s.heapRead a k :=
  State.heapRead_congr (h.heaps s) a k

theorem map_heapWrite (h : Unseen P tr f) (a k : Nat) (v : Word) :
    f (s.heapWrite a k v) = (f s).heapWrite a k v := by
  refine (h.shared s _ s.accesses s.race s.draws).trans ?_
  simp only [State.heapWrite, State.heap, h.heaps, h.accesses, h.race, h.draws]

theorem conflicts (h : Unseen P tr f) (l a k : Nat) (w : Bool) : (f s).conflicts l a k w = s.conflicts l a k w := by
  simp only [State.conflicts, h.accesses]

theorem putWords (h : Unseen P tr f) (a k : Nat) : (f s).putWords a k = s.putWords a k := by
  simp only [State.putWords, h.accesses]

theorem laneRead_map (h : Unseen P tr f) (a k : Nat) (v : Word) :
    (f s).laneRead a k v = ((s.laneRead a k v).1, f (s.laneRead a k v).2) := by
  unfold State.laneRead
  rw [h.cur, h.conflicts, h.putWords, h.draws, h.accesses]
  split
  · refine Prod.ext rfl ((h.shared s s.heaps _ true _).trans ?_).symm
    simp only [h.heaps, h.cur]
  · refine Prod.ext rfl ((h.shared s s.heaps _ s.race s.draws).trans ?_).symm
    simp only [h.heaps, h.cur, h.race]

theorem map_laneWrite (h : Unseen P tr f) (a k : Nat) (v : Word) :
    f (s.laneWrite a k v) = (f s).laneWrite a k v := by
  unfold State.laneWrite
  rw [h.cur, h.conflicts, h.putWords, h.draws, h.accesses, h.heapRead]
  split
  · refine (h.shared s _ _ true _).trans ?_
    simp only [State.heapWrite, State.heap, h.heaps]
  · refine (h.shared s _ _ s.race s.draws).trans ?_
    simp only [State.heapWrite, State.heap, h.heaps, h.race, h.draws]

/-! The shared operations -/

theorem map_raise (h : Unseen P tr f) (hs : P s) (c : FaultCode) (w : Word) :
    f (raise c w s) = raise c w (f s) := by
  unfold raise
  rw [h.setMe _ hs, h.me hs]
  rfl

theorem map_trap (h : Unseen P tr f) (hs : P s) (c : FaultCode) (i : Instr) :
    onNext f (trap c i s) = trap c i (f s) :=
  congrArg Host.Outcome.next (h.map_raise hs c i.opcode)

theorem map_retire (h : Unseen P tr f) (hs : P s) (i : Instr) (L : Lane) :
    onNext f (retire i L s) = retire i (L.retrace tr) (f s) := by
  simp only [retire, onNext, nextIp, h.setMe _ hs, h.me hs]
  rfl

theorem map_jump (h : Unseen P tr f) (hs : P s) (target : Word) (L : Lane) :
    onNext f (jump target L s) = jump target (L.retrace tr) (f s) := by
  simp only [jump, onNext, h.setMe _ hs]
  rfl

theorem map_pushWord (h : Unseen P tr f) (hs : P s) (i : Instr) (v : Word) :
    onNext f (pushWord i v s) = pushWord i v (f s) := by
  unfold pushWord
  rw [h.roomFor hs, h.me hs]
  split
  · exact h.map_retire hs i _
  · exact h.map_trap hs _ i

theorem map_binary (h : Unseen P tr f) (hs : P s) (i : Instr) (g : Word → Word → Word) :
    onNext f (binary i g s) = binary i g (f s) := by
  unfold binary
  rw [h.me hs]
  cases hst : top2? s.me.stack with
  | none => simp only [Lane.retrace, hst]; exact h.map_trap hs _ i
  | some c => simp only [Lane.retrace, hst]; exact h.map_retire hs i _

theorem map_unary (h : Unseen P tr f) (hs : P s) (i : Instr) (g : Word → Word) :
    onNext f (unary i g s) = unary i g (f s) := by
  unfold unary
  rw [h.me hs]
  cases hst : top1? s.me.stack with
  | none => simp only [Lane.retrace, hst]; exact h.map_trap hs _ i
  | some c => simp only [Lane.retrace, hst]; exact h.map_retire hs i _

theorem map_branchIf (h : Unseen P tr f) (hs : P s) (i : Instr) (taken : Word → Bool) (target : Word) :
    onNext f (branchIf i taken target s) = branchIf i taken target (f s) := by
  unfold branchIf
  rw [h.me hs]
  cases hst : top1? s.me.stack with
  | none => simp only [Lane.retrace, hst]; exact h.map_trap hs _ i
  | some c =>
    simp only [Lane.retrace, hst]
    split
    · exact h.map_jump hs target _
    · exact h.map_retire hs i _

/-! The instructions -/

theorem map_exec (h : Unseen P tr f) (hs : P s) (i : Instr) : onNext f (exec i s) = exec i (f s) := by
  cases i with
  | iadd => exact h.map_binary hs _ _
  | isub => exact h.map_binary hs _ _
  | imul => exact h.map_binary hs _ _
  | ilt => exact h.map_binary hs _ _
  | ieq => exact h.map_binary hs _ _
  | br target =>
    simp only [exec, execBr, h.me hs]
    exact h.map_jump hs target _
  | brt target => exact h.map_branchIf hs _ _ _
  | brf target => exact h.map_branchIf hs _ _ _
  | iconst value => exact h.map_pushWord hs _ _
  | load offset =>
    simp only [exec, execLoad, h.me hs, Lane.retrace, Lane.frameIndex]
    cases indexBelow? (s.me.fp.toInt + offset.toInt) s.me.stack.length with
    | none => exact h.map_trap hs _ _
    | some k => exact h.map_pushWord hs _ _
  | gload address =>
    simp only [exec, execGload, h.heapCap, h.roomFor hs, h.heapRead]
    cases indexBelow? address.toInt (s.heapCap 0) with
    | none => exact h.map_trap hs _ _
    | some k =>
      dsimp only
      split
      · cases s.heapRead 0 k with
        | none => rfl
        | some v => exact h.map_pushWord hs _ _
      · exact h.map_trap hs _ _
  | store offset =>
    simp only [exec, execStore, h.me hs, Lane.retrace, Lane.frameIndex]
    cases top1? s.me.stack with
    | none => exact h.map_trap hs _ _
    | some c =>
      dsimp only
      cases indexBelow? (s.me.fp.toInt + offset.toInt) c.2.length with
      | none => exact h.map_trap hs _ _
      | some k => exact h.map_retire hs _ _
  | gstore address =>
    simp only [exec, execGstore, h.me hs, Lane.retrace, h.heapCap, ← h.map_heapWrite]
    cases top1? s.me.stack with
    | none => exact h.map_trap hs _ _
    | some c =>
      dsimp only
      cases indexBelow? address.toInt (s.heapCap 0) with
      | none => exact h.map_trap hs _ _
      | some k => exact h.map_retire (s := s.heapWrite 0 k c.1) (h.stable hs rfl rfl) _ _
  | print =>
    simp only [exec, execPrint, h.me hs, Lane.retrace, ← h.print]
    cases top1? s.me.stack with
    | none => exact h.map_trap hs _ _
    | some c => exact h.map_retire (s := s.emit _) (h.stable hs rfl rfl) _ _
  | pop =>
    simp only [exec, execPop, h.me hs, Lane.retrace]
    cases top1? s.me.stack with
    | none => exact h.map_trap hs _ _
    | some c => exact h.map_retire hs _ _
  | halt =>
    simp only [exec, execHalt, h.me hs]
    exact h.map_retire hs _ _
  | call target numArgs =>
    simp only [exec, execCall, nextIp, h.me hs, h.roomFor hs, Lane.retrace]
    cases indexBelow? numArgs.toInt (s.me.stack.length + 1) with
    | none => exact h.map_trap hs _ _
    | some k =>
      dsimp only
      split
      · exact h.map_jump hs target (calledLane s.me numArgs _)
      · exact h.map_trap hs _ _
  | ret =>
    have hrec : returnRecord? (s.me.retrace tr) = returnRecord? s.me := rfl
    simp only [exec, execRet, h.me hs, hrec]
    simp only [Lane.retrace]
    cases top1? s.me.stack with
    | none => exact h.map_trap hs _ _
    | some c =>
      dsimp only
      cases returnRecord? s.me with
      | none => exact h.map_trap hs _ _
      | some r => exact h.map_jump hs _ (returnedLane s.me r.1 r.2 c.1)
  | dup =>
    simp only [exec, execDup, h.me hs, Lane.retrace]
    cases top1? s.me.stack with
    | none => exact h.map_trap hs _ _
    | some c => exact h.map_pushWord hs _ _
  | idiv =>
    simp only [exec, execIdiv, h.me hs, Lane.retrace]
    cases top2? s.me.stack with
    | none => exact h.map_trap hs _ _
    | some c =>
      dsimp only
      split
      · exact h.map_trap hs _ _
      · exact h.map_retire hs _ _
  | lshift => exact h.map_unary hs _ _
  | rshift => exact h.map_unary hs _ _
  | iconst1 => exact h.map_pushWord hs _ _
  | gloadIndexed base =>
    simp only [exec, execGloadIndexed, h.me hs, Lane.retrace, h.heapCap, h.heapRead]
    cases top1? s.me.stack with
    | none => exact h.map_trap hs _ _
    | some c =>
      dsimp only
      cases indexBelow? (base.toInt + c.1.toInt) (s.heapCap 0) with
      | none => exact h.map_trap hs _ _
      | some k =>
        dsimp only
        cases s.heapRead 0 k with
        | none => rfl
        | some v => exact h.map_retire hs _ _
  | gstoreIndexed base =>
    simp only [exec, execGstoreIndexed, h.me hs, Lane.retrace, h.heapCap, ← h.map_heapWrite]
    cases top2? s.me.stack with
    | none => exact h.map_trap hs _ _
    | some c =>
      dsimp only
      cases indexBelow? (base.toInt + c.2.1.toInt) (s.heapCap 0) with
      | none => exact h.map_trap hs _ _
      | some k => exact h.map_retire (s := s.heapWrite 0 k c.1) (h.stable hs rfl rfl) _ _
  | threadId =>
    simp only [exec, execThreadId, h.me hs]
    exact h.map_pushWord hs _ _
  | parallelGloadIndexed selector =>
    simp only [exec, execParallelGloadIndexed, h.me hs, Lane.retrace, h.numHeaps, h.heapCap, h.heapRead,
      h.laneRead_map]
    cases top1? s.me.stack with
    | none => exact h.map_trap hs _ _
    | some c =>
      dsimp only
      cases indexBelow? selector.toInt s.cfg.numHeaps with
      | none => exact h.map_trap hs _ _
      | some a =>
        dsimp only
        cases indexBelow? c.1.toInt (s.heapCap a) with
        | none => exact h.map_trap hs _ _
        | some k =>
          dsimp only
          cases s.heapRead a k with
          | none => rfl
          | some v => exact h.map_retire (s := (s.laneRead a k v).2) (h.stable hs (by simp) (by simp)) _ _
  | parallelGstoreIndexed selector =>
    simp only [exec, execParallelGstoreIndexed, h.me hs, Lane.retrace, h.numHeaps, h.heapCap, ← h.map_laneWrite]
    cases top2? s.me.stack with
    | none => exact h.map_trap hs _ _
    | some c =>
      dsimp only
      cases indexBelow? selector.toInt s.cfg.numHeaps with
      | none => exact h.map_trap hs _ _
      | some a =>
        dsimp only
        cases indexBelow? c.2.1.toInt (s.heapCap a) with
        | none => exact h.map_trap hs _ _
        | some k => exact h.map_retire (s := s.laneWrite a k c.1) (h.stable hs (by simp) (by simp)) _ _

/-- A change that no meaning can see may as well be made after the step of the lane as before it, where fetch and
decode, the room in the port and the TRACE record do not see it either. -/
theorem map_stepInstance (h : Unseen P tr f) (hs : P s) (hd : ∀ a, decodeAt (f s) a = decodeAt s a)
    (hroom : ∀ i, decodeAt s s.me.ip.toInt = .instr i → (f s).noRoom i (f s).me = s.noRoom i s.me)
    (htr : ∀ i, (f s).traced i = f (s.traced i)) : onNext f (stepInstance s) = stepInstance (f s) := by
  have hip : (f s).me.ip = s.me.ip := by rw [h.me hs]; rfl
  unfold stepInstance
  rw [hd, hip]
  cases hdec : decodeAt s s.me.ip.toInt with
  | noValue => rfl
  | fault c w => exact congrArg Host.Outcome.next (h.map_raise hs c w)
  | instr i =>
    have hP : P (s.traced i) := h.stable hs (s.traced_lanes i) (s.traced_cur i)
    dsimp only
    rw [hroom i hdec, htr, ← h.map_exec hP]
    split <;> rfl

end Unseen

end Sys2Proof.Machine

namespace Sys2Proof.Machine

/-! ### Tracing (10_state.md R58) -/

theorem State.untraced_lane (s : State) (l : Nat) : s.untraced.lane l = (s.lane l).retrace fun _ => false := by
  simp only [State.untraced, State.lane, List.getD_eq_getElem?_getD, List.getElem?_map]
  cases s.lanes[l]? <;> rfl

theorem State.untraced_me (s : State) : s.untraced.me = s.me.retrace fun _ => false := s.untraced_lane s.cur

/-- No meaning sees that the trace flags and the TRACE records are gone. -/
theorem unseen_untraced : Unseen (fun _ => True) (fun _ => false) State.untraced where
  stable _ _ _ := trivial
  me {s} _ := s.untraced_me
  cur _ := rfl
  stackCap _ := rfl
  heapCaps _ := rfl
  numHeaps _ := rfl
  heaps _ := rfl
  accesses _ := rfl
  draws _ := rfl
  setMe {s} L _ := by simp only [State.untraced, State.setMe, State.setLane, List.map_set]; rfl
  shared _ _ _ _ _ := rfl
  race _ := rfl
  print s l v := by simp [State.untraced, State.emit]

/-- The TRACE record of the step is what `untraced` takes away. -/
theorem State.untraced_traced (s : State) (i : Instr) : (s.traced i).untraced = s.untraced := by
  unfold State.traced
  split
  · simp [State.untraced, State.emit, traceRecord]
  · rfl

theorem State.traced_untraced (s : State) (i : Instr) : s.untraced.traced i = s.untraced := by
  simp [State.traced, s.untraced_me, Lane.retrace]

/-- Without trace flags and TRACE records the port holds no step that it did not hold with them. -/
theorem State.noRoom_untraced {s : State} {i : Instr} (h : s.noRoom i s.me = false) :
    s.untraced.noRoom i s.untraced.me = false := by
  have hout : s.untraced.out.length ≤ s.out.length := List.length_filter_le _ _
  have hrec : recordsOf i s.untraced.me ≤ recordsOf i s.me := by
    rw [s.untraced_me]
    exact Nat.add_le_add_right (Nat.zero_le _) _
  have hcfg : s.untraced.cfg = s.cfg := rfl
  simp only [State.noRoom, decide_eq_false_iff_not, hcfg] at h ⊢
  omega

/-- A step that is not held has room for its records. -/
theorem State.noRoom_of_held {s : State} {i : Instr} (h : s.held s.cur = false)
    (hd : decodeAt s s.me.ip.toInt = .instr i) : s.noRoom i s.me = false := by
  rw [State.me] at hd
  rw [State.held, hd] at h
  exact h

theorem decodeAt_untraced (s : State) (a : Int) : decodeAt s.untraced a = decodeAt s a :=
  decodeAt_congr (s := s) (t := s.untraced) rfl rfl rfl a

/-- Where the port does not hold the step, the step without tracing is the step, less what tracing adds. -/
theorem stepInstance_untraced {s : State} (h : s.held s.cur = false) :
    onNext State.untraced (stepInstance s) = stepInstance s.untraced := by
  refine unseen_untraced.map_stepInstance trivial (decodeAt_untraced s) (fun i hd => ?_) fun i => ?_
  · have hr := State.noRoom_of_held h hd
    rw [hr, State.noRoom_untraced hr]
  · rw [s.traced_untraced, s.untraced_traced]

/-- Settles O37: no meaning sees the trace flags (`unseen_untraced`), so taking them away commutes with
every meaning. -/
theorem tracingChangesNoResult : Obligations.TracingChangesNoResult := by
  unfold Obligations.TracingChangesNoResult
  intro s h
  rw [← stepInstance_untraced h]
  refine ⟨fun t ht => ?_, fun r hr => ?_⟩
  · rw [ht]; rfl
  · rw [hr]; rfl

end Sys2Proof.Machine

namespace Sys2Proof.Machine

/-! ### Other lanes in the other slots (10_state.md R17) -/

/-- The state with the slots of `others`, but for slot `l`. -/
def State.withOthers (others : List Lane) (l : Nat) (s : State) : State :=
  { s with lanes := others.set l (s.lane l) }

/-- The slots of `others` stand there already when slot `l` does. -/
theorem State.withOthers_eq {s : State} {l : Nat} {others : List Lane} (hl : others[l]? = s.lanes[l]?) :
    s.withOthers others l = { s with lanes := others } := by
  have hset : others.set l (s.lane l) = others := by
    by_cases hlt : l < others.length
    · have hs : s.lane l = others[l] := by simp [State.lane, List.getD_eq_getElem?_getD, ← hl, hlt]
      rw [hs, List.set_getElem_self]
    · exact List.set_eq_of_length_le (Nat.le_of_not_lt hlt)
  rw [State.withOthers, hset]

theorem State.withOthers_lane {s : State} {l : Nat} {others : List Lane} (hlen : others.length = s.lanes.length) :
    (s.withOthers others l).lane l = s.lane l := by
  by_cases hlt : l < others.length
  · simp [State.withOthers, State.lane, List.getD_eq_getElem?_getD, hlt]
  · have hle := Nat.le_of_not_lt hlt
    simp [State.withOthers, State.lane, List.getD_eq_getElem?_getD, List.set_eq_of_length_le hle,
      List.getElem?_eq_none hle, List.getElem?_eq_none (hlen ▸ hle : s.lanes.length ≤ l)]

/-- No meaning run on slot `l` sees the other slots. -/
theorem unseen_withOthers (others : List Lane) (l : Nat) :
    Unseen (fun s => s.cur = l ∧ others.length = s.lanes.length) id (State.withOthers others l) where
  stable hs hl hc := by rw [hl, hc]; exact hs
  me {s} hs := by
    obtain ⟨rfl, hlen⟩ := hs
    exact State.withOthers_lane hlen
  cur _ := rfl
  stackCap _ := rfl
  heapCaps _ := rfl
  numHeaps _ := rfl
  heaps _ := rfl
  accesses _ := rfl
  draws _ := rfl
  setMe {s} L hs := by
    obtain ⟨rfl, hlen⟩ := hs
    have hset : others.set s.cur ((s.setMe L).lane s.cur) = (others.set s.cur (s.lane s.cur)).set s.cur L := by
      rw [List.set_set]
      by_cases hlt : s.cur < s.lanes.length
      · exact congrArg (others.set s.cur) (s.me_setMe L hlt)
      · have hle : others.length ≤ s.cur := hlen ▸ Nat.le_of_not_lt hlt
        rw [List.set_eq_of_length_le hle, List.set_eq_of_length_le hle]
    exact congrArg (fun ls => { s with lanes := ls }) hset
  shared _ _ _ _ _ := rfl
  race _ := rfl
  print _ _ _ := rfl

theorem decodeAt_withOthers (others : List Lane) (l : Nat) (s : State) (a : Int) :
    decodeAt (s.withOthers others l) a = decodeAt s a :=
  decodeAt_congr (s := s) (t := s.withOthers others l) rfl rfl rfl a

theorem traced_withOthers {s : State} {others : List Lane} (hlen : others.length = s.lanes.length) (i : Instr) :
    (s.withOthers others s.cur).traced i = (s.traced i).withOthers others s.cur := by
  have hme : (s.withOthers others s.cur).me = s.me := State.withOthers_lane hlen
  unfold State.traced
  rw [hme]
  split <;> rfl

theorem stepInstance_withOthers {s : State} {others : List Lane} (hlen : others.length = s.lanes.length) :
    onNext (State.withOthers others s.cur) (stepInstance s) = stepInstance (s.withOthers others s.cur) := by
  have hme : (s.withOthers others s.cur).me = s.me := State.withOthers_lane hlen
  refine (unseen_withOthers others s.cur).map_stepInstance ⟨rfl, hlen⟩ (decodeAt_withOthers others s.cur s)
    (fun i _ => ?_) (traced_withOthers hlen)
  rw [hme]
  rfl

/-- The step of slot `l` sees no other slot. -/
theorem stepLane_withOthers {s : State} {l : Nat} {others : List Lane} (hlen : others.length = s.lanes.length) :
    onNext (State.withOthers others l) (stepLane l s) = stepLane l (s.withOthers others l) := by
  have hact : (s.withOthers others l).active l = s.active l := by rw [State.active, State.withOthers_lane hlen]; rfl
  have hrun : (s.withOthers others l).runState = s.runState := rfl
  unfold stepLane
  rw [hact, hrun]
  split
  · exact stepInstance_withOthers (s := { s with cur := l }) hlen
  · rfl

/-- Settles O30: putting other lanes into the other slots commutes with the step (`stepLane_withOthers`). -/
theorem laneStepReadsNoOtherLane : Obligations.LaneStepReadsNoOtherLane := by
  unfold Obligations.LaneStepReadsNoOtherLane
  intro s l others hlen hl
  rw [← State.withOthers_eq hl, ← stepLane_withOthers hlen]
  refine ⟨fun t ht => ?_, fun r hr => ?_⟩
  · rw [ht]; rfl
  · rw [hr]; rfl

end Sys2Proof.Machine

namespace Sys2Proof.Machine

/-! ### The step of the lane whose turn it is (30_encoding.md R88) -/

/-- No completion is due while a lane runs (70_reset_and_hazards.md R177). -/
theorem completionDue_eq_false_of_running {s : State} {l : Nat} (h : (s.lane l).status = .running) :
    s.completionDue = false := by
  have hlt := s.lt_of_running l h
  have hmem : s.lane l ∈ s.lanes := by
    rw [State.lane, List.getD_eq_getElem _ _ hlt]
    exact List.getElem_mem hlt
  have hall : s.lanes.all (fun L => L.status != .running) = false :=
    List.all_eq_false.2 ⟨s.lane l, hmem, by simp [h]⟩
  simp [State.completionDue, hall]

theorem stepLane_of_running {s : State} {l : Nat} (hr : s.runState = .running) (hl : (s.lane l).status = .running) :
    stepLane l s = stepInstance { s with cur := l } := by
  have hact : s.active l = true := by simp [State.active, hl]
  rw [stepLane, if_pos ⟨hr, hact⟩]

/-- When it is a lane's turn, the step of the block is `stepInstance` of that lane. -/
theorem step_of_nextLane {s : State} {l : Nat} (h : NextLane s l) : step s = stepInstance (s.choose l) := by
  obtain ⟨hr, hl, hturn⟩ := h
  have hdue := completionDue_eq_false_of_running hl
  rcases hturn with ⟨rest, ha⟩ | ⟨ha, hp⟩
  · simp only [step, blockStep, hdue, ha, handle, Bool.false_eq_true, if_false, State.choose, List.tail_cons]
    exact stepLane_of_running (s := { s with agenda := rest }) hr hl
  · simp only [step, blockStep, hdue, ha, hp, Bool.false_eq_true, if_false, State.choose, List.tail_nil]
    rw [stepLane_of_running hr hl, ← ha]

/-- Where the words of an instruction that the mode allows stand at `a`, decoding at `a` gives it. -/
theorem decodeAt_of_holdsAt {s : State} {a : Nat} {i : Instr} (h : s.holdsAt a i)
    (hl : i.legalIn s.launch.mode = true) : decodeAt s a = .instr i := by
  refine decodeAt_instr.2 ⟨hl, fun j hj => ?_⟩
  obtain ⟨hlt, hread⟩ := h j hj
  exact fetchWord_got.2 ⟨a + j, by simp, hlt, hread⟩

/-- Settles O25: the lane decodes the instruction and finds no room for its records. -/
theorem fullPortHoldsTheStep : Obligations.FullPortHoldsTheStep := by
  unfold Obligations.FullPortHoldsTheStep
  intro s l a i hn hip hw hl hfull
  have hdec : decodeAt (s.choose l) (s.choose l).me.ip.toInt = .instr i := by
    have hme : (s.choose l).me = s.lane l := rfl
    rw [hme, hip]
    exact decodeAt_of_holdsAt hw hl
  have hroom : (s.choose l).noRoom i (s.choose l).me = true := decide_eq_true hfull
  rw [step_of_nextLane hn, stepInstance, hdec]
  simp only [hroom, if_true]

/-- Settles O29: a lane's step writes its own slot, the heaps, the port and the race record
(`stepInstance_frame`). -/
theorem lanesArePrivate : Obligations.LanesArePrivate := by
  unfold Obligations.LanesArePrivate
  intro s t l k hn hstep hk
  rw [step_of_nextLane hn] at hstep
  obtain ⟨⟨L, hlanes⟩, hframe⟩ := stepInstance_frame hstep
  have keeps {α : Type} (field : State → α) := congrArg field hframe
  exact ⟨State.lane_of_set (s := s) hlanes hk, keeps State.program, keeps State.launch, keeps State.cfg,
    keeps State.runState, keeps State.anyFault, keeps State.writeDropped, keeps State.launchErr, keeps State.ctrlMode,
    keeps State.ctrlTrace, keeps State.entry, keeps State.progLen, keeps State.stackCap, keeps State.laneCount,
    keeps State.groupSize, keeps State.heapCaps, keeps State.laneSel, keeps State.cycles, keeps State.accepted⟩

/-! ### Lanes that have finished (60_exceptions.md R144) -/

/-- A step of any slot leaves a slot that is not RUNNING. -/
theorem stepLane_lane_of_not_running {s t : State} {k l : Nat} (h : stepLane k s = .next t)
    (hl : (s.lane l).status ≠ .running) : t.lane l = s.lane l := by
  rcases stepLane_next h with rfl | ⟨-, hk, hi⟩
  · rfl
  · have hne : l ≠ k := by rintro rfl; exact hl hk
    obtain ⟨⟨L, hlanes⟩, -⟩ := stepInstance_frame hi
    exact State.lane_of_set (s := s) hlanes hne

@[simp] theorem State.busRead_lanes (s : State) (addr width : Nat) : (s.busRead addr width).lanes = s.lanes :=
  (congrArg State.lanes (busRead_frame s addr width) :)

@[simp] theorem State.acceptRecord_lanes (s : State) : s.acceptRecord.lanes = s.lanes := by
  unfold State.acceptRecord; split <;> rfl

theorem busWrite_lanes_of_running {s : State} (h : s.runState = .running) (addr : Nat) (data : List Byte) :
    (s.busWrite addr data).lanes = s.lanes := by
  rcases busWrite_running h addr data with ⟨v, hw⟩ | hw | hw <;> rw [hw]

/-- During a launch an event that is not a reset leaves a slot that is not RUNNING. -/
theorem handle_lane_of_not_running {e : Event} {s t : State} {l : Nat} (hr : s.runState = .running) (he : e ≠ .reset)
    (h : handle e s = .next t) (hl : (s.lane l).status ≠ .running) : t.lane l = s.lane l := by
  cases e with
  | lane k => exact stepLane_lane_of_not_running h hl
  | issue g ip => cases h; rfl
  | busWrite addr data => cases h; exact State.lane_congr (busWrite_lanes_of_running hr addr data) l
  | busRead addr width => cases h; exact State.lane_congr (s.busRead_lanes addr width) l
  | accept => cases h; exact State.lane_congr s.acceptRecord_lanes l
  | reset => exact absurd rfl he

/-- Settles O28, by the cases of `step_next`. -/
theorem finishedLanesStay : Obligations.FinishedLanesStay := by
  unfold Obligations.FinishedLanesStay
  intro s t l hr hnr hstep hfin
  have hl : (s.lane l).status ≠ .running := by rcases hfin with h | h <;> simp [h]
  rcases step_next hstep with ⟨-, rfl⟩ | ⟨-, e, rest, ha, hh⟩ | ⟨-, -, ⟨-, rfl⟩ | ⟨k, -, hk⟩⟩
  · rfl
  · have he : e ≠ .reset := by rintro rfl; exact hnr (by rw [ha]; rfl)
    exact handle_lane_of_not_running (s := { s with agenda := rest }) hr he hh hl
  · rfl
  · exact stepLane_lane_of_not_running hk hl

/-! ### The records of a step (10_state.md R55, R58) -/

/-- The TRACE record of the step, when the lane traces (R56). -/
theorem State.traced_out (s : State) (i : Instr) :
    (s.traced i).out = s.out ++ if s.me.trace then [traceRecord i s.me] else [] := by
  unfold State.traced
  split <;> simp

theorem State.length_traced_out (s : State) (i : Instr) :
    (s.traced i).out.length = s.out.length + if s.me.trace then 1 else 0 := by
  rw [s.traced_out, List.length_append]
  split <;> rfl

@[simp] theorem State.traced_me (s : State) (i : Instr) : (s.traced i).me = s.me :=
  State.me_congr (s.traced_lanes i) (s.traced_cur i)

/-- The port has room when it has room for every record of the step. -/
theorem State.noRoom_eq_false {s : State} {i : Instr} {L : Lane} :
    s.noRoom i L = false ↔ s.out.length + recordsOf i L ≤ s.cfg.outDepth := by
  rw [State.noRoom, decide_eq_false_iff_not, not_lt]

/-- A meaning emits at most the PRINT record of a PRINT that has a cell to pop (R57). -/
theorem exec_out {i : Instr} {s t : State} (h : exec i s = .next t) :
    ∃ new, t.out = s.out ++ new ∧ new.length ≤ if i = .print ∧ s.me.stack ≠ [] then 1 else 0 := by
  rcases exec_next h with ⟨c, -, rfl⟩ | ⟨u, L, hb, -, rfl⟩
  · exact ⟨[], by simp [raise], Nat.zero_le _⟩
  · cases hb with
    | print v hs => exact ⟨[.print s.me.laneId v], rfl, by simp [hs]⟩
    | same i => exact ⟨[], by simp, Nat.zero_le _⟩
    | gstore address k v hk => exact ⟨[], by simp, Nat.zero_le _⟩
    | gstoreIndexed base k v hk => exact ⟨[], by simp, Nat.zero_le _⟩
    | laneRead selector a k v ha hk hv => exact ⟨[], by simp, Nat.zero_le _⟩
    | laneWrite selector a k v ha hk => exact ⟨[], by simp, Nat.zero_le _⟩

theorem recordsOf_le_two (i : Instr) (L : Lane) : recordsOf i L ≤ 2 := by
  unfold recordsOf
  split <;> split <;> omega

/-- A lane's step appends at most two records, and only where they fit. -/
theorem stepInstance_out {s t : State} (h : stepInstance s = .next t) :
    ∃ new, t.out = s.out ++ new ∧ new.length ≤ 2 ∧ (new = [] ∨ t.out.length ≤ s.cfg.outDepth) := by
  rcases stepInstance_next h with ⟨c, w, -, -, rfl⟩ | ⟨i, -, ⟨-, rfl⟩ | ⟨hroom, he⟩⟩
  · exact ⟨[], by simp [raise], Nat.zero_le _, .inl rfl⟩
  · exact ⟨[], by simp, Nat.zero_le _, .inl rfl⟩
  · obtain ⟨new, hout, hlen⟩ := exec_out he
    rw [s.traced_out] at hout
    rw [s.traced_me] at hlen
    have hrec : ((if s.me.trace then [traceRecord i s.me] else []) ++ new).length ≤ recordsOf i s.me := by
      rw [List.length_append, recordsOf]
      refine Nat.add_le_add ?_ hlen
      split <;> simp
    rw [State.noRoom_eq_false] at hroom
    refine ⟨_, by rw [hout, List.append_assoc], hrec.trans (recordsOf_le_two i s.me), .inr ?_⟩
    rw [hout, List.append_assoc, List.length_append]
    omega

end Sys2Proof.Machine

namespace Sys2Proof.Machine

/-! ### What a host write can do -/

/-- Everything a host write can do to the block (10_state.md R37 to R52). -/
inductive HostWrite (s : State) : State → Prop where
  | ignored : HostWrite s s
  | laneSel (v : Word) : HostWrite s { s with laneSel := v }
  | dropped (hr : s.runState = .running) : HostWrite s { s with writeDropped := true }
  | entry (v : Word) (hr : s.runState ≠ .running) : HostWrite s { s with entry := v }
  | progLen (v : Word) (hr : s.runState ≠ .running) : HostWrite s { s with progLen := v }
  | stackCap (v : Word) (hr : s.runState ≠ .running) : HostWrite s { s with stackCap := v }
  | laneCount (v : Word) (hr : s.runState ≠ .running) : HostWrite s { s with laneCount := v }
  | groupSize (v : Word) (hr : s.runState ≠ .running) : HostWrite s { s with groupSize := v }
  | heapCap (h : Nat) (v : Word) (hr : s.runState ≠ .running) :
      HostWrite s { s with heapCaps := s.heapCaps.set h v }
  | fill (h n : Nat) (f : Nat → Word) (hr : s.runState ≠ .running) (hn : n ≤ s.cfg.maxHeapWords) :
      HostWrite s { s with heaps := s.heaps.set h ((s.heap h).fill n f) }
  | program (k : Nat) (v : Word) (hr : s.runState ≠ .running) (hk : k < s.cfg.progCap) :
      HostWrite s { s with program := s.program.write k v }
  | heap (h k : Nat) (v : Word) (hr : s.runState ≠ .running) (hk : k < s.cfg.maxHeapWords) :
      HostWrite s (s.heapWrite h k v)
  | ctrl (m : Mode) (tr : Bool) (hr : s.runState ≠ .running) : HostWrite s { s with ctrlMode := m, ctrlTrace := tr }
  | refused (m : Mode) (tr : Bool) (e : LaunchErr) (hr : s.runState ≠ .running) (he : e ≠ .none) :
      HostWrite s (State.refusedBy { s with ctrlMode := m, ctrlTrace := tr } e)
  | started (m : Mode) (tr : Bool) (hr : s.runState ≠ .running)
      (hc : State.launchCheck { s with ctrlMode := m, ctrlTrace := tr } = .none) :
      HostWrite s (State.startLaunch { s with ctrlMode := m, ctrlTrace := tr })

theorem requestLaunch_cases (s : State) :
    s.launchCheck = .none ∧ s.requestLaunch = s.startLaunch ∨
      ∃ e, e ≠ .none ∧ s.requestLaunch = s.refusedBy e := by
  unfold State.requestLaunch
  split
  · exact .inl ⟨‹_›, rfl⟩
  · exact .inr ⟨_, ‹_›, rfl⟩

theorem hostWrite_writeCtrl {s : State} (hr : s.runState ≠ .running) (v : Word) : HostWrite s (s.writeCtrl v) := by
  unfold State.writeCtrl
  dsimp only
  split
  · rcases requestLaunch_cases { s with
        ctrlMode := if v.getLsbD 1 then .lane else .seq, ctrlTrace := v.getLsbD 2 } with ⟨hc, h⟩ | ⟨e, he, h⟩
    · rw [h]; exact .started _ _ hr hc
    · rw [h]; exact .refused _ _ e hr he
  · exact .ctrl _ _ hr

theorem hostWrite_heapCmd {s : State} (hr : s.runState ≠ .running) (v : Word) : HostWrite s (s.heapCmd v) := by
  unfold State.heapCmd
  dsimp only
  split
  · split
    · exact .fill _ _ _ hr (Nat.min_le_right _ _)
    · split
      · exact .fill _ _ _ hr (Nat.min_le_right _ _)
      · exact .ignored
  · exact .ignored

theorem hostWrite_writeConfig {s : State} (hr : s.runState ≠ .running) (off : Nat) (v : Word) :
    HostWrite s (s.writeConfig off v) := by
  unfold State.writeConfig
  split
  · exact hostWrite_writeCtrl hr v
  · exact .entry v hr
  · exact .progLen v hr
  · exact .stackCap v hr
  · exact .laneCount v hr
  · exact .groupSize v hr
  · exact hostWrite_heapCmd hr v
  · exact .heapCap _ v hr

theorem hostWrite_writeReg (s : State) (off : Nat) (v : Word) : HostWrite s (s.writeReg off v) := by
  unfold State.writeReg
  split
  · exact .laneSel v
  · split
    · split
      · exact .dropped ‹_›
      · exact hostWrite_writeConfig ‹_› off v
    · exact .ignored

/-- Everything a host write can do. -/
theorem hostWrite_busWrite (s : State) (addr : Nat) (data : List Byte) : HostWrite s (s.busWrite addr data) := by
  unfold State.busWrite
  split
  · exact .ignored
  · rename_i w off hloc
    split
    · cases w with
      | regs => exact hostWrite_writeReg s off _
      | program =>
        have hoff := locate_program hloc
        dsimp only
        split
        · exact .dropped ‹_›
        · exact .program _ _ ‹_› (by omega)
      | heap h =>
        obtain ⟨-, hoff⟩ := locate_heap hloc
        dsimp only
        split
        · exact .dropped ‹_›
        · exact .heap _ _ _ ‹_› (by omega)
    · exact .ignored

/-! ### No record is lost (10_state.md R55, R58) -/

/-- A host write leaves the port (R59: a launch keeps the records of the one before). -/
theorem HostWrite.port {s t : State} (h : HostWrite s t) : t.out = s.out ∧ t.accepted = s.accepted := by
  cases h <;> exact ⟨rfl, rfl⟩

theorem busRead_port (s : State) (addr width : Nat) :
    (s.busRead addr width).out = s.out ∧ (s.busRead addr width).accepted = s.accepted :=
  ⟨(congrArg State.out (busRead_frame s addr width) :), (congrArg State.accepted (busRead_frame s addr width) :)⟩

/-- From `s` to `t` the records accepted and buffered only grow, by at most two at the end, and the buffer does not
outgrow OUT_DEPTH. -/
def RecordsKept (s t : State) : Prop :=
  (∃ new, t.accepted ++ t.out = s.accepted ++ s.out ++ new ∧ new.length ≤ 2) ∧
  t.out.length ≤ max s.out.length s.cfg.outDepth

theorem recordsKept_of_eq {s t : State} (h : t.out = s.out ∧ t.accepted = s.accepted) : RecordsKept s t := by
  obtain ⟨ho, ha⟩ := h
  rw [RecordsKept, ho, ha]
  exact ⟨⟨[], by simp, Nat.zero_le _⟩, Nat.le_max_left _ _⟩

theorem recordsKept_stepInstance {s t : State} (h : stepInstance s = .next t) : RecordsKept s t := by
  obtain ⟨new, hout, hlen, hfit⟩ := stepInstance_out h
  obtain ⟨-, hframe⟩ := stepInstance_frame h
  have hacc : t.accepted = s.accepted := (congrArg State.accepted hframe :)
  refine ⟨⟨new, by rw [hacc, hout, List.append_assoc], hlen⟩, ?_⟩
  rcases hfit with rfl | hfit
  · rw [hout, List.append_nil]; exact Nat.le_max_left _ _
  · exact hfit.trans (Nat.le_max_right _ _)

theorem recordsKept_stepLane {l : Nat} {s t : State} (h : stepLane l s = .next t) : RecordsKept s t := by
  rcases stepLane_next h with rfl | ⟨-, -, hi⟩
  · exact recordsKept_of_eq ⟨rfl, rfl⟩
  · exact recordsKept_stepInstance (s := { s with cur := l }) hi

/-- An acceptance moves a record from the head of the buffer to the end of the accepted ones. -/
theorem recordsKept_acceptRecord (s : State) : RecordsKept s s.acceptRecord := by
  unfold State.acceptRecord
  split
  · exact recordsKept_of_eq ⟨rfl, rfl⟩
  · rename_i r rest hout
    refine ⟨⟨[], by simp [hout], Nat.zero_le _⟩, ?_⟩
    simp only [hout, List.length_cons]
    omega

theorem recordsKept_handle {e : Event} {s t : State} (he : e ≠ .reset) (h : handle e s = .next t) :
    RecordsKept s t := by
  cases e with
  | lane l => exact recordsKept_stepLane h
  | issue g ip => cases h; exact recordsKept_of_eq ⟨rfl, rfl⟩
  | busWrite addr data => cases h; exact recordsKept_of_eq (hostWrite_busWrite s addr data).port
  | busRead addr width => cases h; exact recordsKept_of_eq (busRead_port s addr width)
  | accept => cases h; exact recordsKept_acceptRecord s
  | reset => exact absurd rfl he

/-- Settles O54, by the cases of `step_next`. -/
theorem noRecordIsLost : Obligations.NoRecordIsLost := by
  unfold Obligations.NoRecordIsLost
  intro s t hnr hstep
  rcases step_next hstep with ⟨-, rfl⟩ | ⟨-, e, rest, ha, hh⟩ | ⟨-, -, ⟨-, rfl⟩ | ⟨l, -, hl⟩⟩
  · exact recordsKept_of_eq ⟨rfl, rfl⟩
  · have he : e ≠ .reset := by rintro rfl; exact hnr (by rw [ha]; rfl)
    exact recordsKept_handle (s := { s with agenda := rest }) he hh
  · exact recordsKept_of_eq ⟨rfl, rfl⟩
  · exact recordsKept_stepLane hl

end Sys2Proof.Machine

namespace Sys2Proof.Machine

/-! ### The parts of the invariant, as propositions -/

theorem beq_beq_bne_iff {α β : Type} [DecidableEq α] [DecidableEq β] {a b : α} {c d : β} :
    ((a == b) == (c != d)) = true ↔ (a = b ↔ c ≠ d) := by
  rw [beq_iff_eq, Bool.eq_iff_iff]
  simp

theorem memoryWf_iff {s : State} : s.memoryWf = true ↔
    (s.program.wf = true ∧ s.program.below s.cfg.progCap = true) ∧
      ∀ m ∈ s.heaps, m.wf = true ∧ m.below s.cfg.maxHeapWords = true := by
  simp [State.memoryWf]

theorem slotsWf_iff {s : State} : s.slotsWf = true ↔
    s.heaps.length = s.cfg.numHeaps ∧ s.heapCaps.length = s.cfg.numHeaps ∧
      s.launch.heapCaps.length = s.cfg.numHeaps := by
  simp [State.slotsWf, and_assoc]

theorem launchWf_iff {s : State} : s.launchWf = true ↔
    (s.launch.mode = .lane → s.launch.laneCount ≠ 0 ∧ s.launch.laneCount.toNat ≤ s.cfg.maxLanes ∧
      s.launch.groupSize.toNat ≤ s.cfg.maxGroupSize) ∧
    s.launch.progLen.toNat ≤ s.cfg.progCap ∧ s.launch.stackCap.toNat ≤ s.cfg.maxStackCap ∧
    ∀ h ∈ heapsUsed s.launch.mode s.cfg, s.heapCap h ≤ s.cfg.maxHeapWords := by
  cases hm : s.launch.mode <;> simp [State.launchWf, hm, and_assoc]

theorem lanesFit_iff {s : State} : s.lanesFit = true ↔
    s.lanes.length ≤ s.cfg.maxLanes ∧
      (s.lanes.length = s.launch.lanesUsed ∨ s.lanes = [] ∧ (s.runState = .idle ∨ s.runState = .rejected)) := by
  simp [State.lanesFit]

theorem lanesWf_iff {s : State} : s.lanesWf = true ↔
    ∀ l, l < s.lanes.length → (s.lane l).wf s.launch l = true := by
  simp [State.lanesWf]

theorem statusWf_iff {s : State} : s.statusWf = true ↔
    (s.runState = .running ∨ ∀ L ∈ s.lanes, L.status ≠ .running) ∧
      (s.runState = .rejected ↔ s.launchErr ≠ .none) ∧ (s.runState = .done ∨ s.anyFault = false) := by
  simp only [State.statusWf, Bool.and_eq_true, beq_beq_bne_iff, and_assoc]
  simp

theorem portWf_iff {s : State} : s.portWf = true ↔
    s.out.length ≤ s.cfg.outDepth ∧ s.outOld ≤ s.out.length ∧
      (s.runState = .running ∨ s.out.length ≤ s.outOld) := by
  simp [State.portWf, and_assoc]

theorem laneWf_iff {c : Launch} {l : Nat} {L : Lane} : L.wf c l = true ↔
    L.status ≠ .inactive ∧ L.stack.length ≤ c.stackCap.toNat ∧ L.laneId = BitVec.ofNat 32 l ∧ L.trace = c.traceEn ∧
      (L.status = .faulted ↔ L.faultCode ≠ .none) ∧ (L.faultCode = .none → L.faultIp = 0 ∧ L.faultWord = 0) := by
  simp only [Lane.wf, Bool.and_eq_true, beq_beq_bne_iff, and_assoc]
  simp [or_iff_not_imp_left]

/-! ### Reset -/

/-- Reset meets the invariant. -/
theorem inv_resetWith {p : Params} (h : p.wf = true) : (State.resetWith p).Inv := by
  refine ⟨h, memoryWf_iff.2 ?_, slotsWf_iff.2 ?_, launchWf_iff.2 ?_, lanesFit_iff.2 ?_, lanesWf_iff.2 ?_,
    statusWf_iff.2 ?_, portWf_iff.2 ?_⟩
  · refine ⟨⟨rfl, rfl⟩, fun m hm => ?_⟩
    obtain rfl := List.eq_of_mem_replicate hm
    exact ⟨rfl, rfl⟩
  · simp [State.resetWith, Launch.reset]
  · simp [State.resetWith, Launch.reset, State.heapCap, heapsUsed]
  · simp [State.resetWith]
  · simp [State.resetWith]
  · simp [State.resetWith]
  · simp [State.resetWith]

/-- Settles O57. -/
theorem resetHasTheInvariant : Obligations.ResetHasTheInvariant :=
  ⟨fun _ h => inv_resetWith h, inv_resetWith (by decide)⟩

/-! ### Writes of a lane's step -/

theorem inv_setLane {s : State} {l : Nat} {L : Lane} (h : s.Inv) (hr : s.runState = .running)
    (hL : L.wf s.launch l = true) : (s.setLane l L).Inv := by
  obtain ⟨hcfg, hmem, hslots, hlaunch, hfit, hlanes, hstat, hport⟩ := h
  refine ⟨hcfg, hmem, hslots, hlaunch, ?_, lanesWf_iff.2 fun k hk => ?_, ?_, hport⟩
  · rw [lanesFit_iff] at hfit ⊢
    simpa using hfit
  · rw [State.setLane_lanes, List.length_set] at hk
    by_cases hkl : k = l
    · subst hkl
      rw [s.lane_setLane_self k L hk]
      exact hL
    · rw [s.lane_setLane_ne l k L hkl]
      exact lanesWf_iff.1 hlanes k hk
  · rw [statusWf_iff] at hstat ⊢
    exact ⟨.inl hr, hstat.2⟩

theorem heap_wf {s : State} (h : s.memoryWf = true) (a : Nat) :
    (s.heap a).wf = true ∧ (s.heap a).below s.cfg.maxHeapWords = true := by
  rw [memoryWf_iff] at h
  by_cases ha : a < s.heaps.length
  · rw [State.heap, List.getD_eq_getElem _ _ ha]
    exact h.2 _ (List.getElem_mem ha)
  · rw [State.heap, List.getD_eq_default _ _ (Nat.le_of_not_lt ha)]
    exact ⟨rfl, rfl⟩

/-- Any heap may be replaced by one in canonical form and within its size. -/
theorem inv_setHeap {s : State} {a : Nat} {m : Memory} (h : s.Inv) (hwf : m.wf = true)
    (hb : m.below s.cfg.maxHeapWords = true) : State.Inv { s with heaps := s.heaps.set a m } := by
  obtain ⟨hcfg, hmem, hslots, hrest⟩ := h
  refine ⟨hcfg, ?_, ?_, hrest⟩
  · rw [memoryWf_iff] at hmem ⊢
    refine ⟨hmem.1, fun m' hm' => ?_⟩
    rcases List.mem_or_eq_of_mem_set hm' with hm' | rfl
    · exact hmem.2 m' hm'
    · exact ⟨hwf, hb⟩
  · rw [slotsWf_iff] at hslots ⊢
    simpa using hslots

theorem inv_heapWrite {s : State} {a k : Nat} {v : Word} (h : s.Inv) (hk : k < s.cfg.maxHeapWords) :
    (s.heapWrite a k v).Inv := by
  obtain ⟨hwf, hb⟩ := heap_wf h.2.1 a
  exact inv_setHeap h (Memory.write_wf _ k v hwf) (Memory.write_below _ k _ v hk hb)

theorem inv_emit {s : State} {r : Record} (h : s.Inv) (hr : s.runState = .running)
    (hroom : s.out.length < s.cfg.outDepth) : (s.emit r).Inv := by
  obtain ⟨hcfg, hmem, hslots, hlaunch, hfit, hlanes, hstat, hport⟩ := h
  refine ⟨hcfg, hmem, hslots, hlaunch, hfit, hlanes, hstat, ?_⟩
  rw [portWf_iff] at hport ⊢
  simp only [State.emit_out, State.emit_cfg, State.emit_outOld, State.emit_runState, List.length_append,
    List.length_singleton]
  exact ⟨by omega, by omega, .inl hr⟩

theorem inv_laneRead {s : State} {a k : Nat} {v : Word} (h : s.Inv) : (s.laneRead a k v).2.Inv := by
  unfold State.laneRead
  split <;> exact h

theorem inv_laneWrite {s : State} {a k : Nat} {v : Word} (h : s.Inv) (hk : k < s.cfg.maxHeapWords) :
    (s.laneWrite a k v).Inv := by
  unfold State.laneWrite
  split <;> exact inv_heapWrite (s := s) h hk

/-- A heap word that the mode lets the lane reach lies within the heap. -/
theorem lt_maxHeapWords {s : State} {a k : Nat} (h : s.Inv) (ha : a ∈ heapsUsed s.launch.mode s.cfg)
    (hk : k < s.heapCap a) : k < s.cfg.maxHeapWords := by
  obtain ⟨-, -, -, hcaps⟩ := launchWf_iff.1 h.2.2.2.1
  exact hk.trans_le (hcaps a ha)

theorem zero_mem_heapsUsed {s : State} (hm : (s.launch.mode == .seq) = true) : 0 ∈ heapsUsed s.launch.mode s.cfg := by
  rw [beq_iff_eq.1 hm]; exact List.mem_singleton_self 0

theorem mem_heapsUsed {s : State} {a : Nat} (hm : (s.launch.mode == .lane) = true) (ha : a < s.cfg.numHeaps) :
    a ∈ heapsUsed s.launch.mode s.cfg := by
  rw [beq_iff_eq.1 hm]; exact List.mem_range.2 ha

/-- What a legal instruction does outside its lane keeps the invariant. -/
theorem inv_stepBase {i : Instr} {s u : State} (h : s.Inv) (hr : s.runState = .running)
    (hl : i.legalIn s.launch.mode = true) (hroom : i = .print → s.me.stack ≠ [] → s.out.length < s.cfg.outDepth)
    (hb : StepBase s i u) : u.Inv := by
  cases hb with
  | same i => exact h
  | gstore address k v hk => exact inv_heapWrite h (lt_maxHeapWords h (zero_mem_heapsUsed hl) hk)
  | gstoreIndexed base k v hk => exact inv_heapWrite h (lt_maxHeapWords h (zero_mem_heapsUsed hl) hk)
  | print v hs => exact inv_emit h hr (hroom rfl hs)
  | laneRead selector a k v ha hk hv => exact inv_laneRead h
  | laneWrite selector a k v ha hk => exact inv_laneWrite h (lt_maxHeapWords h (mem_heapsUsed hl ha) hk)

/-- What a meaning keeps of a running lane keeps it well formed. -/
theorem KeptLane.wf {s : State} {i : Instr} {L : Lane} {l : Nat} (hk : KeptLane s i L)
    (hw : s.me.wf s.launch l = true) (hme : s.me.status = .running) : L.wf s.launch l = true := by
  obtain ⟨-, hstack, hid, htr, hfault, hclean⟩ := laneWf_iff.1 hw
  have hcode : s.me.faultCode = .none := by
    by_contra hne
    rw [hfault.2 hne] at hme
    cases hme
  have hstat : L.status = .running ∨ L.status = .halted := by
    rcases hk.status with he | ⟨-, he⟩
    · exact .inl (he.trans hme)
    · exact .inr he
  refine laneWf_iff.2 ⟨?_, ?_, hk.laneId.trans hid, hk.trace.trans htr, ?_, fun _ => ?_⟩
  · rcases hstat with he | he <;> simp [he]
  · exact hk.stack.trans (max_le hstack le_rfl)
  · rw [hk.faultCode, hcode]
    rcases hstat with he | he <;> simp [he]
  · rw [hk.faultIp, hk.faultWord]
    exact hclean hcode

/-- The lane that takes a fault stays well formed. -/
theorem faulted_wf {c : Launch} {l : Nat} {L : Lane} {code : FaultCode} {ip word : Word} (hw : L.wf c l = true)
    (hc : code ≠ .none) :
    Lane.wf c l { L with status := .faulted, faultCode := code, faultIp := ip, faultWord := word } = true := by
  obtain ⟨-, hstack, hid, htr, -⟩ := laneWf_iff.1 hw
  exact laneWf_iff.2 ⟨by simp, hstack, hid, htr, by simp [hc], fun h => absurd h hc⟩

theorem me_wf {s : State} (h : s.Inv) (hme : s.me.status = .running) : s.me.wf s.launch s.cur = true :=
  lanesWf_iff.1 h.2.2.2.2.2.1 s.cur (s.cur_lt hme)

theorem inv_raise {s : State} {c : FaultCode} {w : Word} (h : s.Inv) (hr : s.runState = .running)
    (hme : s.me.status = .running) (hc : c ≠ .none) : (raise c w s).Inv :=
  inv_setLane h hr (faulted_wf (me_wf h hme) hc)

/-- A legal instruction of a running lane keeps the invariant. -/
theorem inv_exec {i : Instr} {s t : State} (h : s.Inv) (hr : s.runState = .running) (hme : s.me.status = .running)
    (hl : i.legalIn s.launch.mode = true) (hroom : i = .print → s.me.stack ≠ [] → s.out.length < s.cfg.outDepth)
    (he : exec i s = .next t) : t.Inv := by
  rcases exec_next he with ⟨c, hc, rfl⟩ | ⟨u, L, hb, hk, rfl⟩
  · exact inv_raise h hr hme hc
  · have hframe := stepBase_frame hb
    have hrun : u.runState = s.runState := (congrArg State.runState hframe :)
    have hlaunch : u.launch = s.launch := (congrArg State.launch hframe :)
    obtain ⟨-, hcur⟩ := stepBase_lanes hb
    refine inv_setLane (inv_stepBase h hr hl hroom hb) (hrun.trans hr) ?_
    rw [hlaunch, hcur]
    exact hk.wf (me_wf h hme) hme

theorem inv_traced {i : Instr} {s : State} (h : s.Inv) (hr : s.runState = .running)
    (hroom : s.me.trace = true → s.out.length < s.cfg.outDepth) : (s.traced i).Inv := by
  unfold State.traced
  split
  · exact inv_emit h hr (hroom ‹_›)
  · exact h

/-- A step of a running lane keeps the invariant. -/
theorem inv_stepInstance {s t : State} (h : s.Inv) (hr : s.runState = .running) (hme : s.me.status = .running)
    (hs : stepInstance s = .next t) : t.Inv := by
  rcases stepInstance_next hs with ⟨c, w, hc, -, rfl⟩ | ⟨i, hd, ⟨-, rfl⟩ | ⟨hroom, he⟩⟩
  · exact inv_raise h hr hme hc
  · exact h
  · have hlen := s.length_traced_out i
    have hrun : (s.traced i).runState = .running := by unfold State.traced; split <;> exact hr
    have hlaunch : (s.traced i).launch = s.launch := by unfold State.traced; split <;> rfl
    have hcfg : (s.traced i).cfg = s.cfg := by unfold State.traced; split <;> rfl
    rw [State.noRoom_eq_false, recordsOf] at hroom
    have htr : (s.traced i).Inv := inv_traced h hr fun ht => by rw [if_pos ht] at hroom; omega
    refine inv_exec htr hrun (by rw [s.traced_me, hme]) (hlaunch ▸ decodeAt_legal hd) (fun hp hst => ?_) he
    rw [s.traced_me] at hst
    rw [if_pos (c := i = .print ∧ s.me.stack ≠ []) ⟨hp, hst⟩] at hroom
    rw [hcfg]
    omega

theorem inv_stepLane {l : Nat} {s t : State} (h : s.Inv) (hs : stepLane l s = .next t) : t.Inv := by
  rcases stepLane_next hs with rfl | ⟨hr, hl, hi⟩
  · exact h
  · exact inv_stepInstance (s := { s with cur := l }) h hr hl hi

/-! ### The host's writes and reads -/

/-- Outside a launch no slot runs and the buffer holds no record of the launch. -/
theorem inv_not_running {s : State} (h : s.Inv) (hr : s.runState ≠ .running) :
    (∀ L ∈ s.lanes, L.status ≠ .running) ∧ s.out.length ≤ s.outOld := by
  obtain ⟨-, -, -, -, -, -, hstat, hport⟩ := h
  obtain ⟨-, -, hold⟩ := portWf_iff.1 hport
  exact ⟨(statusWf_iff.1 hstat).1.resolve_left hr, hold.resolve_left hr⟩

/-- A refused launch request (70_reset_and_hazards.md R175). -/
theorem inv_refusedBy {s : State} {e : LaunchErr} (h : s.Inv) (hr : s.runState ≠ .running) (he : e ≠ .none) :
    (s.refusedBy e).Inv := by
  obtain ⟨hnone, hold⟩ := inv_not_running h hr
  obtain ⟨hcfg, hmem, hslots, hlaunch, hfit, hlanes, hstat, hport⟩ := h
  refine ⟨hcfg, hmem, hslots, hlaunch, ?_, hlanes, ?_, ?_⟩
  · obtain ⟨hlen, hused⟩ := lanesFit_iff.1 hfit
    exact lanesFit_iff.2 ⟨hlen, hused.imp_right fun hz => ⟨hz.1, .inr rfl⟩⟩
  · exact statusWf_iff.2 ⟨.inr hnone, by simp [State.refusedBy, he], .inr rfl⟩
  · obtain ⟨hdepth, hle, -⟩ := portWf_iff.1 hport
    exact portWf_iff.2 ⟨hdepth, hle, .inr hold⟩

/-- What the checks of R175 leave when none fails. -/
theorem launchCheck_eq_none {s : State} (h : s.launchCheck = .none) :
    (s.ctrlMode = .lane → s.laneCount ≠ 0 ∧ s.laneCount.toNat ≤ s.cfg.maxLanes ∧
      s.groupSize.toNat ≤ s.cfg.maxGroupSize) ∧
    s.progLen.toNat ≤ s.cfg.progCap ∧ s.stackCap.toNat ≤ s.cfg.maxStackCap ∧
    ∀ a ∈ heapsUsed s.ctrlMode s.cfg, (s.heapCaps.getD a 0).toNat ≤ s.cfg.maxHeapWords := by
  unfold State.launchCheck at h
  split at h
  · cases h
  · rename_i hlanes
    split at h
    · cases h
    · rename_i hgroup
      split at h
      · cases h
      · rename_i hprog
        split at h
        · cases h
        · rename_i hstack
          split at h
          · cases h
          · rename_i hheap
            simp only [List.any_eq_true, decide_eq_true_eq, not_exists, not_and, not_lt] at hheap
            refine ⟨fun hm => ?_, not_lt.1 hprog, not_lt.1 hstack, hheap⟩
            rw [hm] at hlanes hgroup
            simp only [true_and, not_or, not_lt] at hlanes hgroup
            exact ⟨hlanes.1, hlanes.2, hgroup⟩

theorem length_freshLanes (c : Launch) : (freshLanes c).length = c.lanesUsed := by
  unfold freshLanes Launch.lanesUsed
  cases c.mode <;> simp

theorem freshLane_wf (c : Launch) (l : Nat) : (freshLane c l).wf c l = true :=
  laneWf_iff.2 (by simp [freshLane])

/-- Slot `l` of an accepted launch holds its fresh lane. -/
theorem startLaunch_lane {s : State} {l : Nat} (hl : l < s.startLaunch.lanes.length) :
    s.startLaunch.lane l = freshLane s.latch l := by
  rw [State.lane, List.getD_eq_getElem _ _ hl]
  simp [State.startLaunch, freshLanes]

theorem maxLanes_bounds {p : Params} (h : p.wf = true) : 1 ≤ p.maxLanes ∧ p.maxLanes < 2 ^ 31 := by
  simp only [Params.wf, Bool.and_eq_true, decide_eq_true_eq] at h
  omega

/-- An accepted launch request (R176). -/
theorem inv_startLaunch {s : State} (h : s.Inv) (hc : s.launchCheck = .none) : s.startLaunch.Inv := by
  obtain ⟨hlane, hprog, hstack, hheap⟩ := launchCheck_eq_none hc
  obtain ⟨hcfg, hmem, hslots, hlaunch, hfit, hlanes, hstat, hport⟩ := h
  have hlen : (freshLanes s.latch).length = s.latch.lanesUsed := length_freshLanes _
  refine ⟨hcfg, hmem, ?_, launchWf_iff.2 ⟨hlane, hprog, hstack, hheap⟩, lanesFit_iff.2 ⟨?_, .inl hlen⟩,
    lanesWf_iff.2 fun l hl => ?_, statusWf_iff.2 ⟨.inl rfl, by simp [State.startLaunch], .inr rfl⟩, ?_⟩
  · obtain ⟨hheaps, hcaps, -⟩ := slotsWf_iff.1 hslots
    exact slotsWf_iff.2 ⟨hheaps, hcaps, hcaps⟩
  · show (freshLanes s.latch).length ≤ s.cfg.maxLanes
    rw [hlen, Launch.lanesUsed]
    split
    · exact (maxLanes_bounds hcfg).1
    · exact (hlane ‹_›).2.1
  · rw [startLaunch_lane hl]
    exact freshLane_wf s.latch l
  · obtain ⟨hdepth, -⟩ := portWf_iff.1 hport
    exact portWf_iff.2 ⟨hdepth, le_rfl, .inl rfl⟩

/-- A host write keeps the invariant. -/
theorem HostWrite.inv {s t : State} (hw : HostWrite s t) (h : s.Inv) : t.Inv := by
  cases hw with
  | ignored => exact h
  | laneSel v => exact h
  | dropped hr => exact h
  | entry v hr => exact h
  | progLen v hr => exact h
  | stackCap v hr => exact h
  | laneCount v hr => exact h
  | groupSize v hr => exact h
  | heapCap a v hr =>
    obtain ⟨hcfg, hmem, hslots, hrest⟩ := h
    refine ⟨hcfg, hmem, ?_, hrest⟩
    rw [slotsWf_iff] at hslots ⊢
    simpa using hslots
  | fill a n f hr hn =>
    obtain ⟨hwf, hb⟩ := heap_wf h.2.1 a
    exact inv_setHeap h (Memory.fill_wf _ n f hwf) (Memory.fill_below _ n _ f hn hb)
  | program k v hr hk =>
    obtain ⟨hcfg, hmem, hrest⟩ := h
    obtain ⟨⟨hwf, hb⟩, hheaps⟩ := memoryWf_iff.1 hmem
    exact ⟨hcfg, memoryWf_iff.2 ⟨⟨Memory.write_wf _ k v hwf, Memory.write_below _ k _ v hk hb⟩, hheaps⟩, hrest⟩
  | heap a k v hr hk => exact inv_heapWrite h hk
  | ctrl m tr hr => exact h
  | refused m tr e hr he => exact inv_refusedBy (s := { s with ctrlMode := m, ctrlTrace := tr }) h hr he
  | started m tr hr hc => exact inv_startLaunch (s := { s with ctrlMode := m, ctrlTrace := tr }) h hc

/-- The invariant speaks of no bookkeeping of the bus. -/
theorem inv_busRead {s : State} (h : s.Inv) (addr width : Nat) : (s.busRead addr width).Inv := by
  have hinv : State.Inv { s.busRead addr width with busData := s.busData, cycles := s.cycles, draws := s.draws } := by
    rw [busRead_frame]
    exact h
  exact hinv

theorem inv_acceptRecord {s : State} (h : s.Inv) : s.acceptRecord.Inv := by
  unfold State.acceptRecord
  split
  · exact h
  · rename_i r rest hout
    obtain ⟨hcfg, hmem, hslots, hlaunch, hfit, hlanes, hstat, hport⟩ := h
    refine ⟨hcfg, hmem, hslots, hlaunch, hfit, hlanes, hstat, ?_⟩
    rw [portWf_iff, hout, List.length_cons] at hport
    obtain ⟨hdepth, hle, hold⟩ := hport
    exact portWf_iff.2 ⟨by dsimp only; omega, by dsimp only; omega, hold.imp_right fun ho => by dsimp only; omega⟩

/-! ### Completion and the step of the block -/

theorem completionDue_iff {s : State} : s.completionDue = true ↔
    s.runState = .running ∧ (∀ L ∈ s.lanes, L.status ≠ .running) ∧ s.out.length ≤ s.outOld := by
  simp [State.completionDue, and_assoc]

/-- Completion keeps the invariant: no slot runs any more (70_reset_and_hazards.md R177). -/
theorem inv_complete {s : State} (h : s.Inv) (hdue : s.completionDue = true) : s.complete.Inv := by
  obtain ⟨hr, hnone, hold⟩ := completionDue_iff.1 hdue
  obtain ⟨hcfg, hmem, hslots, hlaunch, hfit, hlanes, hstat, hport⟩ := h
  refine ⟨hcfg, hmem, hslots, hlaunch, ?_, hlanes, ?_, ?_⟩
  · obtain ⟨hlen, hused⟩ := lanesFit_iff.1 hfit
    refine lanesFit_iff.2 ⟨hlen, .inl (hused.resolve_right ?_)⟩
    rintro ⟨-, hi | hi⟩ <;> rw [hr] at hi <;> cases hi
  · obtain ⟨-, herr, -⟩ := statusWf_iff.1 hstat
    have hne : s.launchErr = .none := by
      by_contra hne
      rw [hr] at herr
      cases herr.2 hne
    exact statusWf_iff.2 ⟨.inr hnone, by simp [State.complete, hne], .inl rfl⟩
  · obtain ⟨hdepth, hle, -⟩ := portWf_iff.1 hport
    exact portWf_iff.2 ⟨hdepth, hle, .inr hold⟩

theorem inv_handle {e : Event} {s t : State} (h : s.Inv) (hh : handle e s = .next t) : t.Inv := by
  cases e with
  | lane l => exact inv_stepLane h hh
  | issue g ip => cases hh; exact h
  | busWrite addr data => cases hh; exact (hostWrite_busWrite s addr data).inv h
  | busRead addr width => cases hh; exact inv_busRead h addr width
  | accept => cases hh; exact inv_acceptRecord h
  | reset => cases hh; exact inv_resetWith h.1

/-- Settles O55, by the cases of `step_next`. -/
theorem everyStepKeepsTheInvariant : Obligations.EveryStepKeepsTheInvariant := by
  unfold Obligations.EveryStepKeepsTheInvariant
  intro s t h hstep
  rcases step_next hstep with ⟨hdue, rfl⟩ | ⟨-, e, rest, -, hh⟩ | ⟨-, -, ⟨-, rfl⟩ | ⟨l, -, hl⟩⟩
  · exact inv_complete h hdue
  · exact inv_handle (s := { s with agenda := rest }) h hh
  · exact h
  · exact inv_stepLane h hl

/-! ### Consequences of the invariant -/

/-- Settles O56: the slots in use are well formed, and their number is below MAX_LANES. -/
theorem identitiesAreBelowLaneCount : Obligations.IdentitiesAreBelowLaneCount := by
  unfold Obligations.IdentitiesAreBelowLaneCount
  intro s l h hl
  have hlt := s.lt_of_status l hl
  obtain ⟨hcfg, -, -, -, hfit, hlanes, -, -⟩ := h
  obtain ⟨hmax, hused⟩ := lanesFit_iff.1 hfit
  obtain ⟨-, hbound⟩ := maxLanes_bounds hcfg
  obtain ⟨-, -, hid, -⟩ := laneWf_iff.1 (lanesWf_iff.1 hlanes l hlt)
  have hnum : (s.lane l).laneId.toNat = l := by
    rw [hid, BitVec.toNat_ofNat]
    omega
  have hlen : s.lanes.length = s.launch.lanesUsed :=
    hused.resolve_right fun hz => by rw [hz.1] at hlt; exact Nat.not_lt_zero _ hlt
  refine ⟨hnum, fun hm => ?_, fun hm => ?_⟩
  · have hcount : s.lanes.length = s.launch.laneCount.toNat := by rw [hlen, Launch.lanesUsed, hm]
    omega
  · have hone : s.lanes.length = 1 := by rw [hlen, Launch.lanesUsed, hm]
    obtain rfl : l = 0 := by omega
    exact hid

end Sys2Proof.Machine

namespace Sys2Proof.Machine

/-! ### The bound of R26 (log 16) -/

/-- A launch in mode SEQ whose one lane is in that state, with STACK_CAP 8 and no program. -/
def soloState (ip : Word) (stack : List Word) (fp depth : Word) : State :=
  let c : Launch := { Launch.reset Params.reference with stackCap := 8 }
  { State.reset with
    runState := .running
    launch := c
    lanes := [{ freshLane c 0 with ip := ip, stack := stack, fp := fp, depth := depth }] }

theorem inv_soloState_start : (soloState 0 [] 0 0).Inv := by unfold State.Inv; decide

theorem inv_soloState_beforeRet : (soloState 12 [0, 0, 3, 3, 2, 6, 9] 5 2).Inv := by unfold State.Inv; decide

/-- Settles O60: the STORE puts 3 over the numArgs of the second record, so RET drops the first record's cells too. -/
theorem depthBoundIsNotKept : Obligations.DepthBoundIsNotKept :=
  ⟨soloState 0 [] 0 0, soloState 3 [0, 0, 3] 2 1, soloState 6 [0, 0, 3, 0, 2, 6] 5 2,
    soloState 8 [0, 0, 3, 0, 2, 6, 3] 5 2, soloState 10 [0, 0, 3, 3, 2, 6] 5 2, soloState 12 [0, 0, 3, 3, 2, 6, 9] 5 2,
    soloState 6 [9] 2 1, inv_soloState_start, rfl, rfl, rfl, rfl, rfl, rfl, rfl, rfl, rfl, rfl,
    inv_soloState_beforeRet, rfl, rfl, rfl, by decide, by decide⟩

end Sys2Proof.Machine

namespace Sys2Proof.Machine

/-! ### Register accesses, an equation per case (10_state.md R38, R50, R52) -/

theorem configOffset_iff {s : State} {off : Nat} : s.configOffset off = true ↔
    off % 4 = 0 ∧ (off ≤ 0x01C ∧ off ≠ 0x004 ∨ 0x040 ≤ off ∧ off < 0x040 + 4 * s.cfg.numHeaps) := by
  simp only [State.configOffset, Bool.or_eq_true, Bool.and_eq_true, beq_iff_eq, bne_iff_ne, decide_eq_true_eq]
  omega

theorem writeReg_laneSel (s : State) (v : Word) : s.writeReg 0x080 v = { s with laneSel := v } := rfl

/-- With at most 16 heap slots LANE_SEL lies past the HEAP_CAP bank. -/
theorem ne_laneSel_of_configOffset {s : State} {off : Nat} (hc : s.configOffset off = true)
    (h : s.cfg.numHeaps ≤ 16) : off ≠ 0x080 := by
  rw [configOffset_iff] at hc
  omega

theorem writeReg_config {s : State} {off : Nat} (v : Word) (hoff : off ≠ 0x080) (hc : s.configOffset off = true)
    (hr : s.runState ≠ .running) : s.writeReg off v = s.writeConfig off v := by
  rw [State.writeReg, if_neg hoff, if_pos hc, if_neg hr]

theorem writeReg_dropped {s : State} {off : Nat} (v : Word) (hoff : off ≠ 0x080) (hc : s.configOffset off = true)
    (hr : s.runState = .running) : s.writeReg off v = { s with writeDropped := true } := by
  rw [State.writeReg, if_neg hoff, if_pos hc, if_pos hr]

/-- Outside CTRL to HEAP_CMD, the HEAP_CAP bank and LANE_SEL a write is ignored. -/
theorem writeReg_ignored {s : State} {off : Nat} (v : Word) (hsel : off ≠ 0x080) (hlow : 0x01C < off ∨ off = 0x004)
    (hbank : off < 0x040 ∨ 0x040 + 4 * s.cfg.numHeaps ≤ off) : s.writeReg off v = s := by
  have hc : ¬ s.configOffset off = true := by
    rw [configOffset_iff]
    omega
  rw [State.writeReg, if_neg hsel, if_neg hc]

theorem heapCapOffset_config {s : State} {h : Nat} (hh : h < s.cfg.numHeaps) :
    s.configOffset (0x040 + 4 * h) = true := configOffset_iff.2 (by omega)

theorem writeConfig_heapCap (s : State) (h : Nat) (v : Word) :
    s.writeConfig (0x040 + 4 * h) v = { s with heapCaps := s.heapCaps.set h v } := by
  have hidx : (0x040 + 4 * h - 0x040) / 4 = h := by omega
  unfold State.writeConfig
  split
  any_goals omega
  rw [hidx]

/-- HEAP_CAP[h] reads its register (R46). -/
theorem readReg_heapCap (s : State) {h : Nat} (h16 : s.cfg.numHeaps ≤ 16) (hh : h < s.cfg.numHeaps) :
    s.readReg (0x040 + 4 * h) = .value (s.heapCaps.getD h 0) := by
  have hidx : (0x040 + 4 * h - 0x040) / 4 = h := by omega
  rw [readReg_bank s (by omega) (by omega), if_pos (by omega), hidx]

/-- The lane result registers and LANE_STACK, by the three cases of R48 and R53. -/
theorem laneView_running {s : State} (f : Lane → HostRead) (hr : s.runState = .running) :
    s.laneView f = .unspecified := if_pos hr

theorem laneView_noSlot {s : State} (f : Lane → HostRead) (hr : s.runState ≠ .running)
    (hl : s.cfg.maxLanes ≤ s.laneSel.toNat) : s.laneView f = .value 0 := by
  rw [State.laneView, if_neg hr, if_pos hl]

theorem laneView_slot {s : State} (f : Lane → HostRead) (hr : s.runState ≠ .running)
    (hl : s.laneSel.toNat < s.cfg.maxLanes) : s.laneView f = f (s.lane s.laneSel.toNat) := by
  rw [State.laneView, if_neg hr, if_neg (Nat.not_le.2 hl)]

theorem readReg_laneStatus (s : State) : s.readReg 0x084 = s.laneView fun L => .value L.statusWord := rfl
theorem readReg_laneIp (s : State) : s.readReg 0x088 = s.laneView fun L => .value L.ip := rfl
theorem readReg_laneSp (s : State) : s.readReg 0x08C = s.laneView fun L => .value (BitVec.ofInt 32 L.sp) := rfl
theorem readReg_laneFp (s : State) : s.readReg 0x090 = s.laneView fun L => .value L.fp := rfl
theorem readReg_laneDepth (s : State) : s.readReg 0x094 = s.laneView fun L => .value L.depth := rfl
theorem readReg_laneFaultIp (s : State) : s.readReg 0x098 = s.laneView fun L => .value L.faultIp := rfl
theorem readReg_laneFaultWord (s : State) : s.readReg 0x09C = s.laneView fun L => .value L.faultWord := rfl

/-- The offsets of the lane result registers that show the selected slot. -/
def laneOffsets : List Nat := [0x084, 0x088, 0x08C, 0x090, 0x094, 0x098, 0x09C]

theorem readReg_laneOffset (s : State) {off : Nat} (h : off ∈ laneOffsets) : ∃ f, s.readReg off = s.laneView f := by
  simp only [laneOffsets, List.mem_cons, List.not_mem_nil, or_false] at h
  rcases h with rfl | rfl | rfl | rfl | rfl | rfl | rfl
  exacts [⟨_, readReg_laneStatus s⟩, ⟨_, readReg_laneIp s⟩, ⟨_, readReg_laneSp s⟩, ⟨_, readReg_laneFp s⟩,
    ⟨_, readReg_laneDepth s⟩, ⟨_, readReg_laneFaultIp s⟩, ⟨_, readReg_laneFaultWord s⟩]

/-! ### Reset -/

theorem resetWith_lane (p : Params) (l : Nat) : (State.resetWith p).lane l = Lane.inactive l := rfl

theorem resetWith_heapRead (p : Params) (h i : Nat) : (State.resetWith p).heapRead h i = none := by
  have hheap : (State.resetWith p).heap h = [] := by simp [State.heap, State.resetWith]
  rw [State.heapRead, hheap]
  rfl

/-- LANE_SEL names slot 0 after reset. -/
theorem resetWith_laneView {p : Params} (hl : 0 < p.maxLanes) (f : Lane → HostRead) :
    (State.resetWith p).laneView f = f (Lane.inactive 0) :=
  laneView_slot (s := State.resetWith p) f nofun hl

/-- Settles O38. -/
theorem resetLeaves : Obligations.ResetLeaves := by
  unfold Obligations.ResetLeaves
  intro p
  refine ⟨rfl, rfl, rfl, rfl, rfl, rfl, rfl, rfl, rfl, rfl, rfl, rfl, rfl, rfl, rfl, rfl, fun l => ?_, fun _ => rfl,
    resetWith_heapRead p, rfl⟩
  rw [resetWith_lane]
  exact ⟨rfl, rfl, rfl, rfl, rfl, rfl, rfl, rfl, rfl⟩

/-- Settles O42. -/
theorem registersReadTheirResetColumn : Obligations.RegistersReadTheirResetColumn := by
  unfold Obligations.RegistersReadTheirResetColumn
  intro p
  refine ⟨?_, rfl, rfl, rfl, rfl, rfl, rfl, rfl, fun h hh h16 => ?_, fun hl => ⟨?_, ?_⟩⟩
  · simp only [List.forall_mem_cons, List.not_mem_nil, false_implies, implies_true, and_true]
    exact ⟨rfl, rfl, rfl, rfl, rfl, rfl, rfl, rfl, rfl⟩
  · rw [readReg_heapCap _ h16 hh]
    simp [State.resetWith]
  · simp only [List.forall_mem_cons, List.not_mem_nil, false_implies, implies_true, and_true, readReg_laneStatus,
      readReg_laneIp, readReg_laneFp, readReg_laneDepth, readReg_laneFaultIp, readReg_laneFaultWord,
      resetWith_laneView hl]
    exact ⟨rfl, rfl, rfl, rfl, rfl, rfl⟩
  · rw [readReg_laneSp, resetWith_laneView hl]
    rfl

/-! ### Fields of STATUS and LANE_STATUS -/

/-- The field of `k` bits from bit `lo` up of a register put together as a number. -/
theorem extractLsb'_ofNat {n lo k m : Nat} (hn : n < 2 ^ 32) (h : n / 2 ^ lo % 2 ^ k = m) :
    (BitVec.ofNat 32 n).extractLsb' lo k = BitVec.ofNat k m := by
  apply BitVec.eq_of_toNat_eq
  rw [BitVec.extractLsb'_toNat, BitVec.toNat_ofNat, Nat.mod_eq_of_lt hn, Nat.shiftRight_eq_div_pow, h,
    BitVec.toNat_ofNat, ← h, Nat.mod_mod]

/-- The flag at bit `k` of a register put together as a number. -/
theorem getLsbD_ofNat_flag {n k : Nat} {b : Bool} (hk : k < 32) (h : n / 2 ^ k % 2 = if b then 1 else 0) :
    (BitVec.ofNat 32 n).getLsbD k = b := by
  rw [BitVec.getLsbD_ofNat, Nat.testBit_eq_decide_div_mod_eq, h]
  cases b <;> simp [hk]

theorem RunState.toNat_lt (r : RunState) : r.toNat < 4 := by cases r <;> decide
theorem LaunchErr.toNat_lt (e : LaunchErr) : e.toNat < 16 := by cases e <;> decide
theorem Status.toNat_lt (s : Status) : s.toNat < 4 := by cases s <;> decide
theorem FaultCode.toNat_lt (c : FaultCode) : c.toNat < 16 := by cases c <;> decide

/-- Settles O41: each field stands at its place in the sum that STATUS is. -/
theorem statusRegisterShowsItsFields : Obligations.StatusRegisterShowsItsFields := by
  unfold Obligations.StatusRegisterShowsItsFields
  intro s
  have hstate := s.runState.toNat_lt
  have herr := s.launchErr.toNat_lt
  have hfault : (if s.anyFault then 1 else 0) ≤ 1 := by split <;> omega
  have hdrop : (if s.writeDropped then 1 else 0) ≤ 1 := by split <;> omega
  refine ⟨s.statusWord, rfl, ?_, ?_, ?_, ?_, ?_⟩
  · rw [State.statusWord, extractLsb'_ofNat (m := s.runState.toNat) (by omega) (by omega)]
    cases s.runState <;> rfl
  · exact getLsbD_ofNat_flag (by decide) (by omega)
  · exact getLsbD_ofNat_flag (by decide) (by omega)
  · rw [State.statusWord, extractLsb'_ofNat (m := s.launchErr.toNat) (by omega) (by omega)]
    cases s.launchErr <;> rfl
  · exact extractLsb'_ofNat (m := 0) (by omega) (by omega)

theorem laneStatusWord_fields (L : Lane) :
    L.statusWord.extractLsb' 0 2 = BitVec.ofNat 2 L.status.toNat ∧ L.statusWord.extractLsb' 2 6 = 0 ∧
    L.statusWord.extractLsb' 8 4 = BitVec.ofNat 4 L.faultCode.toNat ∧ L.statusWord.extractLsb' 12 20 = 0 := by
  have hstatus := L.status.toNat_lt
  have hcode := L.faultCode.toNat_lt
  exact ⟨extractLsb'_ofNat (by omega) (by omega), extractLsb'_ofNat (m := 0) (by omega) (by omega),
    extractLsb'_ofNat (by omega) (by omega), extractLsb'_ofNat (m := 0) (by omega) (by omega)⟩

/-! ### The lane result registers -/

/-- Settles O44, by the cases of `laneView`. -/
theorem laneRegistersShowTheSlot : Obligations.LaneRegistersShowTheSlot := by
  unfold Obligations.LaneRegistersShowTheSlot
  refine ⟨fun s hr h16 hl => ?_, fun L => ?_, fun s hr h16 hl => ⟨fun off hoff => ?_, fun i hi => ?_⟩,
    fun s hr h16 => ⟨fun off hoff => ?_, fun i hi => ?_⟩⟩
  · have hview (f : Lane → HostRead) : s.laneView f = f (s.lane s.laneSel.toNat) := laneView_slot f hr hl
    simp only [readReg_laneStatus, readReg_laneIp, readReg_laneSp, readReg_laneFp, readReg_laneDepth,
      readReg_laneFaultIp, readReg_laneFaultWord, hview]
    refine ⟨trivial, trivial, rfl, trivial, trivial, trivial, trivial, fun i hi => ?_⟩
    rw [readReg_laneStack s h16 hi, hview]
    rfl
  · obtain ⟨hstatus, hlow, hcode, hhigh⟩ := laneStatusWord_fields L
    refine ⟨hstatus.trans ?_, hlow, hcode.trans ?_, hhigh⟩
    · cases L.status <;> rfl
    · cases L.faultCode <;> rfl
  · obtain ⟨f, hf⟩ := readReg_laneOffset s hoff
    rw [hf, laneView_noSlot f hr hl]
  · rw [readReg_laneStack s h16 hi, laneView_noSlot _ hr hl]
  · obtain ⟨f, hf⟩ := readReg_laneOffset s hoff
    rw [hf, laneView_running f hr]
  · rw [readReg_laneStack s h16 hi, laneView_running _ hr]

/-! ### The configuration registers -/

theorem ctrlBits_getLsbD : ∀ b c : Bool, ∀ i < 32,
    (BitVec.ofNat 32 (2 * (if b then 1 else 0) + 4 * (if c then 1 else 0))).getLsbD i =
      (i == 1 && b || i == 2 && c) := by
  decide

/-- The bits of CTRL that read back: MODE and TRACE_EN (R39). -/
theorem and_six (v : Word) :
    v &&& 6 = BitVec.ofNat 32 (2 * (if v.getLsbD 1 then 1 else 0) + 4 * (if v.getLsbD 2 then 1 else 0)) := by
  apply BitVec.eq_of_getLsbD_eq
  intro i hi
  have hsix : (6 : Word).getLsbD i = (i == 1 && true || i == 2 && true) := ctrlBits_getLsbD true true i hi
  rw [BitVec.getLsbD_and, hsix, ctrlBits_getLsbD _ _ i hi]
  by_cases h1 : i = 1
  · subst h1; simp
  · by_cases h2 : i = 2
    · subst h2; simp
    · rw [beq_false_of_ne h1, beq_false_of_ne h2]
      simp

/-- Settles O43. -/
theorem configRegistersReadBack : Obligations.ConfigRegistersReadBack := by
  unfold Obligations.ConfigRegistersReadBack
  refine ⟨fun s v hr => ⟨?_, fun h hh h16 hlen => ?_, ?_, fun hv => ?_⟩, writeReg_laneSel⟩
  · simp only [List.forall_mem_cons, List.not_mem_nil, false_implies, implies_true, and_true]
    refine ⟨?_, ?_, ?_, ?_, ?_⟩ <;> rw [writeReg_config v (by decide) rfl hr] <;> rfl
  · have hc := heapCapOffset_config hh
    rw [writeReg_config v (ne_laneSel_of_configOffset hc h16) hc hr, writeConfig_heapCap]
    refine (readReg_heapCap { s with heapCaps := s.heapCaps.set h v } h16 hh).trans ?_
    simp [List.getD_eq_getElem?_getD, hlen]
  · rw [writeReg_laneSel]
    exact if_neg hr
  · rw [writeReg_config v (by decide) rfl hr]
    have hctrl : s.writeConfig 0x000 v =
        { s with ctrlMode := if v.getLsbD 1 then .lane else .seq, ctrlTrace := v.getLsbD 2 } :=
      if_neg (by rw [hv]; decide)
    rw [hctrl, and_six]
    refine congrArg (fun m => HostRead.value (BitVec.ofNat 32 (2 * m + 4 * (if v.getLsbD 2 then 1 else 0)))) ?_
    cases v.getLsbD 1 <;> rfl

end Sys2Proof.Machine

namespace Sys2Proof.Machine

/-! ### Bus accesses, an equation per case (10_state.md R37, R50 to R53) -/

section Bus

variable {s : State} {addr off width : Nat} {data : List Byte} {w : Window}

theorem busWrite_ignored (hloc : locate s.cfg addr = some (w, off)) (h : off % 4 ≠ 0 ∨ data.length ≠ 4) :
    s.busWrite addr data = s := by
  have hno : ¬ (off % 4 = 0 ∧ data.length = 4) := by omega
  simp only [State.busWrite, hloc, if_neg hno]

theorem busWrite_regs (hloc : locate s.cfg addr = some (.regs, off)) (hoff : off % 4 = 0) (hlen : data.length = 4) :
    s.busWrite addr data = s.writeReg off (wordOfBytes s.cfg.hostByteOrder data) := by
  simp only [State.busWrite, hloc, if_pos (And.intro hoff hlen)]

theorem busWrite_dropped (hloc : locate s.cfg addr = some (w, off)) (hw : w ≠ .regs) (hoff : off % 4 = 0)
    (hlen : data.length = 4) (hr : s.runState = .running) : s.busWrite addr data = { s with writeDropped := true } := by
  simp only [State.busWrite, hloc, if_pos (And.intro hoff hlen), if_pos hr]
  cases w with
  | regs => exact absurd rfl hw
  | program => rfl
  | heap h => rfl

theorem busWrite_program (hloc : locate s.cfg addr = some (.program, off)) (hoff : off % 4 = 0)
    (hlen : data.length = 4) (hr : s.runState ≠ .running) : s.busWrite addr data =
      { s with program := s.program.write (off / 4) (wordOfBytes s.cfg.hostByteOrder data) } := by
  simp only [State.busWrite, hloc, if_pos (And.intro hoff hlen), if_neg hr]

theorem busWrite_heap {h : Nat} (hloc : locate s.cfg addr = some (.heap h, off)) (hoff : off % 4 = 0)
    (hlen : data.length = 4) (hr : s.runState ≠ .running) : s.busWrite addr data =
      s.heapWrite h (off / 4) (wordOfBytes s.cfg.hostByteOrder data) := by
  simp only [State.busWrite, hloc, if_pos (And.intro hoff hlen), if_neg hr]

theorem busRead_ignored (hloc : locate s.cfg addr = some (w, off)) (h : off % 4 ≠ 0 ∨ width ≠ 4) :
    s.busRead addr width = { s with busData := List.replicate width 0 } := by
  have hno : ¬ (off % 4 = 0 ∧ width = 4) := by omega
  simp only [State.busRead, hloc, if_neg hno]

theorem busRead_aligned (hloc : locate s.cfg addr = some (w, off)) (hoff : off % 4 = 0) :
    s.busRead addr 4 = { (s.answer (s.readAt w off)).2 with
      busData := bytesOfWord s.cfg.hostByteOrder (s.answer (s.readAt w off)).1 } := by
  simp only [State.busRead, hloc, hoff, and_self, if_true]

/-- Where a value stands, the read puts its bytes on the bus and changes nothing else. -/
theorem busRead_value {v : Word} (hloc : locate s.cfg addr = some (w, off)) (hoff : off % 4 = 0)
    (hv : s.readAt w off = .value v) : s.busRead addr 4 = { s with busData := bytesOfWord s.cfg.hostByteOrder v } := by
  rw [busRead_aligned hloc hoff, hv]
  rfl

end Bus

/-- Settles O48. -/
theorem writesAreDroppedWhileRunning : Obligations.WritesAreDroppedWhileRunning := by
  unfold Obligations.WritesAreDroppedWhileRunning
  intro s v hr h16
  refine ⟨fun off hoff => ?_, fun h hh => ?_, writeReg_laneSel s v, fun addr off w data hloc hw hoff hlen => ?_⟩
  · simp only [List.mem_cons, List.not_mem_nil, or_false] at hoff
    exact writeReg_dropped v (by omega) (configOffset_iff.2 (by omega)) hr
  · have hc := heapCapOffset_config hh
    exact writeReg_dropped v (ne_laneSel_of_configOffset hc h16) hc hr
  · exact busWrite_dropped hloc hw hoff hlen hr

/-- Settles O45. -/
theorem reservedAccessesDoNothing : Obligations.ReservedAccessesDoNothing := by
  unfold Obligations.ReservedAccessesDoNothing
  refine ⟨fun s addr off width data hloc => ⟨busWrite_ignored hloc, busRead_ignored hloc⟩,
    fun s off v h16 hoff hres => ⟨?_, writeReg_ignored v (by omega) (by omega) (by omega)⟩,
    fun s v h16 => ⟨fun off hoff => ?_, fun i hi => writeReg_ignored v (by omega) (by omega) (by omega)⟩⟩
  · rw [readReg_bank s (by omega) (by omega), if_neg (by omega), if_neg (by omega)]
  · simp only [List.mem_cons, List.not_mem_nil, or_false] at hoff
    exact writeReg_ignored v (by omega) (by omega) (by omega)

/-! ### HEAP_CMD -/

/-- What the heaps read once one of them is replaced. -/
theorem heapRead_setHeap {s : State} {a : Nat} (ha : a < s.heaps.length) (m : Memory) (h i : Nat) :
    State.heapRead { s with heaps := s.heaps.set a m } h i = if h = a then m.read i else s.heapRead h i := by
  by_cases hh : h = a
  · subst hh
    simp [State.heapRead, State.heap, List.getD_eq_getElem?_getD, ha]
  · simp [State.heapRead, State.heap, List.getD_eq_getElem?_getD, List.getElem?_set_ne (Ne.symm hh), hh]

/-- HEAP_CMD with OP 1 or 2 and a SEL that names a heap fills that heap (R47). -/
theorem heapCmd_fill {s : State} {v : Word} {sel op : Nat} (hsel : (v.extractLsb' 0 4).toNat = sel)
    (hop : (v.extractLsb' 4 2).toNat = op) (hlt : sel < s.cfg.numHeaps) (h12 : op = 1 ∨ op = 2) :
    s.heapCmd v = { s with
      heaps := s.heaps.set sel ((s.heap sel).fill (min (s.heapCaps.getD sel 0).toNat s.cfg.maxHeapWords)
        fun i => if op = 1 then 0 else BitVec.ofNat 32 i) } := by
  unfold State.heapCmd
  rw [hsel, hop]
  dsimp only
  rw [if_pos hlt]
  rcases h12 with rfl | rfl <;> rfl

theorem heapCmd_ignored {s : State} {v : Word} {sel op : Nat} (hsel : (v.extractLsb' 0 4).toNat = sel)
    (hop : (v.extractLsb' 4 2).toNat = op) (h : ¬ (sel < s.cfg.numHeaps ∧ (op = 1 ∨ op = 2))) : s.heapCmd v = s := by
  unfold State.heapCmd
  rw [hsel, hop]
  dsimp only
  split
  · rw [if_neg (by omega), if_neg (by omega)]
  · rfl

/-- HEAP_CMD changes no field but the heaps. -/
theorem heapCmd_frame (s : State) (v : Word) : { s.heapCmd v with heaps := s.heaps } = s := by
  unfold State.heapCmd
  dsimp only
  split
  · split
    · rfl
    · split <;> rfl
  · rfl

/-- Settles O47. -/
theorem heapCommandFills : Obligations.HeapCommandFills := by
  unfold Obligations.HeapCommandFills
  intro s v hr hlen
  have hcmd : s.writeReg 0x01C v = s.heapCmd v := writeReg_config v (by decide) rfl hr
  dsimp only
  rw [hcmd]
  refine ⟨heapCmd_frame s v, fun hsel hop h i => ?_, heapCmd_ignored rfl rfl⟩
  rw [heapCmd_fill rfl rfl hsel hop, heapRead_setHeap (hlen ▸ hsel), Memory.read_fill]
  by_cases hh : h = (v.extractLsb' 0 4).toNat
  · subst hh
    simp only [true_and, lt_min_iff, if_true]
    rfl
  · simp only [hh, false_and, if_false]

/-! ### Bytes of a word (20_memory.md R70) -/

theorem bytesOfWord_little (v : Word) {i : Nat} (hi : i < 4) :
    (bytesOfWord .little v)[i]? = some (v.extractLsb' (8 * i) 8) := by
  interval_cases i <;> rfl

theorem bytesOfWord_big (v : Word) {i : Nat} (hi : i < 4) :
    (bytesOfWord .big v)[i]? = some (v.extractLsb' (8 * (3 - i)) 8) := by
  interval_cases i <;> rfl

/-- Four bytes that stand in the order of `bytesOfWord` are those of the word. -/
theorem eq_bytesOfWord {o : ByteOrder} {v : Word} {data : List Byte} (hlen : data.length = 4)
    (h : ∀ i, i < 4 → data[i]? = (bytesOfWord o v)[i]?) : data = bytesOfWord o v := by
  apply List.ext_getElem?
  intro i
  by_cases hi : i < 4
  · exact h i hi
  · rw [List.getElem?_eq_none (by omega), List.getElem?_eq_none (by rw [length_bytesOfWord]; omega)]

/-! ### Events of the host -/

/-- Unless completion is due, the event at the head of the agenda is taken (log 8). -/
theorem step_of_agenda {s : State} {e : Event} {rest : List Event} (hdue : s.completionDue = false)
    (ha : s.agenda = e :: rest) : step s = handle e { s with agenda := rest } := by
  simp only [step, blockStep, hdue, ha, Bool.false_eq_true, if_false]

/-- CYCLES stands still outside a launch (10_state.md R49). -/
theorem lookAtCycles_of_not_running {s : State} (hr : s.runState ≠ .running) : s.lookAtCycles = s := if_neg hr

/-- Settles O40. -/
theorem hostEventsTakeEffect : Obligations.HostEventsTakeEffect := by
  unfold Obligations.HostEventsTakeEffect
  refine ⟨fun s rest hdue => ⟨fun addr data ha => step_of_agenda hdue ha, fun addr width ha => step_of_agenda hdue ha,
      fun ha => ⟨fun hout => ?_, fun r tail hout => ?_⟩⟩,
    fun s addr off hloc hoff => ⟨fun v => ?_, fun w hw => busRead_value hloc hoff hw, fun hu => ?_, fun hr h0 => ?_,
      fun hr h4 => ?_⟩,
    fun v i hi => ⟨bytesOfWord_little v hi, bytesOfWord_big v hi⟩⟩
  · rw [step_of_agenda hdue ha]
    simp only [handle, State.acceptRecord, hout]
  · rw [step_of_agenda hdue ha]
    simp only [handle, State.acceptRecord, hout]
  · rw [busWrite_regs hloc hoff (length_bytesOfWord _ v), wordOfBytes_bytesOfWord]
  · have hread : s.readAt .regs off = .unspecified := hu
    rw [busRead_aligned hloc hoff, hread]
    exact ⟨_, rfl⟩
  · subst h0
    have hread : s.readAt .regs 0x0A0 = .cyclesLo := rfl
    rw [busRead_aligned hloc hoff, hread, State.answer, lookAtCycles_of_not_running hr]
  · subst h4
    have hread : s.readAt .regs 0x0A4 = .cyclesHi := rfl
    rw [busRead_aligned hloc hoff, hread, State.answer, lookAtCycles_of_not_running hr]

/-! ### The windows (R37, R51) -/

theorem offsetIn?_inside {base size addr : Nat} (h : base ≤ addr ∧ addr < base + size) :
    offsetIn? base size addr = some (addr - base) := if_pos h

theorem offsetIn?_outside {base size addr : Nat} (h : ¬ (base ≤ addr ∧ addr < base + size)) :
    offsetIn? base size addr = none := if_neg h

/-- The first index below `n` at which `f` finds something. -/
theorem findSome?_range_first {α : Type} {f : Nat → Option α} {n h : Nat} {a : α} (hh : h < n)
    (hbefore : ∀ k, k < h → f k = none) (hf : f h = some a) : (List.range n).findSome? f = some a := by
  obtain ⟨m, rfl⟩ : ∃ m, n = h + (m + 1) := ⟨n - h - 1, by omega⟩
  have hnone : (List.range h).findSome? f = none :=
    List.findSome?_eq_none_iff.2 fun k hk => hbefore k (List.mem_range.1 hk)
  simp [List.range_add, List.range_succ_eq_map, List.findSome?_append, hnone, hf]

theorem locate_of_regs {p : Params} {addr : Nat}
    (hin : p.blockBase ≤ addr ∧ addr < p.blockBase + (0x1000 + 4 * p.maxStackCap)) :
    locate p addr = some (.regs, addr - p.blockBase) := by
  rw [locate, offsetIn?_inside hin]

theorem locate_of_program {p : Params} {addr i : Nat}
    (hregs : ¬ (p.blockBase ≤ addr ∧ addr < p.blockBase + (0x1000 + 4 * p.maxStackCap)))
    (haddr : addr = p.progWindowBase + 4 * i) (hi : i < p.progCap) : locate p addr = some (.program, 4 * i) := by
  rw [locate, offsetIn?_outside hregs, offsetIn?_inside (by omega), haddr, Nat.add_sub_cancel_left]

/-- The first heap window that has the address has it. -/
theorem locate_of_heap {p : Params} {addr i h : Nat}
    (hregs : ¬ (p.blockBase ≤ addr ∧ addr < p.blockBase + (0x1000 + 4 * p.maxStackCap)))
    (hprog : ¬ (p.progWindowBase ≤ addr ∧ addr < p.progWindowBase + 4 * p.progCap)) (hh : h < p.numHeaps)
    (hfirst : ∀ k, k < h → ¬ (p.heapWindowBase.getD k 0 ≤ addr ∧
      addr < p.heapWindowBase.getD k 0 + 4 * p.maxHeapWords))
    (haddr : addr = p.heapWindowBase.getD h 0 + 4 * i) (hi : i < p.maxHeapWords) :
    locate p addr = some (.heap h, 4 * i) := by
  rw [locate, offsetIn?_outside hregs, offsetIn?_outside hprog]
  refine findSome?_range_first hh (fun k hk => ?_) ?_
  · rw [offsetIn?_outside (hfirst k hk)]
    rfl
  · rw [offsetIn?_inside (by omega), haddr, Nat.add_sub_cancel_left]
    rfl

/-- Four bytes read where a program word was just written are that word's. -/
theorem busRead_program_written {s : State} {addr off : Nat} (v : Word)
    (hloc : locate s.cfg addr = some (.program, off)) (hoff : off % 4 = 0) :
    (State.busRead { s with program := s.program.write (off / 4) v } addr 4).busData =
      bytesOfWord s.cfg.hostByteOrder v := by
  have hread : State.readAt { s with program := s.program.write (off / 4) v } .program off = .value v := by
    simp only [State.readAt, Memory.read_write_self]
  rw [busRead_value (s := { s with program := s.program.write (off / 4) v }) hloc hoff hread]

/-- Four bytes read where a heap word was just written are that word's. -/
theorem busRead_heap_written {s : State} {addr off h : Nat} (v : Word) (hr : s.runState ≠ .running)
    (hh : h < s.heaps.length) (hloc : locate s.cfg addr = some (.heap h, off)) (hoff : off % 4 = 0) :
    ((s.heapWrite h (off / 4) v).busRead addr 4).busData = bytesOfWord s.cfg.hostByteOrder v := by
  have hread : (s.heapWrite h (off / 4) v).readAt (.heap h) off = .value v := by
    simp only [State.readAt, State.heapWrite_runState, if_neg hr, s.heapRead_heapWrite_self h (off / 4) v hh]
  rw [busRead_value (s := s.heapWrite h (off / 4) v) hloc hoff hread]
  rfl

theorem heapRead_heapWrite {s : State} {a k : Nat} {v : Word} (ha : a < s.heaps.length) (h i : Nat) :
    (s.heapWrite a k v).heapRead h i = if h = a ∧ i = k then some v else s.heapRead h i := by
  split
  · obtain ⟨rfl, rfl⟩ := ‹h = a ∧ i = k›
    exact s.heapRead_heapWrite_self h i v ha
  · exact s.heapRead_heapWrite_ne a k h i v (by simpa using ‹¬ (h = a ∧ i = k)›)

/-- Settles O46: the window gives the space, and the space reads what was written. -/
theorem windowsReadBack : Obligations.WindowsReadBack := by
  unfold Obligations.WindowsReadBack
  refine ⟨fun p addr i => ⟨locate_of_regs, locate_of_program, fun hregs hprog h => locate_of_heap hregs hprog⟩, ?_⟩
  intro s addr off w v data hr hheaps hloc hw hoff hlen hdata
  have hbytes : data = bytesOfWord s.cfg.hostByteOrder v := by
    refine eq_bytesOfWord hlen fun i hi => (hdata i hi).trans ?_
    cases s.cfg.hostByteOrder with
    | little => exact (bytesOfWord_little v hi).symm
    | big => exact (bytesOfWord_big v hi).symm
  have hword : wordOfBytes s.cfg.hostByteOrder data = v := by rw [hbytes, wordOfBytes_bytesOfWord]
  dsimp only
  cases w with
  | regs => exact absurd rfl hw
  | program =>
    rw [busWrite_program hloc hoff hlen hr, hword]
    refine ⟨(busRead_program_written v hloc hoff).trans hbytes.symm, rfl, fun i => ?_, fun h i => ?_⟩
    · rw [Memory.read_write]
      simp only [true_and]
    · simp only [reduceCtorEq, false_and, if_false]
      rfl
  | heap a =>
    have ha : a < s.heaps.length := hheaps ▸ (locate_heap hloc).1
    rw [busWrite_heap hloc hoff hlen hr, hword]
    refine ⟨(busRead_heap_written v hr ha hloc hoff).trans hbytes.symm, rfl, fun i => ?_, fun h i => ?_⟩
    · simp only [reduceCtorEq, false_and, if_false]
      rfl
    · rw [heapRead_heapWrite ha]
      simp only [Window.heap.injEq, eq_comm (a := a)]

end Sys2Proof.Machine

/-! PROOFS of the family 20_memory.md: the inputs of a launch, the words that hold a value, the heap and its races. -/

namespace Sys2Proof.Machine

/-! ### What a step of a launch leaves (20_memory.md R61, R83) -/

/-- What the host gives a launch before it starts, the heaps apart: the program, the latched configuration, the
parameters and the configuration registers. -/
def State.inputs (s : State) :
    Memory × Launch × Params × Word × Word × Word × Word × Word × List Word × Mode × Bool :=
  (s.program, s.launch, s.cfg, s.entry, s.progLen, s.stackCap, s.laneCount, s.groupSize, s.heapCaps, s.ctrlMode,
    s.ctrlTrace)

theorem inputs_stepLane {l : Nat} {s t : State} (h : stepLane l s = .next t) : t.inputs = s.inputs :=
  (congrArg State.inputs (stepLane_frame h).2 :)

theorem busWrite_inputs_heaps {s : State} (hr : s.runState = .running) (addr : Nat) (data : List Byte) :
    (s.busWrite addr data).inputs = s.inputs ∧ (s.busWrite addr data).heaps = s.heaps := by
  rcases busWrite_running hr addr data with ⟨v, hw⟩ | hw | hw <;> rw [hw] <;> exact ⟨rfl, rfl⟩

theorem busRead_inputs_heaps (s : State) (addr width : Nat) :
    (s.busRead addr width).inputs = s.inputs ∧ (s.busRead addr width).heaps = s.heaps :=
  ⟨(congrArg State.inputs (busRead_frame s addr width) :), (congrArg State.heaps (busRead_frame s addr width) :)⟩

theorem acceptRecord_inputs_heaps (s : State) :
    s.acceptRecord.inputs = s.inputs ∧ s.acceptRecord.heaps = s.heaps := by
  unfold State.acceptRecord
  split <;> exact ⟨rfl, rfl⟩

/-- During a launch a step but a reset is a lane's step, or leaves the inputs and the heaps alone. -/
theorem step_of_launch {s t : State} (hr : s.runState = .running) (hnr : s.agenda.head? ≠ some .reset)
    (h : step s = .next t) :
    (∃ l rest, stepLane l { s with agenda := rest } = .next t) ∨ t.inputs = s.inputs ∧ t.heaps = s.heaps := by
  rcases step_next h with ⟨-, rfl⟩ | ⟨-, e, rest, ha, hh⟩ | ⟨-, -, ⟨-, rfl⟩ | ⟨l, -, hl⟩⟩
  · exact .inr ⟨rfl, rfl⟩
  · cases e with
    | lane l => exact .inl ⟨l, rest, hh⟩
    | issue g ip => cases hh; exact .inr ⟨rfl, rfl⟩
    | busWrite addr data => cases hh; exact .inr (busWrite_inputs_heaps (s := { s with agenda := rest }) hr addr data)
    | busRead addr width => cases hh; exact .inr (busRead_inputs_heaps { s with agenda := rest } addr width)
    | accept => cases hh; exact .inr (acceptRecord_inputs_heaps { s with agenda := rest })
    | reset => exact absurd (by rw [ha]; rfl) hnr
  · exact .inr ⟨rfl, rfl⟩
  · exact .inl ⟨l, s.agenda, hl⟩

theorem inputs_step {s t : State} (hr : s.runState = .running) (hnr : s.agenda.head? ≠ some .reset)
    (h : step s = .next t) : t.inputs = s.inputs := by
  rcases step_of_launch hr hnr h with ⟨l, rest, hl⟩ | ⟨hi, -⟩
  · exact inputs_stepLane (s := { s with agenda := rest }) hl
  · exact hi

/-- Settles O53: a lane's step writes no input (`stepLane_frame`), and the host's writes are dropped. -/
theorem launchInputsAreFixed : Obligations.LaunchInputsAreFixed := by
  unfold Obligations.LaunchInputsAreFixed
  intro s t hr hnr hstep
  simpa only [State.inputs, Prod.mk.injEq] using inputs_step hr hnr hstep

end Sys2Proof.Machine

namespace Sys2Proof.Machine

/-! ### Where a step stops (20_memory.md R68, 70_reset_and_hazards.md R180) -/

theorem fetchWord_noValue {s : State} {i : Int} (h : fetchWord s i = .noValue) :
    ∃ k, k < s.launch.progLen.toNat ∧ s.program.read k = none := by
  unfold fetchWord at h
  split at h
  · rename_i k hk
    split at h
    · cases h
    · exact ⟨k, (indexBelow?_eq_some.1 hk).2, ‹_›⟩
  · cases h

theorem fetchWords_noValue {s : State} {n : Nat} : ∀ {i : Int}, fetchWords s i n = .noValue →
    ∃ k, k < s.launch.progLen.toNat ∧ s.program.read k = none := by
  induction n with
  | zero => intro i h; cases h
  | succ n ih =>
    intro i h
    unfold fetchWords at h
    split at h
    · split at h
      · cases h
      · cases h
      · exact ih ‹_›
    · cases h
    · exact fetchWord_noValue ‹_›

/-- Fetch and decode find no value only at a program word below PROG_LEN that holds none. -/
theorem decodeAt_noValue {s : State} {a : Int} (h : decodeAt s a = .noValue) :
    ∃ k, k < s.launch.progLen.toNat ∧ s.program.read k = none := by
  unfold decodeAt at h
  split at h
  · cases h
  · exact fetchWord_noValue ‹_›
  · split at h
    · cases h
    · split at h
      · split at h
        · cases h
        · exact fetchWords_noValue ‹_›
        · split at h <;> cases h
      · cases h

/-- A legal instruction stops only at a word, of a heap the mode uses, that holds no value. -/
theorem exec_fault_heapsUsed {i : Instr} {s : State} {r : Fault} (hl : i.legalIn s.launch.mode = true)
    (h : exec i s = .fault r) :
    ∃ a ∈ heapsUsed s.launch.mode s.cfg, ∃ k, k < s.heapCap a ∧ s.heapRead a k = none := by
  obtain ⟨-, ⟨hseq, k, hk, hv⟩ | ⟨hlane, a, k, ha, hk, hv⟩⟩ := exec_fault h
  · cases hm : s.launch.mode with
    | seq => exact ⟨0, List.mem_singleton_self 0, k, hk, hv⟩
    | lane => rw [hm, hseq] at hl; cases hl
  · cases hm : s.launch.mode with
    | seq => rw [hm, hlane] at hl; cases hl
    | lane => exact ⟨a, List.mem_range.2 ha, k, hk, hv⟩

@[simp] theorem State.traced_launch (s : State) (i : Instr) : (s.traced i).launch = s.launch := by
  unfold State.traced; split <;> rfl

@[simp] theorem State.traced_cfg (s : State) (i : Instr) : (s.traced i).cfg = s.cfg := by
  unfold State.traced; split <;> rfl

@[simp] theorem State.traced_heapRead (s : State) (i : Instr) (a k : Nat) :
    (s.traced i).heapRead a k = s.heapRead a k := by
  unfold State.traced; split <;> rfl

@[simp] theorem State.traced_heapCap (s : State) (i : Instr) (a : Nat) : (s.traced i).heapCap a = s.heapCap a := by
  simp only [State.heapCap, State.traced_launch]

/-- A lane's step stops only where some word of the launch holds no value. -/
theorem stepInstance_not_fault {s : State} {r : Fault} (hi : s.initialised) : stepInstance s ≠ .fault r := by
  intro h
  obtain ⟨hprog, hheap⟩ := hi
  unfold stepInstance at h
  split at h
  · obtain ⟨k, hk, hv⟩ := decodeAt_noValue ‹_›
    simpa [hv] using hprog k hk
  · cases h
  · rename_i i hd
    split at h
    · cases h
    · obtain ⟨a, ha, k, hk, hv⟩ := exec_fault_heapsUsed (by simpa using decodeAt_legal hd) h
      simp only [State.traced_launch, State.traced_cfg, State.traced_heapCap, State.traced_heapRead] at ha hk hv
      simpa [hv] using hheap a ha k hk

/-- Settles O58: only a lane's step can stop (`step_fault`), and where every word of the launch holds a value it does
not. -/
theorem initialisedStepAnswersNext : Obligations.InitialisedStepAnswersNext := by
  unfold Obligations.InitialisedStepAnswersNext
  intro s hi
  cases h : step s with
  | next t => exact ⟨t, rfl⟩
  | fault r =>
    obtain ⟨l, rest, hr, -, hf⟩ := step_fault h
    exact absurd hf (stepInstance_not_fault (s := { s with agenda := rest, cur := l }) (hi hr))
  | refused r => exact absurd h step_not_refused

/-! ### Words that hold a value go on holding one (20_memory.md R66, R68) -/

/-- Every heap word that holds a value in `s` holds one in `t`. -/
def KeepsValues (s t : State) : Prop := ∀ a i, (s.heapRead a i).isSome = true → (t.heapRead a i).isSome = true

theorem keepsValues_of_heaps {s t : State} (h : t.heaps = s.heaps) : KeepsValues s t := fun a i hv => by
  rwa [State.heapRead_congr h]

theorem KeepsValues.trans {s t u : State} (hst : KeepsValues s t) (htu : KeepsValues t u) : KeepsValues s u :=
  fun a i hv => htu a i (hst a i hv)

theorem keepsValues_heapWrite (s : State) (a k : Nat) (v : Word) : KeepsValues s (s.heapWrite a k v) := by
  intro b i hv
  by_cases hbi : (b, i) = (a, k)
  · obtain ⟨rfl, rfl⟩ := Prod.mk.inj hbi
    have hb : b < s.heaps.length := by
      by_contra hge
      rw [State.heapRead, State.heap, List.getD_eq_default _ _ (Nat.le_of_not_lt hge)] at hv
      cases hv
    rw [s.heapRead_heapWrite_self b i v hb]
    rfl
  · rwa [s.heapRead_heapWrite_ne a k b i v hbi]

/-- A lane's write puts at the word its own value or one that was put there before (20_memory.md R73). -/
theorem laneWrite_heaps (s : State) (a k : Nat) (v : Word) :
    ∃ w ∈ v :: ((s.heapRead a k).toList ++ s.putWords a k),
      (s.laneWrite a k v).heaps = (s.heapWrite a k w).heaps := by
  unfold State.laneWrite
  split
  · exact ⟨_, racedWord_mem _ _ _, rfl⟩
  · exact ⟨v, List.mem_cons_self, rfl⟩

theorem keepsValues_stepBase {i : Instr} {s u : State} (h : StepBase s i u) : KeepsValues s u := by
  cases h with
  | same i => exact keepsValues_of_heaps rfl
  | gstore address k v hk => exact keepsValues_heapWrite s 0 k v
  | gstoreIndexed base k v hk => exact keepsValues_heapWrite s 0 k v
  | print v hs => exact keepsValues_of_heaps rfl
  | laneRead selector a k v ha hk hv => exact keepsValues_of_heaps (by simp)
  | laneWrite selector a k v ha hk =>
    obtain ⟨w, -, hw⟩ := laneWrite_heaps s a k v
    exact (keepsValues_heapWrite s a k w).trans (keepsValues_of_heaps hw)

theorem keepsValues_exec {i : Instr} {s t : State} (h : exec i s = .next t) : KeepsValues s t := by
  rcases exec_next h with ⟨c, -, rfl⟩ | ⟨u, L, hb, -, rfl⟩
  · exact keepsValues_of_heaps rfl
  · exact (keepsValues_stepBase hb).trans (keepsValues_of_heaps rfl)

theorem keepsValues_stepLane {l : Nat} {s t : State} (h : stepLane l s = .next t) : KeepsValues s t := by
  rcases stepLane_next h with rfl | ⟨-, -, hi⟩
  · exact keepsValues_of_heaps rfl
  · rcases stepInstance_next hi with ⟨c, w, -, -, rfl⟩ | ⟨i, -, ⟨-, rfl⟩ | ⟨-, he⟩⟩
    · exact keepsValues_of_heaps rfl
    · exact keepsValues_of_heaps rfl
    · intro a k hv
      exact keepsValues_exec he a k (by rwa [State.traced_heapRead])

theorem keepsValues_step {s t : State} (hr : s.runState = .running) (hnr : s.agenda.head? ≠ some .reset)
    (h : step s = .next t) : KeepsValues s t := by
  rcases step_of_launch hr hnr h with ⟨l, rest, hl⟩ | ⟨-, hh⟩
  · exact keepsValues_stepLane (s := { s with agenda := rest }) hl
  · exact keepsValues_of_heaps hh

/-- Settles O59: the bounds of the host's duty are inputs of the launch, and no heap word loses its value. -/
theorem initialisedIsKept : Obligations.InitialisedIsKept := by
  unfold Obligations.InitialisedIsKept
  intro s t hr ⟨hprog, hheap⟩ hnr hstep
  obtain ⟨hp, hl, hc, -⟩ := launchInputsAreFixed s t hr hnr hstep
  refine ⟨fun i hi => ?_, fun a ha i hi => keepsValues_step hr hnr hstep a i (hheap a ?_ i ?_)⟩
  · rw [hp]
    exact hprog i (hl ▸ hi)
  · rwa [hl, hc] at ha
  · rwa [State.heapCap, hl] at hi

end Sys2Proof.Machine

namespace Sys2Proof.Machine

/-! ### Heap access in mode SEQ, an equation per case (43_frame_heap.md R125 to R128) -/

section Seq

variable {s t : State} {rest : List Word} {address base offset v : Word} {k : Nat}

theorem exec_gload (hk : indexBelow? address.toInt (s.heapCap 0) = some k)
    (hroom : s.me.stack.length < s.launch.stackCap.toNat) (hv : s.heapRead 0 k = some v) :
    exec (.gload address) s = retire (.gload address) { s.me with stack := s.me.stack ++ [v] } s := by
  simp only [exec, execGload, hk, roomFor_one hroom, hv, if_true, pushWord_room hroom]

theorem exec_gloadIndexed (hst : s.me.stack = rest ++ [offset])
    (hk : indexBelow? (base.toInt + offset.toInt) (s.heapCap 0) = some k) (hv : s.heapRead 0 k = some v) :
    exec (.gloadIndexed base) s = retire (.gloadIndexed base) { s.me with stack := rest ++ [v] } s := by
  simp only [exec, execGloadIndexed, hst, top1?_concat, hk, hv]

theorem exec_gstore (hst : s.me.stack = rest ++ [v]) (hk : indexBelow? address.toInt (s.heapCap 0) = some k) :
    exec (.gstore address) s = retire (.gstore address) { s.me with stack := rest } (s.heapWrite 0 k v) := by
  simp only [exec, execGstore, hst, top1?_concat, hk]

theorem exec_gstore_outside (hst : s.me.stack = rest ++ [v])
    (hk : indexBelow? address.toInt (s.heapCap 0) = none) :
    exec (.gstore address) s = trap .heapIndexOutOfRange (.gstore address) s := by
  simp only [exec, execGstore, hst, top1?_concat, hk]

theorem exec_gstoreIndexed (hst : s.me.stack = rest ++ [offset, v])
    (hk : indexBelow? (base.toInt + offset.toInt) (s.heapCap 0) = some k) :
    exec (.gstoreIndexed base) s = retire (.gstoreIndexed base) { s.me with stack := rest } (s.heapWrite 0 k v) := by
  simp only [exec, execGstoreIndexed, hst, top2?_concat, hk]

theorem exec_gstoreIndexed_outside (hst : s.me.stack = rest ++ [offset, v])
    (hk : indexBelow? (base.toInt + offset.toInt) (s.heapCap 0) = none) :
    exec (.gstoreIndexed base) s = trap .heapIndexOutOfRange (.gstoreIndexed base) s := by
  simp only [exec, execGstoreIndexed, hst, top2?_concat, hk]

end Seq

/-! ### What was stored is loaded (20_memory.md R77) -/

/-- A lane that runs on after an instruction took no fault (60_exceptions.md R142). -/
theorem trap_not_running {c : FaultCode} {i : Instr} {s t : State} (hme : s.me.status = .running)
    (h : trap c i s = .next t) : t.me.status ≠ .running := by
  cases h
  rw [raise, State.me_setMe _ _ (s.cur_lt hme)]
  exact Status.noConfusion

/-- The lane runs on after a store to index `i` of heap 0 only when `i` is inside the heap, and then the word there
is the one stored. -/
theorem stored_of_running {s t : State} {j : Instr} {i : Int} {v : Word} {L : Lane} {c : FaultCode} {r : Result}
    (hme : s.me.status = .running) (hh : 0 < s.heaps.length)
    (hin : ∀ k, indexBelow? i (s.heapCap 0) = some k → r = retire j L (s.heapWrite 0 k v))
    (hout : indexBelow? i (s.heapCap 0) = none → r = trap c j s) (h : r = .next t) (ht : t.me.status = .running) :
    t.launch = s.launch ∧ t.me = { L with ip := nextIp j s } ∧
      ∃ k, indexBelow? i (t.heapCap 0) = some k ∧ t.heapRead 0 k = some v := by
  cases hk : indexBelow? i (s.heapCap 0) with
  | none => exact absurd ht (trap_not_running hme ((hout hk).symm.trans h))
  | some k =>
    cases (hin k hk).symm.trans h
    exact ⟨rfl, State.me_setMe _ _ (s.cur_lt hme), k, hk, s.heapRead_heapWrite_self 0 k v hh⟩

/-- Settles O11: the store left its word in the heap (`stored_of_running`), and the load finds it there. -/
theorem heapLoadAfterStore : Obligations.HeapLoadAfterStore := by
  unfold Obligations.HeapLoadAfterStore
  refine ⟨fun s t rest base offset v hme hh hst hexec ht u base2 offset2 rest2 hu hheaps hlaunch hst2 hsum => ?_,
    fun s t rest address v hme hh hst hcap hexec ht => ?_⟩
  · obtain ⟨-, -, k, hk, hv⟩ := stored_of_running hme hh (fun k => exec_gstoreIndexed hst)
      (exec_gstoreIndexed_outside hst) hexec ht
    have hk2 : indexBelow? (base2.toInt + offset2.toInt) (u.heapCap 0) = some k := by
      rwa [hsum, State.heapCap, hlaunch]
    have hv2 : u.heapRead 0 k = some v := (State.heapRead_congr hheaps 0 k).trans hv
    rw [exec_gloadIndexed hst2 hk2 hv2]
    exact writesLane_retire hu
  · obtain ⟨hlaunch, hL, k, hk, hv⟩ := stored_of_running hme hh (fun k => exec_gstore hst)
      (exec_gstore_outside hst) hexec ht
    have hroom : t.me.stack.length < t.launch.stackCap.toNat := by
      rw [hst, List.length_append, List.length_singleton] at hcap
      rw [hL, hlaunch]
      exact hcap
    have hlane : { t.me with stack := t.me.stack ++ [v], ip := t.me.ip + 2 } = { s.me with ip := s.me.ip + 2 + 2 } := by
      rw [hL, ← hst]
      rfl
    rw [exec_gload hk hroom hv, ← hlane]
    exact writesLane_retire ht

end Sys2Proof.Machine

namespace Sys2Proof.Machine

/-! ### A lane's access that makes a race (20_memory.md R73, R79, R80; log 9) -/

section Race

variable {s : State} {rest : List Word} {selector index v : Word} {h k : Nat}

theorem laneRead_mem (s : State) (h k : Nat) (v : Word) : (s.laneRead h k v).1 ∈ v :: s.putWords h k := by
  unfold State.laneRead
  split
  · exact racedWord_mem _ _ _
  · exact List.mem_cons_self

theorem laneRead_race (hc : s.conflicts s.cur h k false = true) : (s.laneRead h k v).2.race = true := by
  rw [State.laneRead, if_pos hc]

theorem laneWrite_race (hc : s.conflicts s.cur h k true = true) : (s.laneWrite h k v).race = true := by
  rw [State.laneWrite, if_pos hc]

theorem exec_parallelGloadIndexed (hst : s.me.stack = rest ++ [index])
    (hh : indexBelow? selector.toInt s.cfg.numHeaps = some h) (hk : indexBelow? index.toInt (s.heapCap h) = some k)
    (hv : s.heapRead h k = some v) :
    exec (.parallelGloadIndexed selector) s = retire (.parallelGloadIndexed selector)
      { s.me with stack := rest ++ [(s.laneRead h k v).1] } (s.laneRead h k v).2 := by
  simp only [exec, execParallelGloadIndexed, hst, top1?_concat, hh, hk, hv]

theorem exec_parallelGstoreIndexed (hst : s.me.stack = rest ++ [index, v])
    (hh : indexBelow? selector.toInt s.cfg.numHeaps = some h) (hk : indexBelow? index.toInt (s.heapCap h) = some k) :
    exec (.parallelGstoreIndexed selector) s =
      retire (.parallelGstoreIndexed selector) { s.me with stack := rest } (s.laneWrite h k v) := by
  simp only [exec, execParallelGstoreIndexed, hst, top2?_concat, hh, hk]

/-- The lane after an instruction whose effects outside it leave the lanes as they are. -/
theorem me_setMe_nextIp {u : State} {i : Instr} {L : Lane} (hme : s.me.status = .running) (hl : u.lanes = s.lanes)
    (hc : u.cur = s.cur) :
    (u.setMe { L with ip := nextIp i u }).me = { L with ip := s.me.ip + BitVec.ofNat 32 i.length } := by
  rw [State.me_setMe _ _ (by rw [hl, hc]; exact s.cur_lt hme), nextIp, State.me_congr hl hc]

end Race

/-- Settles O19: the other lane's access is a conflict, and the word is one of those put there (`laneRead_mem`,
`laneWrite_heaps`). -/
theorem conflictingAccessIsARace : Obligations.ConflictingAccessIsARace := by
  unfold Obligations.ConflictingAccessIsARace
  refine ⟨fun s rest selector index v h k other hme hst hsel hh hidx hk hv hmem hlane hheap hindex hwrite => ?_,
    fun s rest selector index v h k other hme hst hsel hh hlen hidx hk hmem hlane hheap hindex => ?_⟩
  · have hc : s.conflicts s.cur h k false = true :=
      conflicts_eq_true.2 ⟨other, hmem, hlane, hheap, hindex, .inr hwrite⟩
    refine ⟨_, _,
      exec_parallelGloadIndexed hst (indexBelow?_eq_some.2 ⟨hsel, hh⟩) (indexBelow?_eq_some.2 ⟨hidx, hk⟩) hv,
      laneRead_race hc, laneRead_mem s h k v, me_setMe_nextIp hme (by simp) (by simp), fun a i => ?_⟩
    rw [State.setMe_heapRead, State.laneRead_heapRead]
  · have hc : s.conflicts s.cur h k true = true :=
      conflicts_eq_true.2 ⟨other, hmem, hlane, hheap, hindex, .inl rfl⟩
    obtain ⟨w, hw, hheaps⟩ := laneWrite_heaps s h k v
    refine ⟨_, w,
      exec_parallelGstoreIndexed hst (indexBelow?_eq_some.2 ⟨hsel, hh⟩) (indexBelow?_eq_some.2 ⟨hidx, hk⟩),
      laneWrite_race hc, hw, me_setMe_nextIp hme (by simp) (by simp), ?_, fun a i hne => ?_⟩
    · rw [State.setMe_heapRead, State.heapRead_congr hheaps, s.heapRead_heapWrite_self h k w (hlen ▸ hh)]
    · rw [State.setMe_heapRead, State.heapRead_congr hheaps, s.heapRead_heapWrite_ne h k a i w hne]

end Sys2Proof.Machine

/-! PROOFS of the family 30_encoding.md: the decoder and the listing, the opcodes of each mode, fetch and decode in a
step. -/

namespace Sys2Proof

/-! ### Decode and encode (30_encoding.md R98, R101) -/

/-- Decoding the encoding of an instruction gives it back, with the words after it. -/
@[simp] theorem decode_encode_append (i : Instr) (rest : List Word) : decode (encode i ++ rest) = .ok (i, rest) := by
  obtain ⟨sh, hshape, hcount, hbuild, -⟩ := shapeOf_opcode i
  simp only [encode, List.cons_append, decode, hshape, hbuild, hcount, List.drop_left]

/-- No other words decode to an instruction: the opcode map has one way to make it (`build_eq_some`). -/
theorem eq_encode_append_of_decode {ws rest : List Word} {i : Instr} (h : decode ws = .ok (i, rest)) :
    ws = encode i ++ rest := by
  cases ws with
  | nil => cases h
  | cons op ws =>
    simp only [decode] at h
    split at h
    · cases h
    · rename_i sh hshape
      split at h
      · rename_i j hbuild
        cases h
        obtain ⟨hop, hws, -, -⟩ := build_eq_some hshape hbuild
        rw [encode, List.cons_append, ← hop, ← hws]
      · cases h

/-- Settles O20. -/
theorem decodeInvertsEncode : Obligations.DecodeInvertsEncode := by
  unfold Obligations.DecodeInvertsEncode
  intro ws rest i
  constructor
  · exact eq_encode_append_of_decode
  · rintro rfl
    exact decode_encode_append i rest

/-! ### The listing (30_encoding.md R102, R103) -/

/-- With no words left the listing ends, whatever its fuel. -/
@[simp] theorem disassemble_nil (fuel start : Nat) : disassemble fuel start [] = [] := by
  cases fuel <;> rfl

/-- The listing of assembled instructions and more words is those instructions at their places, and then the listing of
the rest. -/
theorem disassemble_assemble_append (p : List Instr) (fuel start : Nat) (rest : List Word) :
    disassemble (p.length + fuel) start (assemble p ++ rest) =
      placed start p ++ disassemble fuel (start + (assemble p).length) rest := by
  induction p generalizing start with
  | nil => simp [assemble, placed]
  | cons i p ih =>
    have hwords : assemble (i :: p) ++ rest = encode i ++ (assemble p ++ rest) := by simp [assemble]
    have hend : start + (assemble (i :: p)).length = start + i.length + (assemble p).length := by
      simp only [assemble, List.flatMap_cons, List.length_append, encode, List.length_cons, Instr.length]
      omega
    rw [hwords, hend, List.length_cons, Nat.succ_add, disassemble, decode_encode_append]
    simp only [ih, placed, List.cons_append]

/-- Settles O21: nothing follows the program in a listing of its length, nor where no words follow it. -/
theorem listingOfAssembledProgram : Obligations.ListingOfAssembledProgram := by
  unfold Obligations.ListingOfAssembledProgram
  intro p start fuel rest hfuel
  constructor
  · simpa [disassemble] using disassemble_assemble_append p 0 start rest
  · obtain ⟨more, rfl⟩ := Nat.exists_eq_add_of_le hfuel
    simpa using disassemble_assemble_append p more start []

/-- Settles O22: the words are encodings (`decode_encode_append`), and those of R103 a program's (O21). -/
theorem specWordsDecode : Obligations.SpecWordsDecode := by
  unfold Obligations.SpecWordsDecode
  refine ⟨decode_encode_append (.load (-3)) [], decode_encode_append (.call 6 2) [],
    decode_encode_append (.parallelGstoreIndexed 2) [0x00000010], ?_⟩
  exact (listingOfAssembledProgram [.load (-3), .iconst 2, .imul, .ret, .iconst 128, .call 0 1, .print, .halt] 0 8 []
    (Nat.le_refl 8)).2

/-! ### The opcodes of each mode (30_encoding.md R94, R95) -/

/-- The opcode map ends at 28. -/
theorem shapeOf_eq_none {op : Word} (h : 28 < op.toNat) : shapeOf op = none := by
  unfold shapeOf
  split
  case h_29 => rfl
  all_goals omega

/-- The opcode map up to its end, by evaluation. -/
theorem opcodeLegal_table : ∀ n < 29,
    (opcodeLegal .seq (BitVec.ofNat 32 n) = true ↔ 1 ≤ n ∧ n ≤ 25) ∧
    (opcodeLegal .lane (BitVec.ofNat 32 n) = true ↔
      1 ≤ n ∧ n ≤ 10 ∨ n = 12 ∨ 14 ≤ n ∧ n ≤ 23 ∨ 26 ≤ n ∧ n ≤ 28) := by decide

/-- Settles O23: within the opcode map by its table, past it no word is legal. -/
theorem opcodesLegalByMode : Obligations.OpcodesLegalByMode := by
  unfold Obligations.OpcodesLegalByMode
  intro op
  rcases Nat.lt_or_ge 28 op.toNat with hpast | hin
  · have hillegal (m : Mode) : ¬ opcodeLegal m op = true := by simp [opcodeLegal, shapeOf_eq_none hpast]
    exact ⟨iff_of_false (hillegal .seq) (by omega), iff_of_false (hillegal .lane) (by omega)⟩
  · have htable := opcodeLegal_table op.toNat (Nat.lt_succ_of_le hin)
    rwa [← eq_of_toNat_eq rfl] at htable

end Sys2Proof

namespace Sys2Proof.Machine

/-! ### Fetch and decode of a step, an equation per case (30_encoding.md R88, R91, R145) -/

section Fetch

variable {s : State} {a : Int} {op : Word} {k : Nat}

theorem fetchWord_outOfRange (h : ¬ (0 ≤ a ∧ a < s.launch.progLen.toNat)) : fetchWord s a = .outOfRange := by
  rw [fetchWord, indexBelow?_eq_none.2 h]

/-- Operand fetch that runs past PROG_LEN is out of range when every word before the end holds a value. -/
theorem fetchWords_outOfRange {n i : Nat} (hi : i ≤ s.launch.progLen.toNat) (hend : s.launch.progLen.toNat < i + n)
    (hv : ∀ j, i ≤ j → j < s.launch.progLen.toNat → (s.program.read j).isSome = true) :
    fetchWords s i n = .outOfRange := by
  induction n generalizing i with
  | zero => omega
  | succ n ih =>
    by_cases hlt : i < s.launch.progLen.toNat
    · obtain ⟨w, hw⟩ := Option.isSome_iff_exists.1 (hv i le_rfl hlt)
      have hfirst : fetchWord s i = .got w := fetchWord_got.2 ⟨i, rfl, hlt, hw⟩
      have hmore : fetchWords s ((i + 1 : Nat) : Int) n = .outOfRange :=
        ih hlt (by omega) fun j hj => hv j (by omega)
      rw [Nat.cast_add_one] at hmore
      simp only [fetchWords, hfirst, hmore]
    · simp only [fetchWords, fetchWord_outOfRange (s := s) (a := i) (by omega)]

theorem decodeAt_outOfRange (h : fetchWord s a = .outOfRange) : decodeAt s a = .fault .ipOutOfRange 0 := by
  rw [decodeAt, h]

/-- An opcode word that the mode does not allow is refused before any operand is fetched. -/
theorem decodeAt_illegal (h : fetchWord s a = .got op) (hl : opcodeLegal s.launch.mode op = false) :
    decodeAt s a = .fault .unknownOpcode op := by
  simp only [decodeAt, h]
  cases hshape : shapeOf op with
  | none => rfl
  | some sh =>
    simp only [opcodeLegal, hshape] at hl
    simp only [hl, Bool.false_eq_true, if_false]

theorem decodeAt_operands_outOfRange (h : fetchWord s a = .got op) (hl : opcodeLegal s.launch.mode op = true)
    (hk : operandCount op = some k) (hops : fetchWords s (a + 1) k = .outOfRange) :
    decodeAt s a = .fault .ipOutOfRange op := by
  obtain ⟨sh, hshape, rfl⟩ := Option.map_eq_some_iff.1 hk
  simp only [opcodeLegal, hshape] at hl
  simp only [decodeAt, h, hshape, hl, if_true, hops]

end Fetch

/-- The state after the trace stage is the state with the TRACE record in the port, when the lane traces. -/
theorem State.traced_eq (s : State) (i : Instr) :
    s.traced i = { s with out := s.out ++ if s.me.trace then [traceRecord i s.me] else [] } := by
  unfold State.traced
  split
  · rfl
  · rw [List.append_nil]

/-- Choosing the slot that steps changes nothing that fetch and decode read. -/
theorem decodeAt_choose (s : State) (l : Nat) (a : Int) : decodeAt (s.choose l) a = decodeAt s a :=
  decodeAt_congr (s := s) (t := s.choose l) rfl rfl rfl a

/-- A decoded instruction whose records the port has room for runs after its TRACE record. -/
theorem step_of_decodeAt {s : State} {l : Nat} {i : Instr} (hn : NextLane s l)
    (hd : decodeAt s (s.lane l).ip.toInt = .instr i) (hroom : s.noRoom i (s.lane l) = false) :
    step s = exec i ((s.choose l).traced i) := by
  have hd' : decodeAt (s.choose l) (s.choose l).me.ip.toInt = .instr i := (decodeAt_choose ..).trans hd
  have hroom' : (s.choose l).noRoom i (s.choose l).me = false := hroom
  rw [step_of_nextLane hn]
  simp only [stepInstance, hd', hroom', Bool.false_eq_true, if_false]

/-- A decode-stage fault is the whole of its lane's step. -/
theorem faultsWith_step_of_decodeAt {s : State} {l : Nat} {c : FaultCode} {word : Word} (hn : NextLane s l)
    (hd : decodeAt s (s.lane l).ip.toInt = .fault c word) : FaultsWith (step s) (s.choose l) c word := by
  have hd' : decodeAt (s.choose l) (s.choose l).me.ip.toInt = .fault c word := (decodeAt_choose ..).trans hd
  have hstep : step s = .next (raise c word (s.choose l)) := by rw [step_of_nextLane hn, stepInstance, hd']
  obtain ⟨-, hrunning, -⟩ := hn
  rw [hstep]
  exact faultsWith_raise c word hrunning

/-- Settles O24: the lane decodes the instruction, finds room and runs it. -/
theorem stepRunsDecodedInstruction : Obligations.StepRunsDecodedInstruction := by
  unfold Obligations.StepRunsDecodedInstruction
  intro s l a i hn hip hw hl hroom
  have hdec : decodeAt s (s.lane l).ip.toInt = .instr i := hip ▸ decodeAt_of_holdsAt hw hl
  rw [step_of_decodeAt hn hdec (State.noRoom_eq_false.2 hroom), State.traced_eq]
  rfl

/-- Settles O26: each of the three failures of fetch and decode, in their order. -/
theorem decodeStageFaults : Obligations.DecodeStageFaults := by
  unfold Obligations.DecodeStageFaults
  refine ⟨fun s l hn hip => ?_, fun s l a op hn hip ha hop hl => ?_, fun s l a k op hn hip ha hop hl hk hend hv => ?_⟩
  · exact faultsWith_step_of_decodeAt hn (decodeAt_outOfRange (fetchWord_outOfRange hip))
  · have hfetch : fetchWord s (s.lane l).ip.toInt = .got op := fetchWord_got.2 ⟨a, hip, ha, hop⟩
    exact faultsWith_step_of_decodeAt hn (decodeAt_illegal hfetch hl)
  · have hfetch : fetchWord s (s.lane l).ip.toInt = .got op := fetchWord_got.2 ⟨a, hip, ha, hop⟩
    have hops : fetchWords s ((s.lane l).ip.toInt + 1) k = .outOfRange := by
      rw [hip]
      exact fetchWords_outOfRange (i := a + 1) ha (by omega) hv
    exact faultsWith_step_of_decodeAt hn (decodeAt_operands_outOfRange hfetch hl hk hops)

end Sys2Proof.Machine

/-! PROOFS of the family 40_const_arith.md: constants, the operators on the top cells, the shifts. -/

namespace Sys2Proof.Machine

/-! ### The shared operations (40_const_arith.md R105, R107) -/

section Operators

variable {s : State} {i : Instr} {rest : List Word} {a b v : Word}

theorem writesLane_binary (f : Word → Word → Word) (hme : s.me.status = .running)
    (hst : s.me.stack = rest ++ [b, a]) :
    WritesLane (binary i f s) s
      { s.me with stack := rest ++ [f a b], ip := s.me.ip + BitVec.ofNat 32 i.length } := by
  simp only [binary, hst, top2?_concat]
  exact writesLane_retire hme

theorem faultsWith_binary (f : Word → Word → Word) (hme : s.me.status = .running) (hst : s.me.stack.length < 2) :
    FaultsWith (binary i f s) s .stackUnderflow i.opcode := by
  simp only [binary, top2?_eq_none.2 hst]
  exact faultsWith_trap hme

theorem writesLane_unary (f : Word → Word) (hme : s.me.status = .running) (hst : s.me.stack = rest ++ [a]) :
    WritesLane (unary i f s) s { s.me with stack := rest ++ [f a], ip := s.me.ip + BitVec.ofNat 32 i.length } := by
  simp only [unary, hst, top1?_concat]
  exact writesLane_retire hme

theorem faultsWith_unary (f : Word → Word) (hme : s.me.status = .running) (hst : s.me.stack = []) :
    FaultsWith (unary i f s) s .stackUnderflow i.opcode := by
  simp only [unary, hst, top1?_nil]
  exact faultsWith_trap hme

theorem writesLane_pushWord (hme : s.me.status = .running)
    (hroom : s.me.stack.length < s.launch.stackCap.toNat) :
    WritesLane (pushWord i v s) s
      { s.me with stack := s.me.stack ++ [v], ip := s.me.ip + BitVec.ofNat 32 i.length } := by
  rw [pushWord_room hroom]
  exact writesLane_retire hme

theorem faultsWith_pushWord (hme : s.me.status = .running)
    (hfull : s.launch.stackCap.toNat ≤ s.me.stack.length) :
    FaultsWith (pushWord i v s) s .stackOverflow i.opcode := by
  rw [pushWord_full hfull]
  exact faultsWith_trap hme

end Operators

/-! ### Binary operators (R109 to R111, R113, R114) -/

theorem ltResult_eq (a b : Word) : ltResult a b = if a.toInt < b.toInt then 1 else 0 := by
  simp only [ltResult, boolWord, decide_eq_true_eq]

theorem eqResult_eq (a b : Word) : eqResult a b = if a = b then 1 else 0 := by
  simp only [eqResult, boolWord, beq_iff_eq]

theorem exec_eq_binary {i : Instr} (hi : i ∈ [Instr.iadd, .isub, .imul, .ilt, .ieq]) :
    ∃ f, ∀ s, exec i s = binary i f s := by
  simp only [List.mem_cons, List.not_mem_nil, or_false] at hi
  rcases hi with rfl | rfl | rfl | rfl | rfl
  exacts [⟨addResult, fun _ => rfl⟩, ⟨subResult, fun _ => rfl⟩, ⟨mulResult, fun _ => rfl⟩,
    ⟨ltResult, fun _ => rfl⟩, ⟨eqResult, fun _ => rfl⟩]

/-- Settles O1: each of the five is `binary` at its own result (`writesLane_binary`, `faultsWith_binary`). -/
theorem binaryOperatorsReplaceTopTwo : Obligations.BinaryOperatorsReplaceTopTwo := by
  unfold Obligations.BinaryOperatorsReplaceTopTwo
  refine ⟨fun s rest b a hme hst => ?_, fun s i hme hlen hi => ?_, rfl, rfl, rfl, rfl, rfl⟩
  · rw [← ltResult_eq, ← eqResult_eq]
    exact ⟨writesLane_binary addResult hme hst, writesLane_binary subResult hme hst,
      writesLane_binary mulResult hme hst, writesLane_binary ltResult hme hst, writesLane_binary eqResult hme hst⟩
  · obtain ⟨f, hf⟩ := exec_eq_binary hi
    rw [hf]
    exact faultsWith_binary f hme hlen

/-! ### Division, an equation per case (R112) -/

section Division

variable {s : State} {rest : List Word} {a b : Word}

theorem exec_idiv (hst : s.me.stack = rest ++ [b, a]) (hb : b ≠ 0) :
    exec .idiv s = retire .idiv { s.me with stack := rest ++ [divResult a b] } s := by
  simp only [exec, execIdiv, hst, top2?_concat, if_neg hb]

theorem exec_idiv_zero (hst : s.me.stack = rest ++ [0, a]) : exec .idiv s = trap .divisionByZero .idiv s := by
  simp only [exec, execIdiv, hst, top2?_concat, if_true]

theorem exec_idiv_underflow (hst : s.me.stack.length < 2) : exec .idiv s = trap .stackUnderflow .idiv s := by
  simp only [exec, execIdiv, top2?_eq_none.2 hst]

end Division

/-- Settles O2: one equation of `exec .idiv` per clause; INT_MIN ÷ -1 is evaluated. -/
theorem divisionTruncatesOrFaults : Obligations.DivisionTruncatesOrFaults := by
  unfold Obligations.DivisionTruncatesOrFaults
  refine ⟨fun s rest b a hme hst hb => ?_, fun s rest a hme hst => ?_, fun s hme hlen => ?_, by decide, rfl⟩
  · rw [exec_idiv hst hb]
    exact writesLane_retire hme
  · rw [exec_idiv_zero hst]
    exact faultsWith_trap hme
  · rw [exec_idiv_underflow hlen]
    exact faultsWith_trap hme

/-! ### Shifts (R115, R116) -/

theorem lshiftResult_eq_wrap32 (a : Word) : lshiftResult a = wrap32 (2 * a.toInt) := by
  have hdouble : a <<< 1 = 2#32 * a := by rw [BitVec.shiftLeft_eq_mul_twoPow, BitVec.mul_comm]; rfl
  rw [lshiftResult_eq, hdouble, wrap32, BitVec.ofInt_mul, BitVec.ofInt_toInt]
  rfl

theorem toInt_rshiftResult (a : Word) : (rshiftResult a).toInt = a.toInt / 2 := by
  rw [rshiftResult_eq, BitVec.toInt_sshiftRight, Int.shiftRight_eq_div_pow]
  rfl

theorem getLsbD_lshiftResult_zero (a : Word) : (lshiftResult a).getLsbD 0 = false := by
  simp [lshiftResult_eq]

theorem getLsbD_lshiftResult_succ (a : Word) {j : Nat} (hj : j < 31) :
    (lshiftResult a).getLsbD (j + 1) = a.getLsbD j := by
  have hin : j + 1 < 32 := by omega
  rw [lshiftResult_eq, BitVec.getLsbD_shiftLeft]
  simp [hin]

theorem getLsbD_rshiftResult_sign (a : Word) : (rshiftResult a).getLsbD 31 = a.getLsbD 31 := by
  rw [rshiftResult_eq, BitVec.getLsbD_sshiftRight]
  exact BitVec.msb_eq_getLsbD_last a

theorem getLsbD_rshiftResult (a : Word) {j : Nat} (hj : j < 31) :
    (rshiftResult a).getLsbD j = a.getLsbD (j + 1) := by
  have hin : ¬ 32 ≤ j := by omega
  have hnext : 1 + j < 32 := by omega
  rw [rshiftResult_eq, BitVec.getLsbD_sshiftRight, if_pos hnext, Nat.add_comm]
  simp [hin]

/-- Settles O3: both shifts are `unary`, and the words they leave are `lshiftResult a` and `rshiftResult a`, whose
values and bits the lemmas above give. -/
theorem shiftsMoveByOneBit : Obligations.ShiftsMoveByOneBit := by
  unfold Obligations.ShiftsMoveByOneBit
  refine ⟨fun s rest a hme hst => ⟨lshiftResult a, rshiftResult a, ?_⟩, fun s hme hst => ?_, rfl, rfl⟩
  · exact ⟨writesLane_unary lshiftResult hme hst, writesLane_unary rshiftResult hme hst, lshiftResult_eq_wrap32 a,
      toInt_rshiftResult a, getLsbD_lshiftResult_zero a, fun _ => getLsbD_lshiftResult_succ a,
      getLsbD_rshiftResult_sign a, fun _ => getLsbD_rshiftResult a⟩
  · exact ⟨faultsWith_unary lshiftResult hme hst, faultsWith_unary rshiftResult hme hst⟩

/-! ### Constants (R107, R108) -/

/-- Settles O4: both are `pushWord`, with room (`writesLane_pushWord`) and without (`faultsWith_pushWord`). -/
theorem constantsArePushed : Obligations.ConstantsArePushed := by
  unfold Obligations.ConstantsArePushed
  refine ⟨fun s value hme hroom => ?_, fun s value hme hfull => ?_, fun _ => rfl, rfl⟩
  · exact ⟨writesLane_pushWord hme hroom, writesLane_pushWord hme hroom⟩
  · exact ⟨faultsWith_pushWord hme hfull, faultsWith_pushWord hme hfull⟩

end Sys2Proof.Machine

/-! PROOFS of the family 41_stack.md: DUP and POP. -/

namespace Sys2Proof.Machine

/-! ### Stack manipulation, an equation per case (R117, R118) -/

section Stack

variable {s : State} {rest : List Word} {a : Word}

theorem exec_dup (hst : s.me.stack = rest ++ [a]) : exec .dup s = pushWord .dup a s := by
  simp only [exec, execDup, hst, top1?_concat]

theorem exec_dup_underflow (hst : s.me.stack = []) : exec .dup s = trap .stackUnderflow .dup s := by
  simp only [exec, execDup, hst, top1?_nil]

theorem exec_pop (hst : s.me.stack = rest ++ [a]) : exec .pop s = retire .pop { s.me with stack := rest } s := by
  simp only [exec, execPop, hst, top1?_concat]

theorem exec_pop_underflow (hst : s.me.stack = []) : exec .pop s = trap .stackUnderflow .pop s := by
  simp only [exec, execPop, hst, top1?_nil]

theorem writesLane_dup (hme : s.me.status = .running) (hst : s.me.stack = rest ++ [a])
    (hroom : s.me.stack.length < s.launch.stackCap.toNat) :
    WritesLane (exec .dup s) s { s.me with stack := rest ++ [a, a], ip := s.me.ip + 1 } := by
  have hcopy : rest ++ [a, a] = s.me.stack ++ [a] := by simp [hst]
  rw [exec_dup hst, hcopy]
  exact writesLane_pushWord hme hroom

end Stack

/-- Settles O5: with a top cell DUP is `pushWord` of it and POP retires without it; on an empty stack both trap before
any look at the capacity. -/
theorem dupCopiesAndPopRemoves : Obligations.DupCopiesAndPopRemoves := by
  unfold Obligations.DupCopiesAndPopRemoves
  refine ⟨fun s rest a hme hst => ⟨writesLane_dup hme hst, fun hfull => ?_, ?_⟩, fun s hme hst => ⟨?_, ?_⟩, rfl, rfl⟩
  · rw [exec_dup hst]
    exact faultsWith_pushWord hme hfull
  · rw [exec_pop hst]
    exact writesLane_retire hme
  · rw [exec_dup_underflow hst]
    exact faultsWith_trap hme
  · rw [exec_pop_underflow hst]
    exact faultsWith_trap hme

end Sys2Proof.Machine

/-! PROOFS of the family 42_branch.md: BR, BRT and BRF. -/

namespace Sys2Proof.Machine

/-! ### The conditional branch (R121, R122): pop, then jump or fall through -/

section Branches

variable {s : State} {i : Instr} {rest : List Word} {a target : Word} {taken : Word → Bool}

theorem branchIf_taken (hst : s.me.stack = rest ++ [a]) (htaken : taken a = true) :
    branchIf i taken target s = jump target { s.me with stack := rest } s := by
  simp only [branchIf, hst, top1?_concat, if_pos htaken]

theorem branchIf_not_taken (hst : s.me.stack = rest ++ [a]) (hfall : ¬ taken a = true) :
    branchIf i taken target s = retire i { s.me with stack := rest } s := by
  simp only [branchIf, hst, top1?_concat, if_neg hfall]

theorem branchIf_underflow (hst : s.me.stack = []) : branchIf i taken target s = trap .stackUnderflow i s := by
  simp only [branchIf, hst, top1?_nil]

theorem writesLane_branchIf (hme : s.me.status = .running) (hst : s.me.stack = rest ++ [a]) :
    WritesLane (branchIf i taken target s) s
      { s.me with
        stack := rest, ip := if taken a = true then target else s.me.ip + BitVec.ofNat 32 i.length } := by
  split
  next htaken =>
    rw [branchIf_taken hst htaken]
    exact writesLane_jump hme
  next hfall =>
    rw [branchIf_not_taken hst hfall]
    exact writesLane_retire hme

theorem faultsWith_branchIf (hme : s.me.status = .running) (hst : s.me.stack = []) :
    FaultsWith (branchIf i taken target s) s .stackUnderflow i.opcode := by
  rw [branchIf_underflow hst]
  exact faultsWith_trap hme

end Branches

/-! ### The two tests: one exact value each -/

theorem brtTaken_iff (a : Word) : brtTaken a = true ↔ a = 1 := by
  simp only [brtTaken, beq_iff_eq]

theorem brfTaken_iff (a : Word) : brfTaken a = true ↔ a = 0 := by
  simp only [brfTaken, beq_iff_eq]

/-- Settles O6: BR is a bare `jump`; BRT and BRF are `branchIf` at tests that hold of 1 alone and of 0 alone
(`brtTaken_iff`, `brfTaken_iff`). -/
theorem branchesTestExactly : Obligations.BranchesTestExactly := by
  unfold Obligations.BranchesTestExactly
  refine ⟨fun s target hme => writesLane_jump hme, fun s rest a target hme hst => ?_, fun s target hme hst => ?_,
    fun _ => ⟨rfl, rfl, rfl⟩⟩
  · simp only [← brtTaken_iff, ← brfTaken_iff]
    exact ⟨writesLane_branchIf hme hst, writesLane_branchIf hme hst⟩
  · exact ⟨faultsWith_branchIf hme hst, faultsWith_branchIf hme hst⟩

end Sys2Proof.Machine

/-! PROOFS of the family 43_frame_heap.md: LOAD and STORE, the heap loads and stores of mode SEQ. -/

namespace Sys2Proof.Machine

/-! ### From the equation of an instruction to what it does to the state -/

section Results

variable {s : State} {r : Result} {i : Instr} {L : Lane} {c : FaultCode} {a k : Nat} {v : Word}

theorem writesLane_of_retire (hme : s.me.status = .running) (hr : r = retire i L s) :
    WritesLane r s { L with ip := s.me.ip + BitVec.ofNat 32 i.length } :=
  hr ▸ writesLane_retire hme

theorem writesLaneAndHeap_of_retire (hme : s.me.status = .running) (ha : a < s.heaps.length)
    (hr : r = retire i L (s.heapWrite a k v)) :
    WritesLaneAndHeap r s { L with ip := s.me.ip + BitVec.ofNat 32 i.length } a k v :=
  hr ▸ writesLaneAndHeap_retire hme ha

theorem faultsWith_of_trap (hme : s.me.status = .running) (hr : r = trap c i s) : FaultsWith r s c i.opcode :=
  hr ▸ faultsWith_trap hme

end Results

/-! ### Frame access, an equation per case (R123, R124) -/

section Frame

variable {s : State} {rest : List Word} {offset v : Word} {k : Nat}

theorem exec_load (hk : indexBelow? (s.me.frameIndex offset) s.me.stack.length = some k)
    (hcell : s.me.stack[k]? = some v) : exec (.load offset) s = pushWord (.load offset) v s := by
  simp only [exec, execLoad, hk, List.getD_eq_getElem?_getD, hcell, Option.getD_some]

theorem exec_load_outside (hk : indexBelow? (s.me.frameIndex offset) s.me.stack.length = none) :
    exec (.load offset) s = trap .stackIndexOutOfRange (.load offset) s := by
  simp only [exec, execLoad, hk]

theorem exec_store (hst : s.me.stack = rest ++ [v])
    (hk : indexBelow? (s.me.frameIndex offset) rest.length = some k) :
    exec (.store offset) s = retire (.store offset) { s.me with stack := rest.set k v } s := by
  simp only [exec, execStore, hst, top1?_concat, hk]

theorem exec_store_outside (hst : s.me.stack = rest ++ [v])
    (hk : indexBelow? (s.me.frameIndex offset) rest.length = none) :
    exec (.store offset) s = trap .stackIndexOutOfRange (.store offset) s := by
  simp only [exec, execStore, hst, top1?_concat, hk]

theorem exec_store_underflow (hst : s.me.stack = []) :
    exec (.store offset) s = trap .stackUnderflow (.store offset) s := by
  simp only [exec, execStore, hst, top1?_nil]

end Frame

/-- Settles O7: at a live cell LOAD is `pushWord` of that cell; elsewhere it traps before any look at the capacity. -/
theorem loadCopiesFrameCell : Obligations.LoadCopiesFrameCell := by
  unfold Obligations.LoadCopiesFrameCell
  refine ⟨fun s offset v k hme hsum hcell => ?_, fun s offset hme hout => ?_, fun _ => rfl⟩
  · obtain ⟨hlive, -⟩ := List.getElem?_eq_some_iff.1 hcell
    rw [exec_load (indexBelow?_eq_some.2 ⟨hsum, hlive⟩) hcell]
    exact ⟨writesLane_pushWord hme, faultsWith_pushWord hme⟩
  · exact faultsWith_of_trap hme (exec_load_outside (indexBelow?_eq_none.2 hout))

/-- Settles O8: the index is compared with the stack below the popped cell. -/
theorem storeWritesFrameCell : Obligations.StoreWritesFrameCell := by
  unfold Obligations.StoreWritesFrameCell
  refine ⟨fun s rest offset v k hme hst hsum hk => ?_, fun s rest offset v hme hst hout => ?_,
    fun s offset hme hst => ?_, fun _ => rfl⟩
  · exact writesLane_of_retire hme (exec_store hst (indexBelow?_eq_some.2 ⟨hsum, hk⟩))
  · exact faultsWith_of_trap hme (exec_store_outside hst (indexBelow?_eq_none.2 hout))
  · exact faultsWith_of_trap hme (exec_store_underflow hst)

/-! ### Heap access in mode SEQ: the stops and the faults (R125 to R128)

The equations of the accesses that succeed stand with O11. -/

section SeqFaults

variable {s : State} {rest : List Word} {address base offset : Word} {k : Nat}

theorem exec_gload_noValue (hk : indexBelow? address.toInt (s.heapCap 0) = some k)
    (hroom : s.me.stack.length < s.launch.stackCap.toNat) (hv : s.heapRead 0 k = none) :
    exec (.gload address) s = .fault .heapWordNoValue := by
  simp only [exec, execGload, hk, roomFor_one hroom, hv, if_true]

theorem exec_gload_full (hk : indexBelow? address.toInt (s.heapCap 0) = some k)
    (hfull : s.launch.stackCap.toNat ≤ s.me.stack.length) :
    exec (.gload address) s = trap .stackOverflow (.gload address) s := by
  have hroom : s.roomFor 1 = false := roomFor_false (Nat.lt_succ_of_le hfull)
  simp only [exec, execGload, hk, hroom, Bool.false_eq_true, if_false]

theorem exec_gload_outside (hk : indexBelow? address.toInt (s.heapCap 0) = none) :
    exec (.gload address) s = trap .heapIndexOutOfRange (.gload address) s := by
  simp only [exec, execGload, hk]

theorem exec_gloadIndexed_noValue (hst : s.me.stack = rest ++ [offset])
    (hk : indexBelow? (base.toInt + offset.toInt) (s.heapCap 0) = some k) (hv : s.heapRead 0 k = none) :
    exec (.gloadIndexed base) s = .fault .heapWordNoValue := by
  simp only [exec, execGloadIndexed, hst, top1?_concat, hk, hv]

theorem exec_gloadIndexed_outside (hst : s.me.stack = rest ++ [offset])
    (hk : indexBelow? (base.toInt + offset.toInt) (s.heapCap 0) = none) :
    exec (.gloadIndexed base) s = trap .heapIndexOutOfRange (.gloadIndexed base) s := by
  simp only [exec, execGloadIndexed, hst, top1?_concat, hk]

theorem exec_gloadIndexed_underflow (hst : s.me.stack = []) :
    exec (.gloadIndexed base) s = trap .stackUnderflow (.gloadIndexed base) s := by
  simp only [exec, execGloadIndexed, hst, top1?_nil]

theorem exec_gstore_underflow (hst : s.me.stack = []) :
    exec (.gstore address) s = trap .stackUnderflow (.gstore address) s := by
  simp only [exec, execGstore, hst, top1?_nil]

theorem exec_gstoreIndexed_underflow (hlen : s.me.stack.length < 2) :
    exec (.gstoreIndexed base) s = trap .stackUnderflow (.gstoreIndexed base) s := by
  simp only [exec, execGstoreIndexed, top2?_eq_none.2 hlen]

end SeqFaults

/-- Settles O9: an index inside HEAP_CAP[0] leads to the push, the stop or the overflow, by the capacity and the word
that stands there; the other clauses are one trap each. -/
theorem heapLoadsReadHeapZero : Obligations.HeapLoadsReadHeapZero := by
  unfold Obligations.HeapLoadsReadHeapZero
  refine ⟨fun s address v k hme haddr hcap => ?_, fun s address hme hout => ?_,
    fun s rest base offset v k hme hst hsum hcap => ?_, fun s rest base offset hme hst hout => ?_,
    fun s base hme hst => ?_⟩
  · have hk : indexBelow? address.toInt (s.heapCap 0) = some k := indexBelow?_eq_some.2 ⟨haddr, hcap⟩
    exact ⟨fun hroom hv => writesLane_of_retire hme (exec_gload hk hroom hv), exec_gload_noValue hk,
      fun hfull => faultsWith_of_trap hme (exec_gload_full hk hfull)⟩
  · exact faultsWith_of_trap hme (exec_gload_outside (indexBelow?_eq_none.2 hout))
  · have hk : indexBelow? (base.toInt + offset.toInt) (s.heapCap 0) = some k := indexBelow?_eq_some.2 ⟨hsum, hcap⟩
    exact ⟨fun hv => writesLane_of_retire hme (exec_gloadIndexed hst hk hv), exec_gloadIndexed_noValue hst hk⟩
  · exact faultsWith_of_trap hme (exec_gloadIndexed_outside hst (indexBelow?_eq_none.2 hout))
  · exact faultsWith_of_trap hme (exec_gloadIndexed_underflow hst)

/-- Settles O10: inside HEAP_CAP[0] each store retires after one `heapWrite`, whose frame is that of
`writesLaneAndHeap_retire`; the other clauses are one trap each. -/
theorem heapStoresWriteHeapZero : Obligations.HeapStoresWriteHeapZero := by
  unfold Obligations.HeapStoresWriteHeapZero
  refine ⟨fun s rest address v k hme hst haddr hcap hheaps => ?_, fun s rest address v hme hst hout => ?_,
    fun s address hme hst => ?_, fun s rest base offset v k hme hst hsum hcap hheaps => ?_,
    fun s rest base offset v hme hst hout => ?_, fun s base hme hlen => ?_⟩
  · exact writesLaneAndHeap_of_retire hme hheaps (exec_gstore hst (indexBelow?_eq_some.2 ⟨haddr, hcap⟩))
  · exact faultsWith_of_trap hme (exec_gstore_outside hst (indexBelow?_eq_none.2 hout))
  · exact faultsWith_of_trap hme (exec_gstore_underflow hst)
  · exact writesLaneAndHeap_of_retire hme hheaps (exec_gstoreIndexed hst (indexBelow?_eq_some.2 ⟨hsum, hcap⟩))
  · exact faultsWith_of_trap hme (exec_gstoreIndexed_outside hst (indexBelow?_eq_none.2 hout))
  · exact faultsWith_of_trap hme (exec_gstoreIndexed_underflow hlen)

end Sys2Proof.Machine

/-! PROOFS of the family 44_call.md: CALL and RET, and the RET that undoes a CALL. -/

namespace Sys2Proof.Machine

/-! ### CALL, an equation per case (R130) -/

section Call

variable {s t : State} {target numArgs : Word} {n : Nat}

theorem exec_call (hn : indexBelow? numArgs.toInt (s.me.stack.length + 1) = some n)
    (hroom : s.me.stack.length + 3 ≤ s.launch.stackCap.toNat) :
    exec (.call target numArgs) s = jump target (calledLane s.me numArgs (s.me.ip + 3)) s := by
  simp only [exec, execCall, hn]
  exact if_pos (decide_eq_true hroom)

theorem exec_call_full (hn : indexBelow? numArgs.toInt (s.me.stack.length + 1) = some n)
    (hfull : s.launch.stackCap.toNat < s.me.stack.length + 3) :
    exec (.call target numArgs) s = trap .stackOverflow (.call target numArgs) s := by
  simp only [exec, execCall, hn, roomFor_false hfull, Bool.false_eq_true, if_false]

theorem exec_call_malformed (hn : indexBelow? numArgs.toInt (s.me.stack.length + 1) = none) :
    exec (.call target numArgs) s = trap .malformedCallFrame (.call target numArgs) s := by
  simp only [exec, execCall, hn]

/-- The lane runs on after CALL only when both checks passed, and then it stands in the frame it pushed. -/
theorem called_of_running (hme : s.me.status = .running) (h : exec (.call target numArgs) s = .next t)
    (ht : t.me.status = .running) :
    ∃ n : Nat, numArgs.toInt = n ∧ n ≤ s.me.stack.length ∧
      t.me = { calledLane s.me numArgs (s.me.ip + 3) with ip := target } := by
  cases hn : indexBelow? numArgs.toInt (s.me.stack.length + 1) with
  | none => exact absurd ht (trap_not_running hme ((exec_call_malformed hn).symm.trans h))
  | some n =>
    rcases Nat.lt_or_ge s.launch.stackCap.toNat (s.me.stack.length + 3) with hfull | hroom
    · exact absurd ht (trap_not_running hme ((exec_call_full hn hfull).symm.trans h))
    · obtain ⟨hargs, hle⟩ := indexBelow?_eq_some.1 hn
      cases (exec_call hn hroom).symm.trans h
      exact ⟨n, hargs, Nat.le_of_lt_succ hle, State.me_setMe _ _ (s.cur_lt hme)⟩

end Call

/-- Settles O12: the range check of numArgs is `indexBelow?` at sp + 2, and only behind it is the room looked at. -/
theorem callPushesFrameRecord : Obligations.CallPushesFrameRecord := by
  unfold Obligations.CallPushesFrameRecord
  refine ⟨fun s target numArgs hme hpos hle => ?_, fun s target numArgs hme hout => ?_, fun _ _ => rfl⟩
  · have hn : indexBelow? numArgs.toInt (s.me.stack.length + 1) = some numArgs.toInt.toNat :=
      indexBelow?_eq_some.2 (by omega)
    refine ⟨fun hroom => ?_, fun hfull => faultsWith_of_trap hme (exec_call_full hn hfull)⟩
    rw [exec_call hn hroom]
    exact writesLane_jump hme
  · exact faultsWith_of_trap hme (exec_call_malformed (indexBelow?_eq_none.2 (by omega)))

/-! ### RET, an equation per case (R131) -/

section Ret

variable {s : State} {rv : Word} {f n : Nat}

theorem top1?_of_getLast? {st : List Word} {a : Word} (h : st.getLast? = some a) :
    top1? st = some (a, st.dropLast) := by
  simp only [top1?, h]

theorem exec_ret (hst : s.me.stack.getLast? = some rv) (hr : returnRecord? s.me = some (f, n)) :
    exec .ret s = jump (s.me.stack.getD f 0) (returnedLane s.me f n rv) s := by
  simp only [exec, execRet, top1?_of_getLast? hst, hr]

theorem exec_ret_malformed (hst : s.me.stack ≠ []) (hr : returnRecord? s.me = none) :
    exec .ret s = trap .malformedCallFrame .ret s := by
  simp only [exec, execRet, top1?_of_getLast? (List.getLast?_eq_some_getLast hst), hr]

theorem exec_ret_underflow (hst : s.me.stack = []) : exec .ret s = trap .stackUnderflow .ret s := by
  simp only [exec, execRet, hst, top1?_nil]

/-- A record that fails one of R131's checks is none to return through. -/
theorem returnRecord?_eq_none {L : Lane}
    (h : L.depth = 0 ∨ L.fp.toInt < 2 ∨ (L.stack.length : Int) - 2 < L.fp.toInt ∨
      ∃ (f : Nat) (numArgs : Word), L.fp.toInt = f ∧ L.stack[f - 2]? = some numArgs ∧
        ¬ (0 ≤ numArgs.toInt ∧ numArgs.toInt ≤ (f : Int) - 2)) : returnRecord? L = none := by
  refine Option.eq_none_iff_forall_ne_some.2 fun (f, n) hr => ?_
  obtain ⟨hdepth, hf, h2, hlen, hn, hcell⟩ := returnRecord?_eq_some hr
  rcases h with hzero | hlow | hhigh | ⟨f', numArgs, hf', hargs, hbad⟩
  · exact hdepth hzero
  · omega
  · omega
  · obtain rfl : f' = f := by omega
    rw [List.getD_eq_getElem?_getD, hargs, Option.getD_some] at hcell
    omega

end Ret

/-- Settles O13: the checks that raise MalformedCallFrame are those of `returnRecord?`. -/
theorem retPopsFrameRecord : Obligations.RetPopsFrameRecord := by
  unfold Obligations.RetPopsFrameRecord
  refine ⟨fun s f n rv numArgs savedFp savedIp hme hdepth hf h2 hlen hrv hargs hfp hip hn hle => ?_,
    fun s hme hst hbad => ?_, fun s hme hst => ?_, rfl⟩
  · have hr : returnRecord? s.me = some (f, n) :=
      returnRecord?_intro hdepth hf h2 hlen hle (by rw [List.getD_eq_getElem?_getD, hargs]; exact hn)
    rw [exec_ret hrv hr]
    simp only [returnedLane, List.getD_eq_getElem?_getD, hfp, hip, Option.getD_some]
    exact writesLane_jump hme
  · exact faultsWith_of_trap hme (exec_ret_malformed hst (returnRecord?_eq_none hbad))
  · exact faultsWith_of_trap hme (exec_ret_underflow hst)

/-! ### A RET that undoes its CALL (R132) -/

/-- RET reads fp as a signed integer (R131): an index below 2^31 is read back unchanged. -/
theorem toInt_ofNat_of_lt {k : Nat} (hk : k < 2 ^ 31) : (BitVec.ofNat 32 k).toInt = k := by
  rw [BitVec.toInt_ofNat', Int.bmod_eq_of_le (by omega) (by omega)]

/-- Settles O14: CALL put fp at the saved ip (`called_of_running`), so the checks of RET find the record, and O13 says
what RET makes of it; of the cells under the record it keeps all but the top n. -/
theorem callThenRetRestoresCaller : Obligations.CallThenRetRestoresCaller := by
  unfold Obligations.CallThenRetRestoresCaller
  intro s t u target numArgs v below locals hme hsmall hdepth hcall ht hu hbelow hst hfp hd
  obtain ⟨n, hn, hle, hL⟩ := called_of_running hme hcall ht
  have hfpu : u.me.fp.toInt = (below.length + 2 : Nat) := by
    rw [hfp, hL, hbelow]
    exact toInt_ofNat_of_lt (by omega)
  have hdu : u.me.depth = s.me.depth + 1 := by rw [hd, hL]; rfl
  have hcount : u.me.depth ≠ 0 := by
    rw [hdu]
    bv_omega
  have hback : u.me.depth - 1 = s.me.depth := by
    rw [hdu]
    exact BitVec.add_sub_cancel _ _
  have hkept : u.me.stack.take (below.length + 2 - 2 - n) = below.take (s.me.stack.length - numArgs.toInt.toNat) := by
    rw [hst, List.append_assoc, List.append_assoc, Nat.add_sub_cancel, List.take_append_of_le_length (Nat.sub_le _ _),
      hbelow, hn, Int.toNat_natCast]
  have hlen : below.length + 2 + 2 ≤ u.me.stack.length := by
    simp only [hst, List.length_append, List.length_cons]
    omega
  obtain ⟨hret, -⟩ := retPopsFrameRecord
  have hwrites := hret u (below.length + 2) n v numArgs s.me.fp (s.me.ip + 3) hu hcount hfpu (Nat.le_add_left _ _) hlen
    (hst ▸ List.getLast?_concat) (by simp [hst]) (by simp [hst]) (by simp [hst]) hn (by omega)
  rwa [hkept, hback] at hwrites

end Sys2Proof.Machine

/-! PROOFS of the family 45_output_halt.md: PRINT and HALT. -/

namespace Sys2Proof.Machine

/-! ### PRINT and HALT, an equation per case (R133, R134) -/

section Output

variable {s : State} {r : Result} {record : Record} {L : Lane} {rest : List Word} {v : Word}

theorem exec_print (hst : s.me.stack = rest ++ [v]) :
    exec .print s = retire .print { s.me with stack := rest } (s.emit (.print s.me.laneId v)) := by
  simp only [exec, execPrint, hst, top1?_concat]

theorem exec_print_underflow (hst : s.me.stack = []) : exec .print s = trap .stackUnderflow .print s := by
  simp only [exec, execPrint, hst, top1?_nil]

theorem exec_halt : exec .halt s = retire .halt { s.me with status := .halted } s := rfl

/-- A step that writes the lane alone once `record` is emitted changes, of the state before the record, that lane and
the end of the port's buffer. -/
theorem writesLane_emit_frame (h : WritesLane r (s.emit record) L) :
    ∃ t, r = .next t ∧ t.me = L ∧ t.out = s.out ++ [record] ∧ (∀ l, l ≠ s.cur → t.lane l = s.lane l) ∧
      (∀ i, t.program.read i = s.program.read i) ∧ (∀ h i, t.heapRead h i = s.heapRead h i) ∧
      { t with lanes := s.lanes, out := s.out } = s := by
  obtain ⟨t, hr, hme, hlanes, hprogram, hheaps, hrest⟩ := h
  have hout : t.out = s.out ++ [record] := congrArg State.out hrest
  have hframe : { t with lanes := s.lanes, out := s.out } = s :=
    congrArg (fun u : State => { u with out := s.out }) hrest
  exact ⟨t, hr, hme, hout, hlanes, hprogram, hheaps, hframe⟩

end Output

/-- Settles O15: PRINT retires in the state with its record emitted, so what it changes is its lane and the end of the
buffer (`writesLane_emit_frame`); HALT retires a lane that it has made HALTED. -/
theorem printEmitsAndHaltStops : Obligations.PrintEmitsAndHaltStops := by
  unfold Obligations.PrintEmitsAndHaltStops
  refine ⟨fun s rest v hme hst => writesLane_emit_frame ?_, fun s hme hst => ?_, fun s hme => ?_, rfl, rfl⟩
  · exact writesLane_of_retire (s := s.emit (.print s.me.laneId v)) hme (exec_print hst)
  · exact faultsWith_of_trap hme (exec_print_underflow hst)
  · exact writesLane_of_retire hme exec_halt

end Sys2Proof.Machine

/-! PROOFS of the family 46_lane.md: the two modes side by side, the lane identity, the lanes' heap accesses. -/

namespace Sys2Proof.Machine

/-! ### The mode of a launch (46_lane.md R139) -/

@[simp] theorem onNext_eq_fault {f : State → State} {r : Result} {c : Fault} : onNext f r = .fault c ↔ r = .fault c := by
  cases r <;> simp [onNext]

/-- No meaning reads the mode: it decides only which opcodes decode (30_encoding.md R94). -/
theorem unseen_inMode (m : Mode) : Unseen (fun _ => True) id (fun s => s.inMode m) where
  stable _ _ _ := trivial
  me _ := rfl
  cur _ := rfl
  stackCap _ := rfl
  heapCaps _ := rfl
  numHeaps _ := rfl
  heaps _ := rfl
  accesses _ := rfl
  draws _ := rfl
  setMe _ _ := rfl
  shared _ _ _ _ _ := rfl
  race _ := rfl
  print _ _ _ := rfl

theorem State.traced_inMode (s : State) (m : Mode) (i : Instr) : (s.inMode m).traced i = (s.traced i).inMode m := by
  rw [State.traced_eq, State.traced_eq]
  rfl

theorem fetchWords_inMode (s : State) (m : Mode) (a : Int) (n : Nat) :
    fetchWords (s.inMode m) a n = fetchWords s a n :=
  fetchWords_congr (s := s) (t := s.inMode m) rfl rfl n a

/-- Two modes that agree on the opcode word at `a` decode alike there: after the opcode word, fetch and decode ask the
mode nothing but its legality. -/
theorem decodeAt_inMode_congr {s : State} {a : Int} {m n : Mode}
    (h : ∀ op, fetchWord s a = .got op → opcodeLegal m op = opcodeLegal n op) :
    decodeAt (s.inMode m) a = decodeAt (s.inMode n) a := by
  have hfetch (m : Mode) : fetchWord (s.inMode m) a = fetchWord s a := rfl
  unfold decodeAt
  rw [hfetch, hfetch]
  cases hop : fetchWord s a with
  | outOfRange => rfl
  | noValue => rfl
  | got op =>
    have hlegal := h op hop
    have hmode (m : Mode) : (s.inMode m).launch.mode = m := rfl
    cases hshape : shapeOf op with
    | none => simp only [hshape]
    | some sh =>
      simp only [opcodeLegal, hshape] at hlegal
      simp only [hshape, hmode, hlegal, fetchWords_inMode]

/-- An instance that decodes alike in the mode `m` steps alike in it. -/
theorem stepInstance_inMode {s : State} {m : Mode}
    (hd : decodeAt (s.inMode m) s.me.ip.toInt = decodeAt s s.me.ip.toInt) :
    onNext (fun u => u.inMode m) (stepInstance s) = stepInstance (s.inMode m) := by
  have hme : (s.inMode m).me = s.me := rfl
  unfold stepInstance
  rw [hme, hd]
  cases decodeAt s s.me.ip.toInt with
  | noValue => rfl
  | fault c w => exact congrArg Host.Outcome.next ((unseen_inMode m).map_raise trivial c w)
  | instr i =>
    have hroom : (s.inMode m).noRoom i s.me = s.noRoom i s.me := rfl
    have hexec : onNext (fun u => u.inMode m) (exec i (s.traced i)) = exec i ((s.traced i).inMode m) :=
      (unseen_inMode m).map_exec trivial i
    dsimp only
    rw [hroom, State.traced_inMode, ← hexec]
    split <;> rfl

/-- Settles O36: the two modes decode the opcode word alike (`decodeAt_inMode_congr`), and what is then executed does
not see the mode (`unseen_inMode`). -/
theorem seqAndLaneStepAlike : Obligations.SeqAndLaneStepAlike := by
  unfold Obligations.SeqAndLaneStepAlike
  intro s h
  have hstep : onNext (fun u => u.inMode .lane) (stepInstance (s.inMode .seq)) = stepInstance (s.inMode .lane) :=
    stepInstance_inMode (s := s.inMode .seq) (decodeAt_inMode_congr h).symm
  rw [← hstep]
  refine ⟨fun t ht => ?_, fun r => onNext_eq_fault.symm⟩
  rw [ht]
  rfl

/-! ### THREAD_ID (R135) -/

/-- Settles O16: `pushWord` of the identity, with room (`writesLane_pushWord`) and without (`faultsWith_pushWord`); the
opcode is as legal as its instruction (`opcodeLegal_opcode`). -/
theorem threadIdPushesIdentity : Obligations.ThreadIdPushesIdentity := by
  unfold Obligations.ThreadIdPushesIdentity
  exact ⟨fun s hme hroom => writesLane_pushWord hme hroom, fun s hme hfull => faultsWith_pushWord hme hfull, rfl,
    opcodeLegal_opcode .seq .threadId, opcodeLegal_opcode .lane .threadId⟩

/-! ### A lane's heap access: the equations without a conflict, the stop and the faults (R136, R137)

The equations with the selected heap and index in range stand with O19. -/

/-- The state with the access put on record (20_memory.md R80; log 9). -/
def State.recorded (s : State) (a : Access) : State := { s with accesses := a :: s.accesses }

section LaneAccess

variable {s : State} {rest : List Word} {selector index v : Word} {h k : Nat}

theorem exec_parallelGloadIndexed_noConflict (hst : s.me.stack = rest ++ [index])
    (hh : indexBelow? selector.toInt s.cfg.numHeaps = some h) (hk : indexBelow? index.toInt (s.heapCap h) = some k)
    (hv : s.heapRead h k = some v) (hc : s.conflicts s.cur h k false = false) :
    exec (.parallelGloadIndexed selector) s = retire (.parallelGloadIndexed selector)
      { s.me with stack := rest ++ [v] } (s.recorded ⟨s.cur, h, k, false, some v, v⟩) := by
  rw [exec_parallelGloadIndexed hst hh hk hv, laneRead_noConflict hc]
  rfl

theorem exec_parallelGloadIndexed_noValue (hst : s.me.stack = rest ++ [index])
    (hh : indexBelow? selector.toInt s.cfg.numHeaps = some h) (hk : indexBelow? index.toInt (s.heapCap h) = some k)
    (hv : s.heapRead h k = none) : exec (.parallelGloadIndexed selector) s = .fault .heapWordNoValue := by
  simp only [exec, execParallelGloadIndexed, hst, top1?_concat, hh, hk, hv]

theorem exec_parallelGloadIndexed_outside (hst : s.me.stack = rest ++ [index])
    (hh : indexBelow? selector.toInt s.cfg.numHeaps = some h) (hk : indexBelow? index.toInt (s.heapCap h) = none) :
    exec (.parallelGloadIndexed selector) s = trap .heapIndexOutOfRange (.parallelGloadIndexed selector) s := by
  simp only [exec, execParallelGloadIndexed, hst, top1?_concat, hh, hk]

theorem exec_parallelGloadIndexed_noHeap (hst : s.me.stack ≠ [])
    (hh : indexBelow? selector.toInt s.cfg.numHeaps = none) :
    exec (.parallelGloadIndexed selector) s = trap .heapSelectorOutOfRange (.parallelGloadIndexed selector) s := by
  obtain ⟨c, hc⟩ := Option.ne_none_iff_exists'.1 (mt top1?_eq_none.1 hst)
  simp only [exec, execParallelGloadIndexed, hc, hh]

theorem exec_parallelGloadIndexed_underflow (hst : s.me.stack = []) :
    exec (.parallelGloadIndexed selector) s = trap .stackUnderflow (.parallelGloadIndexed selector) s := by
  simp only [exec, execParallelGloadIndexed, hst, top1?_nil]

/-- Recording the access before the word is written, as `writesLaneAndHeap_retire` wants it, is no different. -/
theorem exec_parallelGstoreIndexed_noConflict (hst : s.me.stack = rest ++ [index, v])
    (hh : indexBelow? selector.toInt s.cfg.numHeaps = some h) (hk : indexBelow? index.toInt (s.heapCap h) = some k)
    (hc : s.conflicts s.cur h k true = false) :
    exec (.parallelGstoreIndexed selector) s = retire (.parallelGstoreIndexed selector) { s.me with stack := rest }
      ((s.recorded ⟨s.cur, h, k, true, s.heapRead h k, v⟩).heapWrite h k v) := by
  rw [exec_parallelGstoreIndexed hst hh hk, laneWrite_noConflict hc]
  rfl

theorem exec_parallelGstoreIndexed_outside (hst : s.me.stack = rest ++ [index, v])
    (hh : indexBelow? selector.toInt s.cfg.numHeaps = some h) (hk : indexBelow? index.toInt (s.heapCap h) = none) :
    exec (.parallelGstoreIndexed selector) s = trap .heapIndexOutOfRange (.parallelGstoreIndexed selector) s := by
  simp only [exec, execParallelGstoreIndexed, hst, top2?_concat, hh, hk]

theorem exec_parallelGstoreIndexed_noHeap (hlen : 2 ≤ s.me.stack.length)
    (hh : indexBelow? selector.toInt s.cfg.numHeaps = none) :
    exec (.parallelGstoreIndexed selector) s = trap .heapSelectorOutOfRange (.parallelGstoreIndexed selector) s := by
  obtain ⟨c, hc⟩ := Option.ne_none_iff_exists'.1 (mt top2?_eq_none.1 (Nat.not_lt.2 hlen))
  simp only [exec, execParallelGstoreIndexed, hc, hh]

theorem exec_parallelGstoreIndexed_underflow (hlen : s.me.stack.length < 2) :
    exec (.parallelGstoreIndexed selector) s = trap .stackUnderflow (.parallelGstoreIndexed selector) s := by
  simp only [exec, execParallelGstoreIndexed, top2?_eq_none.2 hlen]

end LaneAccess

/-! ### The frame of a recorded access -/

section Recorded

variable {s : State} {r : Result} {L : Lane} {access : Access} {h k : Nat} {v : Word}

/-- A step that writes the lane alone once the access is recorded changes, of the state before, that lane and the
record of accesses. -/
theorem writesLane_recorded_frame (hw : WritesLane r (s.recorded access) L) :
    ∃ t, r = .next t ∧ t.me = L ∧ (∀ l, l ≠ s.cur → t.lane l = s.lane l) ∧
      (∀ i, t.program.read i = s.program.read i) ∧ (∀ a i, t.heapRead a i = s.heapRead a i) ∧
      t.accesses = access :: s.accesses ∧ { t with lanes := s.lanes, accesses := s.accesses } = s := by
  obtain ⟨t, hr, hme, hlanes, hprogram, hheaps, hrest⟩ := hw
  have hframe : { t with lanes := s.lanes, accesses := s.accesses } = s :=
    congrArg (fun u : State => { u with accesses := s.accesses }) hrest
  exact ⟨t, hr, hme, hlanes, hprogram, hheaps, congrArg State.accesses hrest, hframe⟩

/-- As `writesLane_recorded_frame`, for a step that writes a heap word too. -/
theorem writesLaneAndHeap_recorded_frame (hw : WritesLaneAndHeap r (s.recorded access) L h k v) :
    ∃ t, r = .next t ∧ t.me = L ∧ (∀ l, l ≠ s.cur → t.lane l = s.lane l) ∧
      (∀ i, t.program.read i = s.program.read i) ∧ t.heapRead h k = some v ∧
      (∀ a i, (a, i) ≠ (h, k) → t.heapRead a i = s.heapRead a i) ∧
      t.accesses = access :: s.accesses ∧ { t with lanes := s.lanes, heaps := s.heaps, accesses := s.accesses } = s := by
  obtain ⟨t, hr, hme, hlanes, hprogram, hword, hheaps, hrest⟩ := hw
  have hframe : { t with lanes := s.lanes, heaps := s.heaps, accesses := s.accesses } = s :=
    congrArg (fun u : State => { u with accesses := s.accesses }) hrest
  exact ⟨t, hr, hme, hlanes, hprogram, hword, hheaps, congrArg State.accesses hrest, hframe⟩

end Recorded

/-- Settles O17: where no other lane wrote the word the load is no conflict, and retires in the state with the access
recorded (`writesLane_recorded_frame`); the other clauses are one stop and one trap each. -/
theorem parallelLoadReadsSelectedHeap : Obligations.ParallelLoadReadsSelectedHeap := by
  unfold Obligations.ParallelLoadReadsSelectedHeap
  refine ⟨fun s rest selector index v h k hme hst hsel hh hidx hk => ?_,
    fun s rest selector index h hme hst hsel hh hout => ?_, fun s selector hme hst hout => ?_,
    fun s selector hme hst => ?_⟩
  · have hheap : indexBelow? selector.toInt s.cfg.numHeaps = some h := indexBelow?_eq_some.2 ⟨hsel, hh⟩
    have hword : indexBelow? index.toInt (s.heapCap h) = some k := indexBelow?_eq_some.2 ⟨hidx, hk⟩
    refine ⟨fun hv hother => writesLane_recorded_frame ?_, exec_parallelGloadIndexed_noValue hst hheap hword⟩
    have hc : s.conflicts s.cur h k false = false :=
      conflicts_eq_false.2 fun a ha hlane hah hak => ⟨rfl, hother a ha hlane hah hak⟩
    exact writesLane_of_retire (s := s.recorded _) hme
      (exec_parallelGloadIndexed_noConflict hst hheap hword hv hc)
  · exact faultsWith_of_trap hme
      (exec_parallelGloadIndexed_outside hst (indexBelow?_eq_some.2 ⟨hsel, hh⟩) (indexBelow?_eq_none.2 hout))
  · exact faultsWith_of_trap hme (exec_parallelGloadIndexed_noHeap hst (indexBelow?_eq_none.2 hout))
  · exact faultsWith_of_trap hme (exec_parallelGloadIndexed_underflow hst)

/-- Settles O18: where no other lane accessed the word the store is no conflict, and retires after one `heapWrite` in
the state with the access recorded (`writesLaneAndHeap_recorded_frame`); the other clauses are one trap each. -/
theorem parallelStoreWritesSelectedHeap : Obligations.ParallelStoreWritesSelectedHeap := by
  unfold Obligations.ParallelStoreWritesSelectedHeap
  refine ⟨fun s rest selector index v h k hme hst hsel hh hlen hidx hk hother =>
      writesLaneAndHeap_recorded_frame ?_,
    fun s rest selector index v h hme hst hsel hh hout => ?_, fun s selector hme hlen hout => ?_,
    fun s selector hme hlen => ?_⟩
  · have hc : s.conflicts s.cur h k true = false :=
      conflicts_eq_false.2 fun a ha hlane hah hak => absurd ⟨hah, hak⟩ (hother a ha hlane)
    have hheap : h < s.heaps.length := hlen ▸ hh
    exact writesLaneAndHeap_of_retire (s := s.recorded _) hme hheap
      (exec_parallelGstoreIndexed_noConflict hst (indexBelow?_eq_some.2 ⟨hsel, hh⟩)
        (indexBelow?_eq_some.2 ⟨hidx, hk⟩) hc)
  · exact faultsWith_of_trap hme
      (exec_parallelGstoreIndexed_outside hst (indexBelow?_eq_some.2 ⟨hsel, hh⟩) (indexBelow?_eq_none.2 hout))
  · exact faultsWith_of_trap hme (exec_parallelGstoreIndexed_noHeap hlen (indexBelow?_eq_none.2 hout))
  · exact faultsWith_of_trap hme (exec_parallelGstoreIndexed_underflow hlen)

end Sys2Proof.Machine

/-! PROOFS of the family 60_exceptions.md: faults, groups and issues, the dispatcher's order, completion. -/

namespace Sys2Proof.Machine

/-! ### Grouping changes no lane's step (60_exceptions.md R162) -/

/-- No meaning reads the group size, its latched copy or the group policy. -/
theorem unseen_regrouped (size latched : Word) (policy : Nat) :
    Unseen (fun _ => True) id (fun s => s.regrouped size latched policy) where
  stable _ _ _ := trivial
  me _ := rfl
  cur _ := rfl
  stackCap _ := rfl
  heapCaps _ := rfl
  numHeaps _ := rfl
  heaps _ := rfl
  accesses _ := rfl
  draws _ := rfl
  setMe _ _ := rfl
  shared _ _ _ _ _ := rfl
  race _ := rfl
  print _ _ _ := rfl

theorem State.traced_regrouped (s : State) (size latched : Word) (policy : Nat) (i : Instr) :
    (s.regrouped size latched policy).traced i = (s.traced i).regrouped size latched policy := by
  rw [State.traced_eq, State.traced_eq]
  rfl

theorem decodeAt_regrouped (s : State) (size latched : Word) (policy : Nat) (a : Int) :
    decodeAt (s.regrouped size latched policy) a = decodeAt s a :=
  decodeAt_congr (s := s) (t := s.regrouped size latched policy) rfl rfl rfl a

/-- Regrouping before a lane's step, or after it. -/
theorem stepLane_regrouped (l : Nat) (s : State) (size latched : Word) (policy : Nat) :
    stepLane l (s.regrouped size latched policy) =
      onNext (fun u => u.regrouped size latched policy) (stepLane l s) := by
  have hstep := (unseen_regrouped size latched policy).map_stepInstance (s := { s with cur := l }) trivial
    (decodeAt_regrouped { s with cur := l } size latched policy) (fun _ _ => rfl)
    (State.traced_regrouped { s with cur := l } size latched policy)
  have hactive : (s.regrouped size latched policy).active l = s.active l := rfl
  have hrun : (s.regrouped size latched policy).runState = s.runState := rfl
  unfold stepLane
  rw [hactive, hrun]
  split
  · exact hstep.symm
  · rfl

/-- Settles O33: no meaning sees the grouping (`unseen_regrouped`), and neither do fetch, decode and the port. -/
theorem groupSizeChangesNoStep : Obligations.GroupSizeChangesNoStep := by
  unfold Obligations.GroupSizeChangesNoStep
  intro s t l size latched policy h
  rw [stepLane_regrouped, h]
  rfl

/-! ### Taking a fault (60_exceptions.md R142, R143) -/

/-- A meaning that writes the lane that steps without taking a fault leaves it RUNNING or HALTED. -/
theorem KeptLane.status_ne_faulted {s : State} {i : Instr} {L : Lane} (h : KeptLane s i L)
    (hme : s.me.status = .running) : L.status ≠ .faulted := by
  rcases h.status with hs | ⟨-, hs⟩
  · rw [hs, hme]; decide
  · rw [hs]; decide

/-- Settles O27: of the two forms of `exec_next`, only `raise` leaves the lane FAULTED, and it writes nothing but the
fault record. -/
theorem faultsArePrecise : Obligations.FaultsArePrecise := by
  unfold Obligations.FaultsArePrecise
  intro i s t hme hexec hfaulted
  rcases exec_next hexec with ⟨c, hc, rfl⟩ | ⟨u, L, hbase, hkept, rfl⟩
  · refine ⟨c, hc, ?_⟩
    rw [hexec]
    exact faultsWith_raise c i.opcode hme
  · obtain ⟨hlanes, hcur⟩ := stepBase_lanes hbase
    have hlt : u.cur < u.lanes.length := by rw [hlanes, hcur]; exact s.cur_lt hme
    rw [State.me_setMe u L hlt] at hfaulted
    exact absurd hfaulted (hkept.status_ne_faulted hme)

/-! ### Groups (60_exceptions.md R156 to R158) -/

/-- Position `l` lies in group `l / G` alone. -/
theorem mem_groupPositions {s : State} {l g : Nat} (hG : 0 < s.groupLen) :
    l ∈ s.groupPositions g ↔ l / s.groupLen = g := by
  simp only [State.groupPositions, List.mem_map, List.mem_range]
  constructor
  · rintro ⟨k, hk, rfl⟩
    rw [Nat.add_comm, Nat.add_mul_div_right _ _ hG, Nat.div_eq_of_lt hk, Nat.zero_add]
  · rintro rfl
    exact ⟨l % s.groupLen, Nat.mod_lt l hG, Nat.div_add_mod' l s.groupLen⟩

theorem nodup_groupPositions (s : State) (g : Nat) : (s.groupPositions g).Nodup :=
  List.nodup_range.map fun _ _ h => Nat.add_left_cancel h

/-- A group is one of the groups just when its first position is in use: `groupCount` is the ceiling of R156. -/
theorem lt_groupCount {s : State} {g : Nat} (hG : 0 < s.groupLen) :
    g < s.groupCount ↔ g * s.groupLen < s.launch.lanesUsed := by
  rw [State.groupCount, ← Nat.succ_le_iff, Nat.le_div_iff_mul_le hG, Nat.succ_mul]
  omega

/-- Settles O31: the positions of a group (`mem_groupPositions`), and the ceiling (`lt_groupCount`). -/
theorem groupsPartitionLanes : Obligations.GroupsPartitionLanes := by
  unfold Obligations.GroupsPartitionLanes
  refine ⟨fun s hm => ?_, fun s l g hG => ⟨mem_groupPositions hG, fun hl => ?_, fun hg => ?_⟩⟩
  · simp only [State.groupLen, Launch.lanesUsed, hm, and_self]
  · exact (lt_groupCount hG).2 (lt_of_le_of_lt (Nat.div_mul_le_self l s.groupLen) hl)
  · exact ⟨g * s.groupLen, (mem_groupPositions hG).2 (Nat.mul_div_cancel g hG), (lt_groupCount hG).1 hg⟩

theorem mem_issueMask {s : State} {g l : Nat} {ip : Word} (hG : 0 < s.groupLen) :
    l ∈ s.issueMask g ip ↔ l / s.groupLen = g ∧ l < s.launch.lanesUsed ∧ (s.lane l).status = .running ∧
      (s.lane l).ip = ip ∧ s.held l = false := by
  simp [State.issueMask, mem_groupPositions hG, State.masked, State.active, and_assoc]

/-- The issue mask does not depend on what stands in the agenda. -/
theorem issueMask_agenda (s : State) (rest : List Event) (g : Nat) (ip : Word) :
    { s with agenda := rest }.issueMask g ip = s.issueMask g ip := by
  have hheld (l : Nat) : { s with agenda := rest }.held l = s.held l :=
    held_congr (s := s) (t := { s with agenda := rest }) rfl rfl rfl rfl rfl rfl
  simp only [State.issueMask, hheld]
  rfl

/-- Settles O32: the mask is the issue mask (`mem_issueMask`), part of a list of distinct positions
(`nodup_groupPositions`). -/
theorem issueStepsTheMask : Obligations.IssueStepsTheMask := by
  unfold Obligations.IssueStepsTheMask
  intro s g ip rest hG hagenda hdue
  refine ⟨s.issueMask g ip, ?_, (nodup_groupPositions s g).filter _, fun l => mem_issueMask hG⟩
  rw [step_of_agenda hdue hagenda, handle, issueMask_agenda]

/-! ### Turns with an empty agenda (60_exceptions.md R161; log 6) -/

/-- How many slots come before slot `l` in the turn order of `n` slots that starts after slot `c`. -/
def turnOf (c n l : Nat) : Nat := (l + n - (c + 1)) % n

/-- The slot whose turn comes after `turnOf c n l` others is `l`. -/
theorem slot_turnOf {c n l : Nat} (hc : c < n) (hl : l < n) : (c + 1 + turnOf c n l) % n = l := by
  rw [turnOf, Nat.add_mod_mod, show c + 1 + (l + n - (c + 1)) = l + n by omega, Nat.add_mod_right,
    Nat.mod_eq_of_lt hl]

/-- The slot that comes after `j` others has `j` slots before it. -/
theorem turnOf_slot {c n j : Nat} (hc : c < n) (hj : j < n) : turnOf c n ((c + 1 + j) % n) = j := by
  have hadd : (c + 1 + j) % n + n - (c + 1) = (c + 1 + j) % n + (n - (c + 1)) := by omega
  rw [turnOf, hadd, Nat.mod_add_mod, show c + 1 + j + (n - (c + 1)) = j + n by omega, Nat.add_mod_right,
    Nat.mod_eq_of_lt hj]

/-- The dispatcher's own choice is the first running slot in turn order. -/
theorem pick_eq_some {s : State} {j : Nat} (hj : (List.range s.lanes.length).find?
    (fun k => s.active ((s.cur + 1 + k) % s.lanes.length)) = some j) :
    s.pick = some ((s.cur + 1 + j) % s.lanes.length) := by
  rw [State.pick, State.rotation, List.find?_map]
  exact congrArg (Option.map _) hj

theorem active_iff {s : State} {l : Nat} : s.active l = true ↔ (s.lane l).status = .running := beq_iff_eq

/-- Settles O35: the search along the turn order finds a running slot, and none runs before the one found. -/
theorem emptyAgendaTakesTurns : Obligations.EmptyAgendaTakesTurns := by
  unfold Obligations.EmptyAgendaTakesTurns
  intro s k hcur hrun
  have hk : k < s.lanes.length := s.lt_of_running k hrun
  have hturn : turnOf s.cur s.lanes.length k < s.lanes.length := Nat.mod_lt _ (by omega)
  have hactive : s.active ((s.cur + 1 + turnOf s.cur s.lanes.length k) % s.lanes.length) = true := by
    rw [slot_turnOf hcur hk]
    exact active_iff.2 hrun
  cases hfind : (List.range s.lanes.length).find?
      (fun j => s.active ((s.cur + 1 + j) % s.lanes.length)) with
  | none => exact absurd hactive (List.find?_eq_none.1 hfind _ (List.mem_range.2 hturn))
  | some j =>
    obtain ⟨hj, hmem, hbefore⟩ := List.find?_range_eq_some.1 hfind
    refine ⟨_, pick_eq_some hfind, active_iff.1 hj, ?_⟩
    have hle : j ≤ turnOf s.cur s.lanes.length k := by
      by_contra hlt
      simpa [hactive] using hbefore _ (Nat.lt_of_not_le hlt)
    exact (turnOf_slot hcur (List.mem_range.1 hmem)).trans_le hle

/-! ### Completion (60_exceptions.md R163, 70_reset_and_hazards.md R177; log 8) -/

/-- The list of slots, slot by slot. -/
theorem mem_lanes {s : State} {L : Lane} : L ∈ s.lanes ↔ ∃ l < s.lanes.length, s.lane l = L := by
  rw [List.mem_iff_getElem]
  constructor
  · rintro ⟨l, hl, rfl⟩
    exact ⟨l, hl, List.getD_eq_getElem _ _ hl⟩
  · rintro ⟨l, hl, rfl⟩
    exact ⟨l, hl, (List.getD_eq_getElem _ _ hl).symm⟩

theorem complete_anyFault {s : State} : s.complete.anyFault = true ↔ ∃ l, (s.lane l).status = .faulted := by
  simp only [State.complete, List.any_eq_true, beq_iff_eq]
  constructor
  · rintro ⟨L, hmem, hL⟩
    obtain ⟨l, -, rfl⟩ := mem_lanes.1 hmem
    exact ⟨l, hL⟩
  · rintro ⟨l, hl⟩
    exact ⟨s.lane l, mem_lanes.2 ⟨l, s.lt_of_status l (by rw [hl]; decide), rfl⟩, hl⟩

/-- Settles O51: completion is due, so it is the step. -/
theorem completionIsTheNextStep : Obligations.CompletionIsTheNextStep := by
  unfold Obligations.CompletionIsTheNextStep
  intro s hrun hlanes hout
  have hdue : s.completionDue = true := by
    refine completionDue_iff.2 ⟨hrun, fun L hL => ?_, hout⟩
    obtain ⟨l, -, rfl⟩ := mem_lanes.1 hL
    exact hlanes l
  refine ⟨s.complete, ?_, rfl, complete_anyFault, rfl⟩
  rw [step, blockStep, if_pos hdue]

end Sys2Proof.Machine

namespace Sys2Proof.Machine

/-! ### What a quiet step of a lane does (60_exceptions.md R160, 20_memory.md R79)

In mode LANE a step that emits no record and makes no race is an act of one of three kinds. The lane, the launch, the
parameters, the program and the port choose the act; of the heaps it sees the one word it reads. -/

/-- The word at index `i` of heap `h`. -/
def wordAt (hs : List Memory) (h i : Nat) : Option Word := (hs.getD h []).read i

/-- The heaps after `HeapWrite(h, i, v)`. -/
def putWord (hs : List Memory) (h i : Nat) (v : Word) : List Memory := hs.set h ((hs.getD h []).write i v)

theorem heapRead_eq_wordAt (s : State) (h i : Nat) : s.heapRead h i = wordAt s.heaps h i := rfl

theorem heapWrite_heaps_eq_putWord (s : State) (h i : Nat) (v : Word) :
    (s.heapWrite h i v).heaps = putWord s.heaps h i v := rfl

theorem wordAt_putWord (hs : List Memory) (h k a i : Nat) (v : Word) :
    wordAt (putWord hs h k v) a i = if a < hs.length ∧ a = h ∧ i = k then some v else wordAt hs a i := by
  by_cases ha : a = h
  · subst ha
    by_cases hlt : a < hs.length
    · simp [wordAt, putWord, List.getD_eq_getElem?_getD, hlt, Memory.read_write]
    · simp [wordAt, putWord, List.set_eq_of_length_le (Nat.le_of_not_lt hlt), hlt]
  · simp [wordAt, putWord, List.getD_eq_getElem?_getD, List.getElem?_set_ne (Ne.symm ha), ha]

theorem length_putWord (hs : List Memory) (h k : Nat) (v : Word) : (putWord hs h k v).length = hs.length :=
  List.length_set

/-- An act of a lane: it writes itself alone; or it reads a heap word, on which it then depends; or it writes a heap
word too. -/
inductive LaneAct where
  | own (L : Lane)
  | read (h k : Nat) (L : Word → Lane)
  | write (h k : Nat) (v : Word) (L : Lane)

/-- The lane after the act, given the heaps before it. -/
def LaneAct.lane : LaneAct → List Memory → Lane
  | .own L, _ => L
  | .read h k L, hs => L ((wordAt hs h k).getD 0)
  | .write _ _ _ L, _ => L

/-- The heaps after the act. -/
def LaneAct.store : LaneAct → List Memory → List Memory
  | .own _, hs => hs
  | .read _ _ _, hs => hs
  | .write h k v _, hs => putWord hs h k v

/-- Whether the act accesses that heap word, by a write or by a read. -/
def LaneAct.Touches : LaneAct → Nat → Nat → Bool → Prop
  | .own _, _, _, _ => False
  | .read h k _, a, i, w => a = h ∧ i = k ∧ w = false
  | .write h k _ _, a, i, w => a = h ∧ i = k ∧ w = true

/-- `t` is `s` after the lane in slot `l` did the act, without a conflict. -/
structure LaneAct.Done (A : LaneAct) (l : Nat) (s t : State) : Prop where
  lanes : t.lanes = s.lanes.set l (A.lane s.heaps)
  heaps : t.heaps = A.store s.heaps
  recorded : ∀ h k w, A.Touches h k w → ∃ x ∈ t.accesses, x.lane = l ∧ x.heap = h ∧ x.index = k ∧ x.write = w
  quiet : ∀ h k w, A.Touches h k w → s.conflicts l h k w = false

/-- Two acts that access a common word both read it. -/
def LaneAct.Apart (A B : LaneAct) : Prop :=
  ∀ h k w w', A.Touches h k w → B.Touches h k w' → w = false ∧ w' = false

theorem LaneAct.Apart.symm {A B : LaneAct} (h : A.Apart B) : B.Apart A :=
  fun a k w w' hB hA => (h a k w' w hA hB).symm

/-- An act done after another lane's, without a conflict, is apart from it. -/
theorem LaneAct.Done.apart {A B : LaneAct} {a b : Nat} {s t u : State} (hab : a ≠ b) (hA : A.Done a s t)
    (hB : B.Done b t u) : A.Apart B := by
  intro h k w w' hAw hBw
  obtain ⟨x, hx, hlane, hheap, hindex, rfl⟩ := hA.recorded h k w hAw
  exact (conflicts_eq_false.1 (hB.quiet h k w' hBw) x hx (hlane ▸ hab) hheap hindex).symm

/-- What an act makes of its lane is not changed by an act apart from it. -/
theorem LaneAct.lane_store {A B : LaneAct} (h : A.Apart B) (hs : List Memory) : A.lane (B.store hs) = A.lane hs := by
  cases A with
  | own L => rfl
  | write a k v L => rfl
  | read a k L =>
    cases B with
    | own L' => rfl
    | read a' k' L' => rfl
    | write a' k' v L' =>
      have hne : ¬ (a < hs.length ∧ a = a' ∧ k = k') := by
        rintro ⟨-, rfl, rfl⟩
        exact absurd (h a k false true ⟨rfl, rfl, rfl⟩ ⟨rfl, rfl, rfl⟩).2 (by decide)
      rw [LaneAct.store, LaneAct.lane, LaneAct.lane, wordAt_putWord, if_neg hne]

/-- Acts that are apart leave the same heap words in either order. -/
theorem LaneAct.wordAt_store_comm {A B : LaneAct} (h : A.Apart B) (hs : List Memory) (a i : Nat) :
    wordAt (B.store (A.store hs)) a i = wordAt (A.store (B.store hs)) a i := by
  cases A with
  | own L => rfl
  | read a1 k1 L => rfl
  | write a1 k1 v1 L1 =>
    cases B with
    | own L => rfl
    | read a2 k2 L => rfl
    | write a2 k2 v2 L2 =>
      have hne : ¬ (a1 = a2 ∧ k1 = k2) := by
        rintro ⟨rfl, rfl⟩
        exact absurd (h a1 k1 true true ⟨rfl, rfl, rfl⟩ ⟨rfl, rfl, rfl⟩).1 (by decide)
      simp only [LaneAct.store, wordAt_putWord, length_putWord]
      by_cases h1 : a < hs.length ∧ a = a1 ∧ i = k1
      · obtain ⟨hlt, rfl, rfl⟩ := h1
        simp [hne]
      · simp [h1]

/-- The diamond: what two lanes do in one order, and in the other, leaves the same lanes and heap words. -/
theorem LaneAct.Done.diamond {A B : LaneAct} {a b : Nat} {s ta tab tb tba : State} (hab : a ≠ b)
    (hA : A.Done a s ta) (hAB : B.Done b ta tab) (hB : B.Done b s tb) (hBA : A.Done a tb tba) :
    tab.lanes = tba.lanes ∧ ∀ h i, tab.heapRead h i = tba.heapRead h i := by
  have hapart : A.Apart B := hA.apart hab hAB
  constructor
  · rw [hAB.lanes, hA.lanes, hA.heaps, LaneAct.lane_store hapart.symm, hBA.lanes, hB.lanes, hB.heaps,
      LaneAct.lane_store hapart, List.set_comm _ _ hab]
  · intro h i
    rw [heapRead_eq_wordAt, heapRead_eq_wordAt, hAB.heaps, hA.heaps, hBA.heaps, hB.heaps,
      LaneAct.wordAt_store_comm hapart]

/-! ### The act depends on the lane that steps, not on the heaps or the other lanes -/

/-- The states look alike to the lane that steps, but for the heaps. -/
structure Alike (s u : State) : Prop where
  me : u.me = s.me
  launch : u.launch = s.launch
  cfg : u.cfg = s.cfg
  program : u.program = s.program
  runState : u.runState = s.runState
  out : u.out = s.out

/-- In every state alike to `s`, `m` does the same act when it neither emits a record nor makes a race. -/
def Acts (s : State) (m : State → Result) : Prop :=
  ∃ A : LaneAct, ∀ u t, Alike s u → m u = .next t → t.out = u.out → t.race = false → A.Done u.cur u t

/-- In every state alike to `s`, `m` writes the same lane, and nothing else. -/
def ActsOnSelf (s : State) (m : State → Result) : Prop := ∃ L, ∀ u, Alike s u → m u = .next (u.setMe L)

section Acts

variable {s u t : State} {m m' : State → Result} {i : Instr}

theorem Alike.heapCap (hu : Alike s u) (h : Nat) : u.heapCap h = s.heapCap h := by
  simp only [State.heapCap, hu.launch]

theorem Alike.roomFor (hu : Alike s u) (n : Nat) : u.roomFor n = s.roomFor n := by
  simp only [State.roomFor, hu.me, hu.launch]

theorem Alike.nextIp (hu : Alike s u) (i : Instr) : nextIp i u = nextIp i s := by
  simp only [Machine.nextIp, hu.me]

theorem done_own {l : Nat} {L : Lane} (hl : t.lanes = s.lanes.set l L) (hh : t.heaps = s.heaps) :
    (LaneAct.own L).Done l s t := ⟨hl, hh, fun _ _ _ => False.elim, fun _ _ _ => False.elim⟩

theorem done_read {l h k : Nat} {v : Word} {L : Word → Lane} (hv : s.heapRead h k = some v)
    (hc : s.conflicts l h k false = false) (hl : t.lanes = s.lanes.set l (L v)) (hh : t.heaps = s.heaps)
    (ha : t.accesses = ⟨l, h, k, false, some v, v⟩ :: s.accesses) : (LaneAct.read h k L).Done l s t where
  lanes := by
    rw [heapRead_eq_wordAt] at hv
    rw [hl, LaneAct.lane, hv, Option.getD_some]
  heaps := hh
  recorded := by
    rintro _ _ _ ⟨rfl, rfl, rfl⟩
    exact ⟨_, ha ▸ List.mem_cons_self, rfl, rfl, rfl, rfl⟩
  quiet := by
    rintro _ _ _ ⟨rfl, rfl, rfl⟩
    exact hc

theorem done_write {l h k : Nat} {v : Word} {L : Lane} (hc : s.conflicts l h k true = false)
    (hl : t.lanes = s.lanes.set l L) (hh : t.heaps = putWord s.heaps h k v)
    (ha : t.accesses = ⟨l, h, k, true, s.heapRead h k, v⟩ :: s.accesses) : (LaneAct.write h k v L).Done l s t where
  lanes := hl
  heaps := hh
  recorded := by
    rintro _ _ _ ⟨rfl, rfl, rfl⟩
    exact ⟨_, ha ▸ List.mem_cons_self, rfl, rfl, rfl, rfl⟩
  quiet := by
    rintro _ _ _ ⟨rfl, rfl, rfl⟩
    exact hc

theorem ActsOnSelf.acts (h : ActsOnSelf s m) : Acts s m := by
  obtain ⟨L, hL⟩ := h
  refine ⟨.own L, fun u t hu hm _ _ => ?_⟩
  cases (hL u hu).symm.trans hm
  exact done_own rfl rfl

theorem Acts.congr (h : Acts s m) (he : ∀ u, Alike s u → m' u = m u) : Acts s m' := by
  obtain ⟨A, hA⟩ := h
  exact ⟨A, fun u t hu hm => hA u t hu ((he u hu).symm.trans hm)⟩

theorem ActsOnSelf.congr (h : ActsOnSelf s m) (he : ∀ u, Alike s u → m' u = m u) : ActsOnSelf s m' := by
  obtain ⟨L, hL⟩ := h
  exact ⟨L, fun u hu => (he u hu).trans (hL u hu)⟩

/-- Where `m` answers no next state in which no record was emitted, there is no act to name. -/
theorem acts_of_none (h : ∀ u t, Alike s u → m u = .next t → t.out ≠ u.out) : Acts s m :=
  ⟨.own s.me, fun u t hu hm hout _ => absurd hout (h u t hu hm)⟩

/-! The shared operations -/

theorem actsOnSelf_raise (c : FaultCode) (w : Word) : ActsOnSelf s fun u => .next (raise c w u) :=
  ⟨{ s.me with status := .faulted, faultCode := c, faultIp := s.me.ip, faultWord := w }, fun u hu => by
    rw [← hu.me]; rfl⟩

theorem actsOnSelf_trap (c : FaultCode) (i : Instr) : ActsOnSelf s (trap c i) := actsOnSelf_raise c i.opcode

theorem actsOnSelf_retire (i : Instr) (L : Lane) : ActsOnSelf s (retire i L) :=
  ⟨{ L with ip := nextIp i s }, fun u hu => by rw [retire, hu.nextIp]⟩

theorem actsOnSelf_jump (target : Word) (L : Lane) : ActsOnSelf s (jump target L) :=
  ⟨{ L with ip := target }, fun _ _ => rfl⟩

theorem actsOnSelf_pushWord (i : Instr) (v : Word) : ActsOnSelf s (pushWord i v) := by
  cases hroom : s.roomFor 1 with
  | false =>
    exact (actsOnSelf_trap .stackOverflow i).congr fun u hu => by
      simp only [pushWord, hu.roomFor, hroom, Bool.false_eq_true, if_false]
  | true =>
    exact (actsOnSelf_retire i { s.me with stack := s.me.stack ++ [v] }).congr fun u hu => by
      simp only [pushWord, hu.roomFor, hroom, if_true, hu.me]

theorem actsOnSelf_binary (i : Instr) (f : Word → Word → Word) : ActsOnSelf s (binary i f) := by
  cases hst : top2? s.me.stack with
  | none =>
    exact (actsOnSelf_trap .stackUnderflow i).congr fun u hu => by
      simp only [binary, hu.me, hst]
  | some c =>
    exact (actsOnSelf_retire i { s.me with stack := c.2.2 ++ [f c.1 c.2.1] }).congr fun u hu => by
      simp only [binary, hu.me, hst]

theorem actsOnSelf_unary (i : Instr) (f : Word → Word) : ActsOnSelf s (unary i f) := by
  cases hst : top1? s.me.stack with
  | none =>
    exact (actsOnSelf_trap .stackUnderflow i).congr fun u hu => by
      simp only [unary, hu.me, hst]
  | some c =>
    exact (actsOnSelf_retire i { s.me with stack := c.2 ++ [f c.1] }).congr fun u hu => by
      simp only [unary, hu.me, hst]

theorem actsOnSelf_branchIf (i : Instr) (taken : Word → Bool) (target : Word) :
    ActsOnSelf s (branchIf i taken target) := by
  cases hst : top1? s.me.stack with
  | none =>
    exact (actsOnSelf_trap .stackUnderflow i).congr fun u hu => by
      simp only [branchIf, hu.me, hst]
  | some c =>
    cases htaken : taken c.1 with
    | false =>
      exact (actsOnSelf_retire i { s.me with stack := c.2 }).congr fun u hu => by
        simp only [branchIf, hu.me, hst, htaken, Bool.false_eq_true, if_false]
    | true =>
      exact (actsOnSelf_jump target { s.me with stack := c.2 }).congr fun u hu => by
        simp only [branchIf, hu.me, hst, htaken, if_true]

/-! The instructions that mode LANE allows and that write the lane alone -/

theorem actsOnSelf_load (offset : Word) : ActsOnSelf s (exec (.load offset)) := by
  cases hk : indexBelow? (s.me.frameIndex offset) s.me.stack.length with
  | none =>
    exact (actsOnSelf_trap .stackIndexOutOfRange (.load offset)).congr fun u hu => by
      simp only [exec, execLoad, hu.me, hk]
  | some k =>
    exact (actsOnSelf_pushWord (.load offset) (s.me.stack.getD k 0)).congr fun u hu => by
      simp only [exec, execLoad, hu.me, hk]

theorem actsOnSelf_store (offset : Word) : ActsOnSelf s (exec (.store offset)) := by
  cases hst : top1? s.me.stack with
  | none =>
    exact (actsOnSelf_trap .stackUnderflow (.store offset)).congr fun u hu => by
      simp only [exec, execStore, hu.me, hst]
  | some c =>
    cases hk : indexBelow? (s.me.frameIndex offset) c.2.length with
    | none =>
      exact (actsOnSelf_trap .stackIndexOutOfRange (.store offset)).congr fun u hu => by
        simp only [exec, execStore, hu.me, hst, hk]
    | some k =>
      exact (actsOnSelf_retire (.store offset) { s.me with stack := c.2.set k c.1 }).congr fun u hu => by
        simp only [exec, execStore, hu.me, hst, hk]

theorem actsOnSelf_pop : ActsOnSelf s (exec .pop) := by
  cases hst : top1? s.me.stack with
  | none =>
    exact (actsOnSelf_trap .stackUnderflow .pop).congr fun u hu => by
      simp only [exec, execPop, hu.me, hst]
  | some c =>
    exact (actsOnSelf_retire .pop { s.me with stack := c.2 }).congr fun u hu => by
      simp only [exec, execPop, hu.me, hst]

theorem actsOnSelf_dup : ActsOnSelf s (exec .dup) := by
  cases hst : top1? s.me.stack with
  | none =>
    exact (actsOnSelf_trap .stackUnderflow .dup).congr fun u hu => by
      simp only [exec, execDup, hu.me, hst]
  | some c =>
    exact (actsOnSelf_pushWord .dup c.1).congr fun u hu => by
      simp only [exec, execDup, hu.me, hst]

theorem actsOnSelf_idiv : ActsOnSelf s (exec .idiv) := by
  cases hst : top2? s.me.stack with
  | none =>
    exact (actsOnSelf_trap .stackUnderflow .idiv).congr fun u hu => by
      simp only [exec, execIdiv, hu.me, hst]
  | some c =>
    by_cases hb : c.2.1 = 0
    · exact (actsOnSelf_trap .divisionByZero .idiv).congr fun u hu => by
        simp only [exec, execIdiv, hu.me, hst, hb, if_true]
    · exact (actsOnSelf_retire .idiv { s.me with stack := c.2.2 ++ [divResult c.1 c.2.1] }).congr fun u hu => by
        simp only [exec, execIdiv, hu.me, hst, hb, if_false]

theorem actsOnSelf_call (target numArgs : Word) : ActsOnSelf s (exec (.call target numArgs)) := by
  cases hn : indexBelow? numArgs.toInt (s.me.stack.length + 1) with
  | none =>
    exact (actsOnSelf_trap .malformedCallFrame (.call target numArgs)).congr fun u hu => by
      simp only [exec, execCall, hu.me, hn]
  | some n =>
    cases hroom : s.roomFor 3 with
    | false =>
      exact (actsOnSelf_trap .stackOverflow (.call target numArgs)).congr fun u hu => by
        simp only [exec, execCall, hu.me, hn, hu.roomFor, hroom, Bool.false_eq_true, if_false]
    | true =>
      exact (actsOnSelf_jump target (calledLane s.me numArgs (nextIp (.call target numArgs) s))).congr fun u hu => by
        simp only [exec, execCall, hu.me, hn, hu.roomFor, hroom, if_true, nextIp]

theorem actsOnSelf_ret : ActsOnSelf s (exec .ret) := by
  cases hst : top1? s.me.stack with
  | none =>
    exact (actsOnSelf_trap .stackUnderflow .ret).congr fun u hu => by
      simp only [exec, execRet, hu.me, hst]
  | some c =>
    cases hr : returnRecord? s.me with
    | none =>
      exact (actsOnSelf_trap .malformedCallFrame .ret).congr fun u hu => by
        simp only [exec, execRet, hu.me, hst, hr]
    | some r =>
      exact (actsOnSelf_jump (s.me.stack.getD r.1 0) (returnedLane s.me r.1 r.2 c.1)).congr fun u hu => by
        simp only [exec, execRet, hu.me, hst, hr]

/-! The instructions that emit a record or access a heap -/

theorem acts_print : Acts s (exec .print) := by
  cases hst : top1? s.me.stack with
  | none =>
    exact (actsOnSelf_trap .stackUnderflow .print).acts.congr fun u hu => by
      simp only [exec, execPrint, hu.me, hst]
  | some c =>
    refine acts_of_none fun u t hu hm => ?_
    simp only [exec, execPrint, hu.me, hst] at hm
    cases hm
    simp

theorem acts_parallelGloadIndexed (selector : Word) : Acts s (exec (.parallelGloadIndexed selector)) := by
  cases hst : top1? s.me.stack with
  | none =>
    exact (actsOnSelf_trap .stackUnderflow (.parallelGloadIndexed selector)).acts.congr fun u hu => by
      simp only [exec, execParallelGloadIndexed, hu.me, hst]
  | some c =>
    cases hh : indexBelow? selector.toInt s.cfg.numHeaps with
    | none =>
      exact (actsOnSelf_trap .heapSelectorOutOfRange (.parallelGloadIndexed selector)).acts.congr fun u hu => by
        simp only [exec, execParallelGloadIndexed, hu.me, hu.cfg, hst, hh]
    | some h =>
      cases hk : indexBelow? c.1.toInt (s.heapCap h) with
      | none =>
        exact (actsOnSelf_trap .heapIndexOutOfRange (.parallelGloadIndexed selector)).acts.congr fun u hu => by
          simp only [exec, execParallelGloadIndexed, hu.me, hu.cfg, hst, hh, hu.heapCap, hk]
      | some k =>
        refine ⟨.read h k fun v => { s.me with stack := c.2 ++ [v], ip := nextIp (.parallelGloadIndexed selector) s },
          fun u t hu hm _ hrace => ?_⟩
        have hst' : u.me.stack = c.2 ++ [c.1] := by rw [hu.me]; exact top1?_eq_some.1 hst
        have hh' : indexBelow? selector.toInt u.cfg.numHeaps = some h := by rw [hu.cfg]; exact hh
        have hk' : indexBelow? c.1.toInt (u.heapCap h) = some k := by rw [hu.heapCap]; exact hk
        cases hv : u.heapRead h k with
        | none => cases (exec_parallelGloadIndexed_noValue hst' hh' hk' hv).symm.trans hm
        | some v =>
          cases hc : u.conflicts u.cur h k false with
          | true =>
            cases (exec_parallelGloadIndexed hst' hh' hk' hv).symm.trans hm
            cases (laneRead_race hc).symm.trans hrace
          | false =>
            cases (exec_parallelGloadIndexed_noConflict hst' hh' hk' hv hc).symm.trans hm
            exact done_read hv hc (by rw [← hu.nextIp, ← hu.me]; rfl) rfl rfl

theorem acts_parallelGstoreIndexed (selector : Word) : Acts s (exec (.parallelGstoreIndexed selector)) := by
  cases hst : top2? s.me.stack with
  | none =>
    exact (actsOnSelf_trap .stackUnderflow (.parallelGstoreIndexed selector)).acts.congr fun u hu => by
      simp only [exec, execParallelGstoreIndexed, hu.me, hst]
  | some c =>
    cases hh : indexBelow? selector.toInt s.cfg.numHeaps with
    | none =>
      exact (actsOnSelf_trap .heapSelectorOutOfRange (.parallelGstoreIndexed selector)).acts.congr fun u hu => by
        simp only [exec, execParallelGstoreIndexed, hu.me, hu.cfg, hst, hh]
    | some h =>
      cases hk : indexBelow? c.2.1.toInt (s.heapCap h) with
      | none =>
        exact (actsOnSelf_trap .heapIndexOutOfRange (.parallelGstoreIndexed selector)).acts.congr fun u hu => by
          simp only [exec, execParallelGstoreIndexed, hu.me, hu.cfg, hst, hh, hu.heapCap, hk]
      | some k =>
        refine ⟨.write h k c.1 { s.me with stack := c.2.2, ip := nextIp (.parallelGstoreIndexed selector) s },
          fun u t hu hm _ hrace => ?_⟩
        have hst' : u.me.stack = c.2.2 ++ [c.2.1, c.1] := by rw [hu.me]; exact top2?_eq_some.1 hst
        have hh' : indexBelow? selector.toInt u.cfg.numHeaps = some h := by rw [hu.cfg]; exact hh
        have hk' : indexBelow? c.2.1.toInt (u.heapCap h) = some k := by rw [hu.heapCap]; exact hk
        cases hc : u.conflicts u.cur h k true with
        | true =>
          cases (exec_parallelGstoreIndexed hst' hh' hk').symm.trans hm
          cases (laneWrite_race hc).symm.trans hrace
        | false =>
          cases (exec_parallelGstoreIndexed_noConflict hst' hh' hk' hc).symm.trans hm
          exact done_write hc (by rw [← hu.nextIp, ← hu.me]; rfl) (heapWrite_heaps_eq_putWord _ h k c.1) rfl

/-- Every instruction that mode LANE allows does an act that the lane chooses. -/
theorem acts_exec (hl : i.legalIn .lane = true) : Acts s (exec i) := by
  cases i with
  | iadd => exact (actsOnSelf_binary _ _).acts
  | isub => exact (actsOnSelf_binary _ _).acts
  | imul => exact (actsOnSelf_binary _ _).acts
  | ilt => exact (actsOnSelf_binary _ _).acts
  | ieq => exact (actsOnSelf_binary _ _).acts
  | br target =>
    exact (actsOnSelf_jump target s.me).acts.congr fun u hu => by
      simp only [exec, execBr, hu.me]
  | brt target => exact (actsOnSelf_branchIf _ _ target).acts
  | brf target => exact (actsOnSelf_branchIf _ _ target).acts
  | iconst value => exact (actsOnSelf_pushWord _ value).acts
  | load offset => exact (actsOnSelf_load offset).acts
  | gload address => cases hl
  | store offset => exact (actsOnSelf_store offset).acts
  | gstore address => cases hl
  | print => exact acts_print
  | pop => exact actsOnSelf_pop.acts
  | halt =>
    exact (actsOnSelf_retire .halt { s.me with status := .halted }).acts.congr fun u hu => by
      rw [exec_halt, hu.me]
  | call target numArgs => exact (actsOnSelf_call target numArgs).acts
  | ret => exact actsOnSelf_ret.acts
  | dup => exact actsOnSelf_dup.acts
  | idiv => exact actsOnSelf_idiv.acts
  | lshift => exact (actsOnSelf_unary _ _).acts
  | rshift => exact (actsOnSelf_unary _ _).acts
  | iconst1 => exact (actsOnSelf_pushWord _ 1).acts
  | gloadIndexed base => cases hl
  | gstoreIndexed base => cases hl
  | threadId =>
    exact (actsOnSelf_pushWord .threadId s.me.laneId).acts.congr fun u hu => by
      simp only [exec, execThreadId, hu.me]
  | parallelGloadIndexed selector => exact acts_parallelGloadIndexed selector
  | parallelGstoreIndexed selector => exact acts_parallelGstoreIndexed selector

/-! ### The step of the lane -/

theorem State.lanes_set_lane (s : State) (l : Nat) : s.lanes.set l (s.lane l) = s.lanes := by
  by_cases hlt : l < s.lanes.length
  · rw [State.lane, List.getD_eq_getElem _ _ hlt, List.set_getElem_self]
  · exact List.set_eq_of_length_le (Nat.le_of_not_lt hlt)

/-- A state that stays as it is does the act of writing the lane as it stands. -/
theorem acts_of_stays (h : ∀ u, Alike s u → m u = .next u) : Acts s m := by
  refine ⟨.own s.me, fun u t hu hm _ _ => ?_⟩
  cases (h u hu).symm.trans hm
  refine done_own ?_ rfl
  rw [← hu.me]
  exact (State.lanes_set_lane _ _).symm

/-- A step that traces emits a record. -/
theorem exec_traced_out_ne (htrace : u.me.trace = true) (h : exec i (u.traced i) = .next t) : t.out ≠ u.out := by
  obtain ⟨new, hout, -⟩ := exec_out h
  rw [hout, u.traced_out, htrace]
  simp

theorem acts_stepInstance (hm : s.launch.mode = .lane) : Acts s stepInstance := by
  have hdec (u : State) (hu : Alike s u) : decodeAt u u.me.ip.toInt = decodeAt s s.me.ip.toInt := by
    rw [hu.me]
    exact decodeAt_congr (by rw [hu.launch]) (by rw [hu.launch]) hu.program _
  have hroom (u : State) (hu : Alike s u) (i : Instr) : u.noRoom i u.me = s.noRoom i s.me := by
    simp only [State.noRoom, hu.cfg, hu.out, hu.me]
  cases hd : decodeAt s s.me.ip.toInt with
  | noValue =>
    refine acts_of_none fun u t hu h => ?_
    rw [stepInstance, hdec u hu, hd] at h
    cases h
  | fault c w =>
    exact (actsOnSelf_raise c w).acts.congr fun u hu => by
      simp only [stepInstance, hdec u hu, hd]
  | instr i =>
    cases hr : s.noRoom i s.me with
    | true => exact acts_of_stays fun u hu => by simp only [stepInstance, hdec u hu, hd, hroom u hu, hr, if_true]
    | false =>
      have hstep (u : State) (hu : Alike s u) : stepInstance u = exec i (u.traced i) := by
        simp only [stepInstance, hdec u hu, hd, hroom u hu, hr, Bool.false_eq_true, if_false]
      cases htrace : s.me.trace with
      | true =>
        refine acts_of_none fun u t hu h => ?_
        exact exec_traced_out_ne (by rw [hu.me]; exact htrace) ((hstep u hu).symm.trans h)
      | false =>
        have hlegal : i.legalIn .lane = true := by rw [← hm]; exact decodeAt_legal hd
        refine (acts_exec hlegal).congr fun u hu => ?_
        rw [hstep u hu, State.traced, hu.me, htrace, if_neg Bool.false_ne_true]

/-- The quiet step of slot `l` is one act, in every state that looks alike to that lane. -/
theorem acts_stepLane {l : Nat} (hm : s.launch.mode = .lane) :
    ∃ A : LaneAct, ∀ u t, Alike { s with cur := l } { u with cur := l } → stepLane l u = .next t → t.out = u.out →
      t.race = false → A.Done l u t := by
  have hactive (u : State) (hu : Alike { s with cur := l } { u with cur := l }) :
      (u.runState = .running ∧ u.active l) ↔ (s.runState = .running ∧ s.active l) := by
    have hlane : u.lane l = s.lane l := hu.me
    have hrun : u.runState = s.runState := hu.runState
    simp only [hrun, State.active, hlane]
  by_cases hrun : s.runState = .running ∧ s.active l
  · obtain ⟨A, hA⟩ := acts_stepInstance (s := { s with cur := l }) hm
    refine ⟨A, fun u t hu hstep hout hrace => ?_⟩
    rw [stepLane, if_pos ((hactive u hu).2 hrun)] at hstep
    obtain ⟨hlanes, hheaps, hrecorded, hquiet⟩ := hA { u with cur := l } t hu hstep hout hrace
    exact ⟨hlanes, hheaps, hrecorded, hquiet⟩
  · refine ⟨.own (s.lane l), fun u t hu hstep _ _ => ?_⟩
    rw [stepLane, if_neg (mt (hactive u hu).1 hrun)] at hstep
    cases hstep
    have hlane : u.lane l = s.lane l := hu.me
    exact done_own (by rw [← hlane, State.lanes_set_lane]) rfl

end Acts

/-! ### Two steps in either order -/

section TwoSteps

variable {s t u : State} {a b : Nat}

/-- A race once made stays flagged. -/
theorem race_stepBase {i : Instr} (h : StepBase s i u) (hr : u.race = false) : s.race = false := by
  cases h with
  | same i => exact hr
  | gstore address k v hk => exact hr
  | gstoreIndexed base k v hk => exact hr
  | print v hs => exact hr
  | laneRead selector a k v ha hk hv =>
    unfold State.laneRead at hr
    split at hr
    · cases hr
    · exact hr
  | laneWrite selector a k v ha hk =>
    unfold State.laneWrite at hr
    split at hr
    · cases hr
    · exact hr

theorem race_stepLane (h : stepLane a s = .next t) (hr : t.race = false) : s.race = false := by
  rcases stepLane_next h with rfl | ⟨-, -, hi⟩
  · exact hr
  · rcases stepInstance_next hi with ⟨c, w, -, -, rfl⟩ | ⟨i, -, ⟨-, rfl⟩ | ⟨-, he⟩⟩
    · exact hr
    · exact hr
    · rcases exec_next he with ⟨c, -, rfl⟩ | ⟨v, L, hb, -, rfl⟩
      · rw [State.traced_eq] at hr
        exact hr
      · have htraced := race_stepBase hb hr
        rw [State.traced_eq] at htraced
        exact htraced

theorem stepLane_out (h : stepLane a s = .next t) : ∃ new, t.out = s.out ++ new := by
  rcases stepLane_next h with rfl | ⟨-, -, hi⟩
  · exact ⟨[], (List.append_nil _).symm⟩
  · obtain ⟨new, hout, -⟩ := stepInstance_out hi
    exact ⟨new, hout⟩

/-- Two steps that emit no record: neither does the first. -/
theorem out_of_two_steps (hs : stepLane a s = .next t) (ht : stepLane b t = .next u) (hout : u.out = s.out) :
    t.out = s.out := by
  obtain ⟨new, hnew⟩ := stepLane_out hs
  obtain ⟨new', hnew'⟩ := stepLane_out ht
  rw [hnew, List.append_assoc] at hnew'
  have hnil : new ++ new' = [] := List.append_right_eq_self.1 (hnew'.symm.trans hout)
  rw [hnew, (List.append_eq_nil_iff.1 hnil).1, List.append_nil]

/-- After a step of another lane without a record the state looks alike to a lane. -/
theorem alike_stepLane (hs : stepLane a s = .next t) (hab : b ≠ a) (hout : t.out = s.out) :
    Alike { s with cur := b } { t with cur := b } := by
  obtain ⟨⟨L, hlanes⟩, hframe⟩ := stepLane_frame hs
  have keeps {α : Type} (field : State → α) := congrArg field hframe
  exact ⟨State.lane_of_set (s := s) hlanes hab, keeps State.launch, keeps State.cfg, keeps State.program,
    keeps State.runState, hout⟩

end TwoSteps

/-- Settles O34: each lane does one act, whichever comes first (`acts_stepLane`), and the acts of two lanes that make no
race commute (`LaneAct.Done.diamond`). -/
theorem laneStepsCommute : Obligations.LaneStepsCommute := by
  unfold Obligations.LaneStepsCommute
  intro s ta tab tb tba a b hab hmode hsa hab' hsb hba hraceAB hraceBA houtAB houtBA
  have houtA : ta.out = s.out := out_of_two_steps hsa hab' houtAB
  have houtB : tb.out = s.out := out_of_two_steps hsb hba houtBA
  obtain ⟨A, hA⟩ := acts_stepLane (l := a) hmode
  obtain ⟨B, hB⟩ := acts_stepLane (l := b) hmode
  have hAfirst : A.Done a s ta := hA s ta ⟨rfl, rfl, rfl, rfl, rfl, rfl⟩ hsa houtA (race_stepLane hab' hraceAB)
  have hBfirst : B.Done b s tb := hB s tb ⟨rfl, rfl, rfl, rfl, rfl, rfl⟩ hsb houtB (race_stepLane hba hraceBA)
  have hBsecond : B.Done b ta tab :=
    hB ta tab (alike_stepLane hsa hab.symm houtA) hab' (houtAB.trans houtA.symm) hraceAB
  have hAsecond : A.Done a tb tba :=
    hA tb tba (alike_stepLane hsb hab houtB) hba (houtBA.trans houtB.symm) hraceBA
  obtain ⟨hlanes, hheaps⟩ := LaneAct.Done.diamond hab hAfirst hBsecond hBfirst hAsecond
  exact ⟨State.lane_congr hlanes, hheaps⟩

end Sys2Proof.Machine

/-! PROOFS of the family 70_reset_and_hazards.md: reset, the launch request, and what changes STATE. -/

namespace Sys2Proof.Machine

/-! ### Reset (R172, R173; log 14) -/

/-- Settles O39: the reset is the event taken, and `State.afterReset` keeps only what is not the block's. -/
theorem resetEventLeavesResetState : Obligations.ResetEventLeavesResetState := by
  unfold Obligations.ResetEventLeavesResetState
  intro s rest ha hdue
  refine ⟨State.afterReset { s with agenda := rest }, ?_, rfl, rfl, rfl, rfl⟩
  rw [step_of_agenda hdue ha]
  rfl

/-! ### The launch request (R174 to R176) -/

/-- The state with the MODE and TRACE_EN of a CTRL write stored (10_state.md R39). -/
def State.withCtrl (s : State) (v : Word) : State :=
  { s with ctrlMode := if v.getLsbD 1 then .lane else .seq, ctrlTrace := v.getLsbD 2 }

/-- A START outside a launch requests the launch with the MODE and TRACE_EN it stores. -/
theorem writeReg_start {s : State} {v : Word} (hr : s.runState ≠ .running) (hv : v.getLsbD 0 = true) :
    s.writeReg 0x000 v = (s.withCtrl v).requestLaunch := by
  rw [writeReg_config v (by decide) rfl hr]
  exact if_pos hv

theorem requestLaunch_refused {s : State} {e : LaunchErr} (hc : s.launchCheck = e) (he : e ≠ .none) :
    s.requestLaunch = s.refusedBy e := by
  subst hc
  unfold State.requestLaunch
  split
  · exact absurd ‹s.launchCheck = .none› he
  · rfl

theorem requestLaunch_accepted {s : State} (hc : s.launchCheck = .none) : s.requestLaunch = s.startLaunch := by
  rw [State.requestLaunch, hc]

/-- Only an accepted request makes STATE RUNNING. -/
theorem requestLaunch_of_running {s : State} (h : s.requestLaunch.runState = .running) :
    s.requestLaunch = s.startLaunch := by
  rcases requestLaunch_cases s with ⟨-, hstart⟩ | ⟨e, -, href⟩
  · exact hstart
  · rw [href] at h
    exact RunState.noConfusion h

/-! The checks of R175, each as a proposition on the configuration registers, and the code of the first that fails. -/

def State.BadLanes (s : State) : Prop :=
  s.ctrlMode = .lane ∧ (s.laneCount = 0 ∨ s.cfg.maxLanes < s.laneCount.toNat)

def State.BadGroup (s : State) : Prop := s.ctrlMode = .lane ∧ s.cfg.maxGroupSize < s.groupSize.toNat

def State.BadProg (s : State) : Prop := s.cfg.progCap < s.progLen.toNat

def State.BadStack (s : State) : Prop := s.cfg.maxStackCap < s.stackCap.toNat

def State.BadHeap (s : State) : Prop :=
  ∃ h, (s.ctrlMode = .seq ∧ h = 0 ∨ s.ctrlMode = .lane ∧ h < s.cfg.numHeaps) ∧
    s.cfg.maxHeapWords < (s.heapCaps.getD h 0).toNat

section Checks

variable {s : State}

/-- The heaps checked are heap 0 in SEQ and every heap in LANE (10_state.md R46). -/
theorem badHeap_iff : s.BadHeap ↔
    (heapsUsed s.ctrlMode s.cfg).any (fun h => decide (s.cfg.maxHeapWords < (s.heapCaps.getD h 0).toNat)) = true := by
  simp only [State.BadHeap, List.any_eq_true, decide_eq_true_eq]
  cases s.ctrlMode <;> simp [heapsUsed]

theorem launchCheck_laneCount (hlanes : s.BadLanes) : s.launchCheck = .laneCount := if_pos hlanes

theorem launchCheck_groupSize (hlanes : ¬ s.BadLanes) (hgroup : s.BadGroup) : s.launchCheck = .groupSize :=
  (if_neg hlanes).trans (if_pos hgroup)

theorem launchCheck_progLen (hlanes : ¬ s.BadLanes) (hgroup : ¬ s.BadGroup) (hprog : s.BadProg) :
    s.launchCheck = .progLen := (if_neg hlanes).trans <| (if_neg hgroup).trans (if_pos hprog)

theorem launchCheck_stackCap (hlanes : ¬ s.BadLanes) (hgroup : ¬ s.BadGroup) (hprog : ¬ s.BadProg)
    (hstack : s.BadStack) : s.launchCheck = .stackCap :=
  (if_neg hlanes).trans <| (if_neg hgroup).trans <| (if_neg hprog).trans (if_pos hstack)

/-- Where the checks before it pass, the one of the heaps decides. -/
theorem launchCheck_heaps (hlanes : ¬ s.BadLanes) (hgroup : ¬ s.BadGroup) (hprog : ¬ s.BadProg)
    (hstack : ¬ s.BadStack) : s.launchCheck =
      if (heapsUsed s.ctrlMode s.cfg).any fun h => decide (s.cfg.maxHeapWords < (s.heapCaps.getD h 0).toNat) then
        .heapCap
      else .none :=
  (if_neg hlanes).trans <| (if_neg hgroup).trans <| (if_neg hprog).trans (if_neg hstack)

theorem launchCheck_heapCap (hlanes : ¬ s.BadLanes) (hgroup : ¬ s.BadGroup) (hprog : ¬ s.BadProg)
    (hstack : ¬ s.BadStack) (hheap : s.BadHeap) : s.launchCheck = .heapCap :=
  (launchCheck_heaps hlanes hgroup hprog hstack).trans (if_pos (badHeap_iff.1 hheap))

theorem launchCheck_none (hlanes : ¬ s.BadLanes) (hgroup : ¬ s.BadGroup) (hprog : ¬ s.BadProg)
    (hstack : ¬ s.BadStack) (hheap : ¬ s.BadHeap) : s.launchCheck = .none :=
  (launchCheck_heaps hlanes hgroup hprog hstack).trans (if_neg (mt badHeap_iff.2 hheap))

end Checks

/-- Settles O49: the check names the first failure, and a refusal writes STATUS alone. -/
theorem launchChecksInOrder : Obligations.LaunchChecksInOrder := by
  unfold Obligations.LaunchChecksInOrder
  intro s v hr hv
  dsimp only
  rw [writeReg_start hr hv]
  refine ⟨fun hlanes => ?_, fun hlanes hgroup => ?_, fun hlanes hgroup hprog => ?_,
    fun hlanes hgroup hprog hstack => ?_, fun hlanes hgroup hprog hstack hheap => ?_,
    fun hlanes hgroup hprog hstack hheap => ?_⟩
  · exact requestLaunch_refused (launchCheck_laneCount hlanes) (by decide)
  · exact requestLaunch_refused (launchCheck_groupSize hlanes hgroup) (by decide)
  · exact requestLaunch_refused (launchCheck_progLen hlanes hgroup hprog) (by decide)
  · exact requestLaunch_refused (launchCheck_stackCap hlanes hgroup hprog hstack) (by decide)
  · exact requestLaunch_refused (launchCheck_heapCap hlanes hgroup hprog hstack hheap) (by decide)
  · have hpass : (s.withCtrl v).launchCheck = .none := launchCheck_none hlanes hgroup hprog hstack hheap
    rw [requestLaunch_accepted hpass]
    rfl

/-- The slots of a launch: fresh up to its number of lane positions, INACTIVE above (R155, R167). -/
theorem startLaunch_lane_eq (s : State) (l : Nat) : s.startLaunch.lane l =
    if l < (if s.ctrlMode = .lane then s.laneCount.toNat else 1) then freshLane s.latch l else Lane.inactive l := by
  have hlanes : s.startLaunch.lanes = freshLanes s.latch := rfl
  have hmode : s.latch.mode = s.ctrlMode := rfl
  have hcount : s.latch.laneCount = s.laneCount := rfl
  rw [State.lane, List.getD_eq_getElem?_getD, hlanes, freshLanes_getElem?, hmode, hcount, apply_ite (Option.getD · _)]
  rfl

/-- Settles O50: the accepted request is `State.startLaunch`. -/
theorem acceptedLaunchInitialises : Obligations.AcceptedLaunchInitialises := by
  unfold Obligations.AcceptedLaunchInitialises
  intro s v hr hv
  dsimp only
  rw [writeReg_start hr hv]
  intro hrun
  rw [requestLaunch_of_running hrun]
  have hlane := startLaunch_lane_eq (s.withCtrl v)
  refine ⟨rfl, rfl, rfl, rfl, rfl, fun l hl => ?_, fun l hl => ?_, rfl, rfl, rfl⟩
  · exact (hlane l).trans (if_pos hl)
  · rw [(hlane l).trans (if_neg (Nat.not_lt.2 hl))]
    exact ⟨rfl, rfl, rfl, rfl, rfl, rfl, rfl, rfl⟩

/-! ### What changes STATE (R178) -/

theorem stepLane_runState {l : Nat} {s t : State} (h : stepLane l s = .next t) : t.runState = s.runState :=
  (congrArg State.runState (stepLane_frame h).2 :)

@[simp] theorem State.busRead_runState (s : State) (addr width : Nat) :
    (s.busRead addr width).runState = s.runState :=
  (congrArg State.runState (busRead_frame s addr width) :)

@[simp] theorem State.acceptRecord_runState (s : State) : s.acceptRecord.runState = s.runState := by
  unfold State.acceptRecord; split <;> rfl

@[simp] theorem State.heapCmd_runState (s : State) (v : Word) : (s.heapCmd v).runState = s.runState := by
  unfold State.heapCmd
  dsimp only
  split
  · split
    · rfl
    · split <;> rfl
  · rfl

/-- A host write that changes STATE comes outside a launch and leaves it REJECTED or RUNNING. -/
theorem HostWrite.runState {s t : State} (h : HostWrite s t) (hne : t.runState ≠ s.runState) :
    s.runState ≠ .running ∧ (t.runState = .rejected ∨ t.runState = .running) := by
  cases h with
  | refused m tr e hr he => exact ⟨hr, .inl rfl⟩
  | started m tr hr hc => exact ⟨hr, .inr rfl⟩
  | _ => exact absurd rfl hne

/-- Of the configuration registers only CTRL, written with START 1, changes STATE. -/
theorem writeConfig_start {s : State} {off : Nat} {v : Word} (hne : (s.writeConfig off v).runState ≠ s.runState) :
    off = 0 ∧ v.getLsbD 0 = true := by
  unfold State.writeConfig at hne
  split at hne
  · refine ⟨rfl, ?_⟩
    by_contra hv
    exact hne (by rw [State.writeCtrl, if_neg hv])
  case h_7 => exact absurd (s.heapCmd_runState v) hne
  all_goals exact absurd rfl hne

theorem writeReg_start_of_runState_ne {s : State} {off : Nat} {v : Word}
    (hne : (s.writeReg off v).runState ≠ s.runState) : off = 0 ∧ v.getLsbD 0 = true := by
  unfold State.writeReg at hne
  split at hne
  · exact absurd rfl hne
  · split at hne
    · split at hne
      · exact absurd rfl hne
      · exact writeConfig_start hne
    · exact absurd rfl hne

/-- The bus write that changes STATE is a four-byte write to CTRL with START 1. -/
theorem busWrite_start {s : State} {addr : Nat} {data : List Byte}
    (hne : (s.busWrite addr data).runState ≠ s.runState) :
    locate s.cfg addr = some (.regs, 0) ∧ data.length = 4 ∧
      (wordOfBytes s.cfg.hostByteOrder data).getLsbD 0 = true := by
  unfold State.busWrite at hne
  split at hne
  · exact absurd rfl hne
  · rename_i w off hloc
    split at hne
    · rename_i hal
      cases w with
      | regs =>
        obtain ⟨rfl, hv⟩ := writeReg_start_of_runState_ne hne
        exact ⟨hloc, hal.2, hv⟩
      | program => dsimp only at hne; split at hne <;> exact absurd rfl hne
      | heap h => dsimp only at hne; split at hne <;> exact absurd rfl hne
    · exact absurd rfl hne

/-- Settles O52, by the cases of `step_next`: the other events leave STATE. -/
theorem onlyTheseEventsChangeState : Obligations.OnlyTheseEventsChangeState := by
  unfold Obligations.OnlyTheseEventsChangeState
  intro s t hstep hne
  rcases step_next hstep with ⟨hdue, rfl⟩ | ⟨-, e, rest, ha, hh⟩ | ⟨-, -, ⟨-, rfl⟩ | ⟨l, -, hl⟩⟩
  · obtain ⟨hrun, hnone, hout⟩ := completionDue_iff.1 hdue
    refine .inr (.inr ⟨hrun, rfl, fun l hl => ?_, hout⟩)
    exact hnone _ (mem_lanes.2 ⟨l, s.lt_of_running l hl, rfl⟩) hl
  · cases e with
    | lane l => exact absurd (stepLane_runState hh) hne
    | issue g ip => cases hh; exact absurd rfl hne
    | busWrite addr data =>
      cases hh
      obtain ⟨hloc, hlen, hv⟩ := busWrite_start (s := { s with agenda := rest }) hne
      obtain ⟨hr, hto⟩ := (hostWrite_busWrite { s with agenda := rest } addr data).runState hne
      exact .inr (.inl ⟨hr, hto, addr, data, rest, ha, hloc, hlen, hv⟩)
    | busRead addr width => cases hh; exact absurd (State.busRead_runState _ addr width) hne
    | accept => cases hh; exact absurd (State.acceptRecord_runState _) hne
    | reset => cases hh; exact .inl ⟨rfl, rest, ha⟩
  · exact absurd rfl hne
  · exact absurd (stepLane_runState hl) hne

end Sys2Proof.Machine
